-- ==== Sys2Proof/Word.lean ====
section
/-! DEFINITION. The word types of HZIP-CORE: a byte of input or output (spec/20_memory.md R46) and a
code length (spec/10_state.md R32). Every value of the spec is an unsigned integer (R17). -/

namespace Sys2Proof

/-- One byte of the input or the output (R46). -/
abbrev Byte := BitVec 8

/-- A code length as the `lens`, `lit_lens` and `dist_lens` arrays hold it: 4 bits (R32, R33). -/
abbrev CodeLen := BitVec 4

end Sys2Proof
end

