-- ==== Sys2Proof/Config.lean ====
section
/-! DEFINITION. What the spec fixes as parameters (spec/00_scope.md section 3) and the values it leaves open,
free values: opaque constants no proof can evaluate. `IN_LEN`, `SRC_END` and `OUT_CAP` are arguments of a
session and stand in State. -/

namespace Sys2Proof.Config

/-- `LITLEN_VALID`: literal/length symbols 0 .. 285 are valid when decoded (R7). -/
def litLenValid : Nat := 286

/-- `LITLEN_CODABLE`: entries of a literal/length code-length array (R7). -/
def litLenCodable : Nat := 288

/-- `DIST_VALID`: distance symbols 0 .. 29 are valid when decoded (R8). -/
def distValid : Nat := 30

/-- `DIST_CODABLE`: entries of a distance code-length array (R8). -/
def distCodable : Nat := 32

/-- `CL_SIZE`: symbols of the code-length alphabet (R9). -/
def clSize : Nat := 19

/-- `MAXBITS`: the longest literal/length or distance code (R10). -/
def maxBits : Nat := 15

/-- `CL_MAXBITS`: the longest code of the code-length alphabet (R10). -/
def clMaxBits : Nat := 7

/-- `WINDOW`: how far back a back-reference can reach (R11, R52). -/
def window : Nat := 32768

/-- `READ_MAX`: the widest single `ReadBits` (R12). -/
def readMax : Nat := 16

/-- What the output read port shows where its value has no meaning: outside `DONE`, or at an address at or above
`out_len` (R54, R219, U9). The first argument tells one such read from another; the value is free.
Log entry 4, DESIGN CHOICE. -/
opaque outPortFree (tick addr : Nat) : Byte

/-! The result of a session whose input the host changed while it ran (U12: unconstrained, but it still ends in `DONE`
or `ERROR`), all free. The argument tells one such session from another. Log entry 3, DESIGN CHOICE. -/

/-- Whether it ends in `DONE`. -/
opaque lostDone (tick : Nat) : Bool

/-- The output it leaves. -/
opaque lostOut (tick : Nat) : List Byte

/-- The input byte its cursor ends at. -/
opaque lostConsumed (tick : Nat) : Nat

/-- Which of the nine error kinds (R208), counted from 0, it raises when it ends in `ERROR`. -/
opaque lostError (tick : Nat) : Fin 9

end Sys2Proof.Config
end

