-- ==== Sys2Proof/Machine/Memory.lean ====
section
/-! DEFINITION. Byte memory as plain data: a list of (address, byte) cells in one canonical form, addresses strictly
rising and no cell equal to what an unlisted address reads as. The input space `IN` and the output space `OUT`
(spec/20_memory.md R46) are each one such memory beside a length; an address at or above the length does not exist. -/

namespace Sys2Proof.Machine

/-- A byte memory: cells in canonical form (`Memory.wf`). -/
abbrev Memory := List Host.Cell

/-- What an unlisted address below the space's length reads as. It only fixes how a zero byte is written down: every
byte sequence has exactly one canonical list (log entry 1). -/
def Memory.unlisted : Byte := 0

/-- The byte at address `a`. -/
def Memory.read : Memory → Nat → Byte
  | [], _ => Memory.unlisted
  | (k, b) :: rest, a => if k = a then b else Memory.read rest a

/-- `cell a b` in front of `rest`, left out when `b` is what an unlisted address reads as. -/
def Memory.cons (a : Nat) (b : Byte) (rest : Memory) : Memory :=
  if b = Memory.unlisted then rest else (a, b) :: rest

/-- Write byte `b` at address `a`, keeping the canonical form. -/
def Memory.write : Memory → Nat → Byte → Memory
  | [], a, b => Memory.cons a b []
  | (k, v) :: rest, a, b =>
    if a < k then Memory.cons a b ((k, v) :: rest)
    else if a = k then Memory.cons a b rest
    else (k, v) :: Memory.write rest a b

/-- The canonical form from address `lo` on. -/
def Memory.wfFrom (lo : Nat) : Memory → Bool
  | [] => true
  | (k, v) :: rest => decide (lo ≤ k) && decide (v ≠ Memory.unlisted) && Memory.wfFrom (k + 1) rest

/-- The canonical form: addresses strictly rising, no cell equal to an unlisted address's byte. -/
def Memory.wf (m : Memory) : Bool := Memory.wfFrom 0 m

/-- Every listed address lies below `n`: the space holds addresses `0 .. n-1` and nothing else. -/
def Memory.below (m : Memory) (n : Nat) : Bool := m.all fun c => decide (c.1 < n)

/-- The cells of a byte sequence placed from address `a` on. -/
def Memory.ofBytesFrom (a : Nat) : List Byte → Memory
  | [] => []
  | b :: rest => Memory.cons a b (Memory.ofBytesFrom (a + 1) rest)

/-- The memory holding a byte sequence at addresses 0, 1, ... -/
def Memory.ofBytes (bytes : List Byte) : Memory := Memory.ofBytesFrom 0 bytes

/-- The bytes at addresses `0 .. n-1`. -/
def Memory.toBytes (m : Memory) (n : Nat) : List Byte := (List.range n).map m.read

end Sys2Proof.Machine
end

