-- ==== Sys2Proof/Machine/Stream.lean ====
section
/-! DEFINITION. The BitStream (spec/40_bitstream.md): the input byte source with the bit cursor `pc`, and its three
operations `ReadBit`, `ReadBits` and `AlignToByte`. Nothing else moves the cursor (R26, R88). -/

namespace Sys2Proof.Machine

/-- How the byte source ends after its last byte, `SRC_END` (R14). -/
inductive SrcEnd where
  | eof
  | ioError
deriving DecidableEq, Repr

/-- The nine error kinds (R208); `errorCode` in Ops gives their codes. Raising one is a next state: `raiseError`. -/
inductive ErrKind where
  | truncatedStream
  | reservedBlockType
  | storedLengthMismatch
  | malformedCodeLengths
  | malformedDynamicHeader
  | invalidHuffmanCode
  | invalidBackReference
  | sourceError
  | outputOverflow
deriving DecidableEq, Repr

/-- The input source and the cursor: `IN[0 .. IN_LEN-1]`, `SRC_END` and `pc = {in_pos, bit_off}` (R14, R25, R46). -/
structure BitStream where
  bytes  : Memory
  len    : Nat
  srcEnd : SrcEnd
  inPos  : Nat
  bitOff : BitVec 3
deriving DecidableEq, Repr

/-- What reading from the stream gives: a value, or the error kind the read raises; either way the stream with its
cursor where the read left it (R85: the bits before a failing one are consumed). -/
inductive Read (α : Type) where
  | ok    (a : α) (bs : BitStream)
  | raise (k : ErrKind) (bs : BitStream)
deriving DecidableEq, Repr

/-- The stream bit position `8 * in_pos + bit_off` (R25). -/
def BitStream.pos (bs : BitStream) : Nat := 8 * bs.inPos + bs.bitOff.toNat

/-- Stream bit `k`: bit `k mod 8` of input byte `k / 8` (R18). -/
def BitStream.bitAt (bs : BitStream) (k : Nat) : Bool := (bs.bytes.read (k / 8)).getLsbD (k % 8)

/-- The bits not yet consumed, in read order. -/
def BitStream.remaining (bs : BitStream) : List Bool :=
  (List.range (8 * bs.len - bs.pos)).map fun j => bs.bitAt (bs.pos + j)

/-- The stream with its cursor at bit position `p`. -/
def BitStream.seek (bs : BitStream) (p : Nat) : BitStream :=
  { bs with inPos := p / 8, bitOff := BitVec.ofNat 3 (p % 8) }

/-- The error a read past the last input byte raises (R47): `TruncatedStream`, or `SourceError` for an I/O failure. -/
def endError : SrcEnd → ErrKind
  | .eof => .truncatedStream
  | .ioError => .sourceError

/-- The cursor after one bit (R84): crossing a byte boundary advances `in_pos` and sets `bit_off` to 0 (R26). -/
def BitStream.advance (bs : BitStream) : BitStream :=
  if bs.bitOff = 7 then { bs with inPos := bs.inPos + 1, bitOff := 0 }
  else { bs with bitOff := bs.bitOff + 1 }

/-- `MemRead(IN, a, 1)` (R47): the byte at `a`, or nothing at or past `IN_LEN`. -/
def BitStream.memRead (bs : BitStream) (a : Nat) : Option Byte :=
  if a < bs.len then some (bs.bytes.read a) else none

/-- `ReadBit()` (R84). -/
def BitStream.readBit (bs : BitStream) : Read Bool :=
  match bs.memRead bs.inPos with
  | none => .raise (endError bs.srcEnd) bs
  | some byte => .ok (byte.getLsbD bs.bitOff.toNat) bs.advance

/-- `ReadBits(n)` (R85): the first bit read is bit 0 of the value. -/
def BitStream.readBits : Nat → BitStream → Read Nat
  | 0, bs => .ok 0 bs
  | n + 1, bs =>
    match bs.readBit with
    | .raise k bs' => .raise k bs'
    | .ok b bs' =>
      match BitStream.readBits n bs' with
      | .raise k bs'' => .raise k bs''
      | .ok v bs'' => .ok (b.toNat + 2 * v) bs''

/-- `AlignToByte()` (R87): to the next byte boundary unless already on one. It reads no byte and cannot fail. -/
def BitStream.align (bs : BitStream) : BitStream :=
  if bs.bitOff = 0 then bs else { bs with inPos := bs.inPos + 1, bitOff := 0 }

/-- The value of a bit list whose first bit is bit 0 (R56). -/
def bitsValue : List Bool → Nat
  | [] => 0
  | b :: rest => b.toNat + 2 * bitsValue rest

/-- The `n` low bits of `v`, bit 0 first: what `ReadBits(n)` reads to return `v` (R85). -/
def fieldBits : Nat → Nat → List Bool
  | 0, _ => []
  | n + 1, v => v.testBit 0 :: fieldBits n (v / 2)

/-- The `l` bits of a code of value `c` in read order, most significant first (R96). -/
def codeBits (l c : Nat) : List Bool := (fieldBits l c).reverse

end Sys2Proof.Machine
end

