-- ==== Sys2Proof/Machine/Huffman.lean ====
section
/-! DEFINITION. Canonical Huffman construction and decode (spec/41_huffman.md): `Build` turns a CodeLengthArray into
the finite map (length, code value) to symbol, `DecodeSymbol` reads one symbol with it. -/

namespace Sys2Proof.Machine

/-- One entry `(L[s], code_of[s]) -> s` of a code table (R94). -/
structure CodeEntry where
  len  : Nat
  code : Nat
  sym  : Nat
deriving DecidableEq, Repr

/-- A code table: the finite map of R94, its symbols in increasing order. -/
abbrev CodeTable := List CodeEntry

/-- `count[l]` for `l in 1 .. maxbits` (R90), as the list `[count[1], ..., count[maxbits]]`. -/
def countLens (lens : List Nat) (maxbits : Nat) : List Nat :=
  (List.range maxbits).map fun i => lens.count (i + 1)

/-- The over-subscription loop of R91 over `[count[l], count[l+1], ...]`: true when `left` never falls below 0. -/
def fitsFrom : Nat → List Nat → Bool
  | _, [] => true
  | left, c :: rest => if 2 * left < c then false else fitsFrom (2 * left - c) rest

/-- The first code values `[next_code[l], next_code[l+1], ...]` from `code = next_code[l-1]` and
`prev = count[l-1]` (R92). -/
def firstCodesFrom : Nat → Nat → List Nat → List Nat
  | _, _, [] => []
  | code, prev, c :: rest => 2 * (code + prev) :: firstCodesFrom (2 * (code + prev)) c rest

/-- Step (c) (R93): consecutive code values in increasing symbol order; `next` is `[next_code[1], ...]` as it runs. -/
def assignFrom : Nat → List Nat → List Nat → CodeTable
  | _, _, [] => []
  | s, next, l :: rest =>
    if l = 0 then assignFrom (s + 1) next rest
    else
      { len := l, code := next.getD (l - 1) 0, sym := s }
        :: assignFrom (s + 1) (next.set (l - 1) (next.getD (l - 1) 0 + 1)) rest

/-- `Build(L, maxbits)` (R94); `none` is `MalformedCodeLengths`, raised exactly on over-subscription (R91). -/
def buildTable (lens : List Nat) (maxbits : Nat) : Option CodeTable :=
  if fitsFrom 1 (countLens lens maxbits) then
    some (assignFrom 0 (firstCodesFrom 0 0 (countLens lens maxbits)) lens)
  else none

/-- Entry `e`'s code begins with the `len` bits of value `code`: the bit string is a prefix of the code (R97, R98). -/
def CodeEntry.beginsWith (e : CodeEntry) (len code : Nat) : Bool :=
  decide (len ≤ e.len) && e.code >>> (e.len - len) == code

/-- The walk of `DecodeSymbol` from the node of the `len` bits of value `code` (R98): `node` holds the entries whose
code begins with those bits. One bit is read, the node becomes its child; a child that holds a code of exactly the bits
read is a leaf and returns its symbol, a child that holds no entry is absent and raises `InvalidHuffmanCode`. A walk
takes at most `maxbits` bits, so with `fuel = maxbits` the first case is never reached on a built table. -/
def decodeWalk : Nat → Nat → Nat → CodeTable → BitStream → Read Nat
  | 0, _, _, _, bs => .raise .invalidHuffmanCode bs
  | fuel + 1, len, code, node, bs =>
    match bs.readBit with
    | .raise k bs' => .raise k bs'
    | .ok b bs' =>
      match node.filter fun e => e.beginsWith (len + 1) (2 * code + b.toNat) with
      | [] => .raise .invalidHuffmanCode bs'
      | e :: rest =>
        match (e :: rest).find? fun e' => e'.len == len + 1 with
        | some leaf => .ok leaf.sym bs'
        | none => decodeWalk fuel (len + 1) (2 * code + b.toNat) (e :: rest) bs'

/-- `DecodeSymbol(T)` (R97, R98): the first bit read is the most significant bit of the code value (R96). -/
def decodeSymbol (t : CodeTable) (maxbits : Nat) (bs : BitStream) : Read Nat := decodeWalk maxbits 0 0 t bs

/-- `T[(len, code)]` (R97). -/
def CodeTable.lookup (t : CodeTable) (len code : Nat) : Option Nat :=
  (t.find? fun e => e.len == len && e.code == code).map CodeEntry.sym

/-- Some longer code of the table begins with the `len` bits of value `code` (R97). -/
def CodeTable.extends (t : CodeTable) (len code : Nat) : Bool :=
  t.any fun e => decide (len < e.len) && e.code >>> (e.len - len) == code

/-- The loop of R97 as it is written there, over the map and not over the tree; `decodeWalk` is the same function
walking the tree of R98 (an obligation says so). -/
def decodeLoop (t : CodeTable) : Nat → Nat → Nat → BitStream → Read Nat
  | 0, _, _, bs => .raise .invalidHuffmanCode bs
  | fuel + 1, len, code, bs =>
    match bs.readBit with
    | .raise k bs' => .raise k bs'
    | .ok b bs' =>
      match t.lookup (len + 1) (2 * code + b.toNat) with
      | some sym => .ok sym bs'
      | none =>
        if t.extends (len + 1) (2 * code + b.toNat) then decodeLoop t fuel (len + 1) (2 * code + b.toNat) bs'
        else .raise .invalidHuffmanCode bs'

/-- The entry of a symbol, when the table gives it a code. -/
def CodeTable.entryOf (t : CodeTable) (sym : Nat) : Option CodeEntry := t.find? fun e => e.sym == sym

end Sys2Proof.Machine
end

