-- ==== Sys2Proof/Machine/Tables.lean ====
section
/-! DEFINITION. The constant tables of the core (spec/10_state.md R43): the fixed code-length arrays
(42_fixed_tables.md), the code-length permutation (43_dynamic_header.md R110), the length and distance tables
(44_symbol_decoder.md R124, R157). Nothing writes them (R55). -/

namespace Sys2Proof.Machine

/-- `FIXED_LIT[0..287]` (R102). -/
def fixedLit : List CodeLen :=
  List.replicate 144 8 ++ List.replicate 112 9 ++ List.replicate 24 7 ++ List.replicate 8 8

/-- `FIXED_DIST[0..29]` with entries 30 and 31 of `dist_lens` at 0 (R103, R107). -/
def fixedDist : List CodeLen := List.replicate 30 5 ++ List.replicate 2 0

/-- `ORDER[0..18]` (R110). -/
def clOrder : List Nat := [16, 17, 18, 0, 8, 7, 9, 6, 10, 5, 11, 4, 12, 3, 13, 2, 14, 1, 15]

/-- `(LBASE[s], LEXTRA[s])` for `s = 257, 258, ...` (R124). -/
def lengthRows : List (Nat × Nat) :=
  [(3, 0), (4, 0), (5, 0), (6, 0), (7, 0), (8, 0), (9, 0), (10, 0),
   (11, 1), (13, 1), (15, 1), (17, 1), (19, 2), (23, 2), (27, 2), (31, 2)] ++
  [(35, 3), (43, 3), (51, 3), (59, 3), (67, 4), (83, 4), (99, 4), (115, 4),
   (131, 5), (163, 5), (195, 5), (227, 5), (258, 0)]

/-- `(DBASE[d], DEXTRA[d])` for `d = 0, 1, ...` (R157). -/
def distRows : List (Nat × Nat) :=
  [(1, 0), (2, 0), (3, 0), (4, 0), (5, 1), (7, 1), (9, 2), (13, 2),
   (17, 3), (25, 3), (33, 4), (49, 4), (65, 5), (97, 5), (129, 6), (193, 6)] ++
  [(257, 7), (385, 7), (513, 8), (769, 8), (1025, 9), (1537, 9), (2049, 10), (3073, 10),
   (4097, 11), (6145, 11), (8193, 12), (12289, 12), (16385, 13), (24577, 13)]

/-- `LBASE[s]` (R124). -/
def lengthBase (s : Nat) : Nat := (lengthRows.getD (s - 257) (0, 0)).1

/-- `LEXTRA[s]` (R124); 0 for a symbol that is no length symbol. -/
def lengthExtra (s : Nat) : Nat := if s < 257 then 0 else (lengthRows.getD (s - 257) (0, 0)).2

/-- `DBASE[d]` (R157). -/
def distBase (d : Nat) : Nat := (distRows.getD d (0, 0)).1

/-- `DEXTRA[d]` (R157); 0 for symbols 30 and 31, which read no extra bit (R158). -/
def distExtra (d : Nat) : Nat := (distRows.getD d (0, 0)).2

/-- The extra-bit width of a code-length symbol (R74, R113, R114, R115). -/
def clExtra (s : Nat) : Nat :=
  if s = 16 then 2 else if s = 17 then 3 else if s = 18 then 7 else 0

end Sys2Proof.Machine
end

