-- ==== Sys2Proof/Syntax.lean ====
section
/-! DEFINITION. The instructions of HZIP-CORE: the elements of a DEFLATE bitstream that select an operation
(spec/30_encoding.md R77, R78), one constructor per row of spec/opcode_table.json. The operand of an instruction is
its field after the code: the extra bits of R74, the literal byte, the code length, or BFINAL of a block header. -/

namespace Sys2Proof

/-- The four value spaces that select an operation (R77). -/
inductive Space where
  | hdr    -- `F_HDR`: `H = BFINAL + 2*BTYPE`
  | clSym  -- `CL_SYM`: code-length symbol
  | llSym  -- `LL_SYM`: literal/length symbol
  | dSym   -- `D_SYM`: distance symbol
deriving DecidableEq, Repr

/-- One element of the stream with its operands. -/
inductive Instr where
  -- block headers (R195 to R199)
  | blkStored (bfinal : Bool)
  | blkFixed (bfinal : Bool)
  | blkDynamic (bfinal : Bool)
  | blkReserved (bfinal : Bool)
  -- code-length symbols (R112 to R115)
  | clLen (n : BitVec 4)
  | clRep16 (x : BitVec 2)
  | clZero17 (x : BitVec 3)
  | clZero18 (x : BitVec 7)
  -- literal/length symbols (R122, R123, R125 to R153, R155)
  | lit (b : Byte)
  | eob
  | len257
  | len258
  | len259
  | len260
  | len261
  | len262
  | len263
  | len264
  | len265 (x : BitVec 1)
  | len266 (x : BitVec 1)
  | len267 (x : BitVec 1)
  | len268 (x : BitVec 1)
  | len269 (x : BitVec 2)
  | len270 (x : BitVec 2)
  | len271 (x : BitVec 2)
  | len272 (x : BitVec 2)
  | len273 (x : BitVec 3)
  | len274 (x : BitVec 3)
  | len275 (x : BitVec 3)
  | len276 (x : BitVec 3)
  | len277 (x : BitVec 4)
  | len278 (x : BitVec 4)
  | len279 (x : BitVec 4)
  | len280 (x : BitVec 4)
  | len281 (x : BitVec 5)
  | len282 (x : BitVec 5)
  | len283 (x : BitVec 5)
  | len284 (x : BitVec 5)
  | len285
  | inv286
  | inv287
  -- distance symbols (R160 to R189, R158)
  | dist0
  | dist1
  | dist2
  | dist3
  | dist4 (x : BitVec 1)
  | dist5 (x : BitVec 1)
  | dist6 (x : BitVec 2)
  | dist7 (x : BitVec 2)
  | dist8 (x : BitVec 3)
  | dist9 (x : BitVec 3)
  | dist10 (x : BitVec 4)
  | dist11 (x : BitVec 4)
  | dist12 (x : BitVec 5)
  | dist13 (x : BitVec 5)
  | dist14 (x : BitVec 6)
  | dist15 (x : BitVec 6)
  | dist16 (x : BitVec 7)
  | dist17 (x : BitVec 7)
  | dist18 (x : BitVec 8)
  | dist19 (x : BitVec 8)
  | dist20 (x : BitVec 9)
  | dist21 (x : BitVec 9)
  | dist22 (x : BitVec 10)
  | dist23 (x : BitVec 10)
  | dist24 (x : BitVec 11)
  | dist25 (x : BitVec 11)
  | dist26 (x : BitVec 12)
  | dist27 (x : BitVec 12)
  | dist28 (x : BitVec 13)
  | dist29 (x : BitVec 13)
  | invD30
  | invD31
deriving DecidableEq, Repr

end Sys2Proof
end

