-- ==== Sys2Proof/Decode.lean ====
section
/-! DEFINITION. The decoder: from a value of one of the four spaces and its extra-bit field to an instruction
(spec/30_encoding.md R77, R78), total and rejecting by name; the bit-level decoder over a BitStream (R74); and after
them the encoder, written from the same encoding tables (R70, R74, R96). -/

namespace Sys2Proof

open Sys2Proof.Machine

/-- Why a value selects no operation: it lies outside its space (R77). No value the core obtains does
(`DecodeSymbol` returns a symbol of its alphabet). Raised by the decoder; the step refuses, which is safe. -/
inductive DecodeReject where
  | headerValue (v : Nat)
  | codeLengthSymbol (v : Nat)
  | literalLengthSymbol (v : Nat)
  | distanceSymbol (v : Nat)
deriving DecidableEq, Repr

/-- `F_HDR`: `BTYPE = H[2:1]` selects, `BFINAL = H[0]` is the operand (R70, R78). -/
def decodeHeader (h : Nat) : Except DecodeReject Instr :=
  match h / 2 with
  | 0 => .ok (.blkStored (h.testBit 0))
  | 1 => .ok (.blkFixed (h.testBit 0))
  | 2 => .ok (.blkDynamic (h.testBit 0))
  | 3 => .ok (.blkReserved (h.testBit 0))
  | _ => .error (.headerValue h)

/-- `CL_SYM` (R78): symbols 0..15 are the length itself, 16, 17, 18 carry an extra field `x`. -/
def decodeCodeLength (v x : Nat) : Except DecodeReject Instr :=
  if v < 16 then .ok (.clLen (BitVec.ofNat 4 v))
  else
    match v - 16 with
    | 0 => .ok (.clRep16 (BitVec.ofNat 2 x))
    | 1 => .ok (.clZero17 (BitVec.ofNat 3 x))
    | 2 => .ok (.clZero18 (BitVec.ofNat 7 x))
    | _ => .error (.codeLengthSymbol v)

/-- `LL_SYM` (R78): 0..255 a literal, 256 end of block, 257..285 a length symbol with its extra field `x`, 286 and
287 invalid. -/
def decodeLiteralLength (v x : Nat) : Except DecodeReject Instr :=
  if v < 256 then .ok (.lit (BitVec.ofNat 8 v))
  else
    match v - 256 with
    | 0 => .ok .eob
    | 1 => .ok .len257
    | 2 => .ok .len258
    | 3 => .ok .len259
    | 4 => .ok .len260
    | 5 => .ok .len261
    | 6 => .ok .len262
    | 7 => .ok .len263
    | 8 => .ok .len264
    | 9 => .ok (.len265 (BitVec.ofNat 1 x))
    | 10 => .ok (.len266 (BitVec.ofNat 1 x))
    | 11 => .ok (.len267 (BitVec.ofNat 1 x))
    | 12 => .ok (.len268 (BitVec.ofNat 1 x))
    | 13 => .ok (.len269 (BitVec.ofNat 2 x))
    | 14 => .ok (.len270 (BitVec.ofNat 2 x))
    | 15 => .ok (.len271 (BitVec.ofNat 2 x))
    | 16 => .ok (.len272 (BitVec.ofNat 2 x))
    | 17 => .ok (.len273 (BitVec.ofNat 3 x))
    | 18 => .ok (.len274 (BitVec.ofNat 3 x))
    | 19 => .ok (.len275 (BitVec.ofNat 3 x))
    | 20 => .ok (.len276 (BitVec.ofNat 3 x))
    | 21 => .ok (.len277 (BitVec.ofNat 4 x))
    | 22 => .ok (.len278 (BitVec.ofNat 4 x))
    | 23 => .ok (.len279 (BitVec.ofNat 4 x))
    | 24 => .ok (.len280 (BitVec.ofNat 4 x))
    | 25 => .ok (.len281 (BitVec.ofNat 5 x))
    | 26 => .ok (.len282 (BitVec.ofNat 5 x))
    | 27 => .ok (.len283 (BitVec.ofNat 5 x))
    | 28 => .ok (.len284 (BitVec.ofNat 5 x))
    | 29 => .ok .len285
    | 30 => .ok .inv286
    | 31 => .ok .inv287
    | _ => .error (.literalLengthSymbol v)

/-- `D_SYM` (R78): 0..29 a distance symbol with its extra field `x`, 30 and 31 invalid. -/
def decodeDistance (v x : Nat) : Except DecodeReject Instr :=
  match v with
  | 0 => .ok .dist0
  | 1 => .ok .dist1
  | 2 => .ok .dist2
  | 3 => .ok .dist3
  | 4 => .ok (.dist4 (BitVec.ofNat 1 x))
  | 5 => .ok (.dist5 (BitVec.ofNat 1 x))
  | 6 => .ok (.dist6 (BitVec.ofNat 2 x))
  | 7 => .ok (.dist7 (BitVec.ofNat 2 x))
  | 8 => .ok (.dist8 (BitVec.ofNat 3 x))
  | 9 => .ok (.dist9 (BitVec.ofNat 3 x))
  | 10 => .ok (.dist10 (BitVec.ofNat 4 x))
  | 11 => .ok (.dist11 (BitVec.ofNat 4 x))
  | 12 => .ok (.dist12 (BitVec.ofNat 5 x))
  | 13 => .ok (.dist13 (BitVec.ofNat 5 x))
  | 14 => .ok (.dist14 (BitVec.ofNat 6 x))
  | 15 => .ok (.dist15 (BitVec.ofNat 6 x))
  | 16 => .ok (.dist16 (BitVec.ofNat 7 x))
  | 17 => .ok (.dist17 (BitVec.ofNat 7 x))
  | 18 => .ok (.dist18 (BitVec.ofNat 8 x))
  | 19 => .ok (.dist19 (BitVec.ofNat 8 x))
  | 20 => .ok (.dist20 (BitVec.ofNat 9 x))
  | 21 => .ok (.dist21 (BitVec.ofNat 9 x))
  | 22 => .ok (.dist22 (BitVec.ofNat 10 x))
  | 23 => .ok (.dist23 (BitVec.ofNat 10 x))
  | 24 => .ok (.dist24 (BitVec.ofNat 11 x))
  | 25 => .ok (.dist25 (BitVec.ofNat 11 x))
  | 26 => .ok (.dist26 (BitVec.ofNat 12 x))
  | 27 => .ok (.dist27 (BitVec.ofNat 12 x))
  | 28 => .ok (.dist28 (BitVec.ofNat 13 x))
  | 29 => .ok (.dist29 (BitVec.ofNat 13 x))
  | 30 => .ok .invD30
  | 31 => .ok .invD31
  | _ => .error (.distanceSymbol v)

/-- The instruction a value `v` of space `sp` selects, with extra field `x` (R77). -/
def decodeElement (sp : Space) (v x : Nat) : Except DecodeReject Instr :=
  match sp with
  | .hdr => decodeHeader v
  | .clSym => decodeCodeLength v x
  | .llSym => decodeLiteralLength v x
  | .dSym => decodeDistance v x

/-- The width of the extra-bit field after a symbol's code (R74); a block header has none. -/
def extraWidth (sp : Space) (v : Nat) : Nat :=
  match sp with
  | .hdr => 0
  | .clSym => clExtra v
  | .llSym => lengthExtra v
  | .dSym => distExtra v

/-- The longest code of a space's table (R10). -/
def spaceMaxBits (sp : Space) : Nat :=
  match sp with
  | .clSym => Config.clMaxBits
  | _ => Config.maxBits

/-- `F_HDR` from the stream: `ReadBits(1)`, `ReadBits(2)` (R195). -/
def readHeader (bs : BitStream) : Read Nat :=
  match bs.readBits 1 with
  | .raise k bs' => .raise k bs'
  | .ok f bs' =>
    match bs'.readBits 2 with
    | .raise k bs'' => .raise k bs''
    | .ok t bs'' => .ok (f + 2 * t) bs''

/-- The selecting value of the next element: the header value, or the symbol `DecodeSymbol` gives (R77). -/
def readValue (sp : Space) (t : CodeTable) (bs : BitStream) : Read Nat :=
  match sp with
  | .hdr => readHeader bs
  | _ => decodeSymbol t (spaceMaxBits sp) bs

/-- The decoder over a stream: one element, its value and then its extra-bit field (R74). -/
def decode (sp : Space) (t : CodeTable) (bs : BitStream) : Read (Except DecodeReject Instr) :=
  match readValue sp t bs with
  | .raise k bs' => .raise k bs'
  | .ok v bs' =>
    match bs'.readBits (extraWidth sp v) with
    | .raise k bs'' => .raise k bs''
    | .ok x bs'' => .ok (decodeElement sp v x) bs''

/-! ## The encoder -/

/-- The space an instruction belongs to (R77). -/
def opSpace (i : Instr) : Space :=
  match i with
  | .blkStored _ | .blkFixed _ | .blkDynamic _ | .blkReserved _ => .hdr
  | .clLen _ | .clRep16 _ | .clZero17 _ | .clZero18 _ => .clSym
  | .lit _ | .eob
  | .len257 | .len258 | .len259 | .len260 | .len261 | .len262 | .len263 | .len264
  | .len265 _ | .len266 _ | .len267 _ | .len268 _ | .len269 _ | .len270 _ | .len271 _ | .len272 _
  | .len273 _ | .len274 _ | .len275 _ | .len276 _ | .len277 _ | .len278 _ | .len279 _ | .len280 _
  | .len281 _ | .len282 _ | .len283 _ | .len284 _ | .len285 | .inv286 | .inv287 => .llSym
  | .dist0 | .dist1 | .dist2 | .dist3 | .dist4 _ | .dist5 _ | .dist6 _ | .dist7 _
  | .dist8 _ | .dist9 _ | .dist10 _ | .dist11 _ | .dist12 _ | .dist13 _ | .dist14 _ | .dist15 _
  | .dist16 _ | .dist17 _ | .dist18 _ | .dist19 _ | .dist20 _ | .dist21 _ | .dist22 _ | .dist23 _
  | .dist24 _ | .dist25 _ | .dist26 _ | .dist27 _ | .dist28 _ | .dist29 _ | .invD30 | .invD31 => .dSym

/-- The value that selects an instruction: `H`, or its symbol (R77, opcode_table.json). -/
def opValue (i : Instr) : Nat :=
  match i with
  | .blkStored f => f.toNat
  | .blkFixed f => 2 + f.toNat
  | .blkDynamic f => 4 + f.toNat
  | .blkReserved f => 6 + f.toNat
  | .clLen n => n.toNat
  | .clRep16 _ => 16
  | .clZero17 _ => 17
  | .clZero18 _ => 18
  | .lit b => b.toNat
  | .eob => 256
  | .len257 => 257
  | .len258 => 258
  | .len259 => 259
  | .len260 => 260
  | .len261 => 261
  | .len262 => 262
  | .len263 => 263
  | .len264 => 264
  | .len265 _ => 265
  | .len266 _ => 266
  | .len267 _ => 267
  | .len268 _ => 268
  | .len269 _ => 269
  | .len270 _ => 270
  | .len271 _ => 271
  | .len272 _ => 272
  | .len273 _ => 273
  | .len274 _ => 274
  | .len275 _ => 275
  | .len276 _ => 276
  | .len277 _ => 277
  | .len278 _ => 278
  | .len279 _ => 279
  | .len280 _ => 280
  | .len281 _ => 281
  | .len282 _ => 282
  | .len283 _ => 283
  | .len284 _ => 284
  | .len285 => 285
  | .inv286 => 286
  | .inv287 => 287
  | .dist0 => 0
  | .dist1 => 1
  | .dist2 => 2
  | .dist3 => 3
  | .dist4 _ => 4
  | .dist5 _ => 5
  | .dist6 _ => 6
  | .dist7 _ => 7
  | .dist8 _ => 8
  | .dist9 _ => 9
  | .dist10 _ => 10
  | .dist11 _ => 11
  | .dist12 _ => 12
  | .dist13 _ => 13
  | .dist14 _ => 14
  | .dist15 _ => 15
  | .dist16 _ => 16
  | .dist17 _ => 17
  | .dist18 _ => 18
  | .dist19 _ => 19
  | .dist20 _ => 20
  | .dist21 _ => 21
  | .dist22 _ => 22
  | .dist23 _ => 23
  | .dist24 _ => 24
  | .dist25 _ => 25
  | .dist26 _ => 26
  | .dist27 _ => 27
  | .dist28 _ => 28
  | .dist29 _ => 29
  | .invD30 => 30
  | .invD31 => 31

/-- The extra-bit field of an instruction; 0 where it has none (R74). -/
def opExtra (i : Instr) : Nat :=
  match i with
  | .clRep16 x => x.toNat
  | .clZero17 x => x.toNat
  | .clZero18 x => x.toNat
  | .len265 x => x.toNat
  | .len266 x => x.toNat
  | .len267 x => x.toNat
  | .len268 x => x.toNat
  | .len269 x => x.toNat
  | .len270 x => x.toNat
  | .len271 x => x.toNat
  | .len272 x => x.toNat
  | .len273 x => x.toNat
  | .len274 x => x.toNat
  | .len275 x => x.toNat
  | .len276 x => x.toNat
  | .len277 x => x.toNat
  | .len278 x => x.toNat
  | .len279 x => x.toNat
  | .len280 x => x.toNat
  | .len281 x => x.toNat
  | .len282 x => x.toNat
  | .len283 x => x.toNat
  | .len284 x => x.toNat
  | .dist4 x => x.toNat
  | .dist5 x => x.toNat
  | .dist6 x => x.toNat
  | .dist7 x => x.toNat
  | .dist8 x => x.toNat
  | .dist9 x => x.toNat
  | .dist10 x => x.toNat
  | .dist11 x => x.toNat
  | .dist12 x => x.toNat
  | .dist13 x => x.toNat
  | .dist14 x => x.toNat
  | .dist15 x => x.toNat
  | .dist16 x => x.toNat
  | .dist17 x => x.toNat
  | .dist18 x => x.toNat
  | .dist19 x => x.toNat
  | .dist20 x => x.toNat
  | .dist21 x => x.toNat
  | .dist22 x => x.toNat
  | .dist23 x => x.toNat
  | .dist24 x => x.toNat
  | .dist25 x => x.toNat
  | .dist26 x => x.toNat
  | .dist27 x => x.toNat
  | .dist28 x => x.toNat
  | .dist29 x => x.toNat
  | .blkStored _ | .blkFixed _ | .blkDynamic _ | .blkReserved _ | .clLen _ | .lit _ | .eob
  | .len257 | .len258 | .len259 | .len260 | .len261 | .len262 | .len263 | .len264
  | .len285 | .inv286 | .inv287 | .dist0 | .dist1 | .dist2 | .dist3 | .invD30
  | .invD31 => 0

/-- The bits of an instruction in read order: a header as `H` bit 0 first (R70); otherwise its symbol's code in table
`t`, most significant bit first (R96), then its extra-bit field, bit 0 first (R56). A symbol without a code in `t` has
no encoding (R93) and gives no code bits. -/
def encode (t : CodeTable) (i : Instr) : List Bool :=
  match opSpace i with
  | .hdr => fieldBits 3 (opValue i)
  | sp =>
    (match t.entryOf (opValue i) with
      | some e => codeBits e.len e.code
      | none => [])
    ++ fieldBits (extraWidth sp (opValue i)) (opExtra i)

/-! ## The opcode table's words

`spec/opcode_table.json` numbers the bits of a row's selecting value. A value alone does not name its space (R77), so
a bare word is read as the first row of the table, in the table's order and of that width, that the word equals with
every operand bit 0; where there is none, as the first row whose mask and match it meets. Log entry 7. -/

/-- One row of opcode_table.json: its space, `match`, `mask` and the number of bits the table gives it, in bytes. -/
structure OpRow where
  space  : Space
  value  : Nat
  mask   : Nat
  nbits  : Nat
deriving DecidableEq, Repr

/-- The rows of opcode_table.json in the table's order. -/
def opRows : List OpRow :=
  [⟨.hdr, 0, 6, 8⟩, ⟨.hdr, 2, 6, 8⟩, ⟨.hdr, 4, 6, 8⟩, ⟨.hdr, 6, 6, 8⟩] ++
  [⟨.clSym, 0, 16, 8⟩, ⟨.clSym, 16, 31, 8⟩, ⟨.clSym, 17, 31, 8⟩, ⟨.clSym, 18, 31, 8⟩] ++
  [⟨.llSym, 0, 256, 16⟩] ++
  (List.range 32).map (fun j => ⟨.llSym, 256 + j, 511, 16⟩) ++
  (List.range 32).map (fun d => ⟨.dSym, d, 31, if 18 ≤ d ∧ d < 30 then 16 else 8⟩)

/-- The width of a space's selecting value (R77). -/
def spaceWidth (sp : Space) : Nat :=
  match sp with
  | .hdr => 3
  | .clSym => 5
  | .llSym => 9
  | .dSym => 5

/-- Value `w` selects row `r`: `w & mask = match`, inside the space's width (R77). -/
def OpRow.selects (r : OpRow) (w : Nat) : Bool := w &&& r.mask == r.value && w >>> spaceWidth r.space == 0

/-- The row a bare table word is read as (log entry 7). -/
def rowOfTableWord (nbits w : Nat) : Option OpRow :=
  match opRows.find? fun r => r.nbits == nbits && r.value == w with
  | some r => some r
  | none => opRows.find? fun r => r.nbits == nbits && r.selects w

/-- The instruction the decoder reads from a table word, its extra-bit field 0. -/
def decodeTableWord (nbits w : Nat) : Option Instr :=
  match rowOfTableWord nbits w with
  | none => none
  | some r =>
    match decodeElement r.space w 0 with
    | .ok i => some i
    | .error _ => none

end Sys2Proof
end

