-- ==== Sys2Proof/WellFormed.lean ====
section
/-! DEFINITION. When an instruction can stand in a stream: the operand ranges are the types of Syntax, and a
Huffman-coded instruction needs a code. A symbol whose length is 0 in the current code-length array gets no code
(spec/41_huffman.md R89, R93), so no stream holds it. -/

namespace Sys2Proof

/-- The code-length arrays an instruction's code is taken from (spec/10_state.md R31, R33). -/
structure CodeLens where
  cl   : List Nat
  lit  : List Nat
  dist : List Nat
deriving DecidableEq, Repr

/-- The array of a space; a block header is not Huffman-coded. -/
def CodeLens.of (c : CodeLens) (sp : Space) : List Nat :=
  match sp with
  | .hdr => []
  | .clSym => c.cl
  | .llSym => c.lit
  | .dSym => c.dist

/-- Instruction `i` has an encoding under the arrays `c`: a header always, a symbol when its length is not 0 (R93). -/
def wellFormed (c : CodeLens) (i : Instr) : Bool :=
  match opSpace i with
  | .hdr => true
  | sp => (c.of sp).getD (opValue i) 0 != 0

end Sys2Proof
end

