-- ==== Sys2Proof/Machine/State.lean ====
section
/-! DEFINITION. The state of HZIP-CORE as plain data (spec/10_state.md): every element of R25 to R41, what the host
fixes for a session (R13, R14), and the reasons a step can stop. -/

namespace Sys2Proof.Machine

/-- The phases (R27, R193). -/
inductive Phase where
  | idle
  | hdr
  | storedLen
  | storedCopy
  | dynCounts
  | dynClLen
  | dynLens
  | sym
  | dist
  | copy
  | checkFinal
  | done
  | error
deriving DecidableEq, Repr

/-- Why a step stops in a state no session reaches: each is a bug of a model that gets there (R51, U16), and no state
that meets `Inv` raises one. All are safe: the machine stops instead of going on. -/
inductive Fault where
  /-- A copy step would read `OUT` at or past `out_len`, or before address 0 (R51). Raised by the copy step. Safe. -/
  | outReadPastEnd
  /-- A copy step with `copy_rem = 0`, which counts down to 0 and never below (R192). Raised by the copy step. Safe. -/
  | copyCountZero
  /-- A Stored copy step with `stored_rem = 0` (R201). Raised by the Stored copy step. Safe. -/
  | storedCountZero
  /-- A code-length value step with `cl_idx` past the permutation's 19 entries (R111). Raised by that step. Safe. -/
  | clIndexPastOrder
  /-- A code-length symbol 0..15 with `len_idx` at or past `total` (R112). Raised by `CL_LEN`. Safe. -/
  | lensIndexPastTotal
  /-- A symbol step whose code lengths over-subscribe: a table is only used after its `Build` succeeded (R33). Raised
  by the fetch of a symbol. Safe. -/
  | tableNotBuilt
deriving DecidableEq, Repr

/-- Why the model gives no next state where the machine itself does not stop. -/
inductive Refusal where
  /-- An instruction without a meaning in this model, by its mnemonic. Raised by `exec`. Safe. -/
  | notModelled (mnemonic : String)
  /-- The decoder rejects a value outside its space. `DecodeSymbol` never returns one. Raised by the step. Safe. -/
  | undecodable (r : DecodeReject)
deriving DecidableEq, Repr

/-- The machine's state. `stream` is the input source with the cursor `pc` (R14, R25); `out` and `outLen` the output
window (R36); `outCap` is `OUT_CAP`, `none` for infinity (R13); `freeTick` is the model's own counter for free values
(log entries 3, 4); every other field carries the spec's name for it (INVENTORY.md lists them). -/
structure State where
  phase      : Phase
  stream     : BitStream
  bfinal     : Bool
  btype      : BitVec 2
  storedRem  : BitVec 16
  hlit       : BitVec 5
  hdist      : BitVec 5
  hclen      : BitVec 4
  clLen      : Vector (BitVec 3) 19
  clIdx      : BitVec 5
  lens       : Vector CodeLen 320
  lenIdx     : BitVec 9
  litLens    : Vector CodeLen 288
  distLens   : Vector CodeLen 32
  matchLen   : BitVec 9
  matchDist  : BitVec 16
  copyRem    : BitVec 9
  out        : Memory
  outLen     : Nat
  errCode    : BitVec 4
  inConsumed : Nat
  outCap     : Option Nat
  freeTick   : Nat
deriving DecidableEq, Repr

/-- What a step or a host action answers. -/
abbrev Result := Host.Outcome State Fault Refusal

/-- The state after reset (R45, R232), with nothing presented by the host yet (log entry 2). -/
def State.reset : State where
  phase := .idle
  stream := { bytes := [], len := 0, srcEnd := .eof, inPos := 0, bitOff := 0 }
  bfinal := false
  btype := 0
  storedRem := 0
  hlit := 0
  hdist := 0
  hclen := 0
  clLen := Vector.replicate 19 0
  clIdx := 0
  lens := Vector.replicate 320 0
  lenIdx := 0
  litLens := Vector.replicate 288 0
  distLens := Vector.replicate 32 0
  matchLen := 0
  matchDist := 0
  copyRem := 0
  out := []
  outLen := 0
  errCode := 0
  inConsumed := 0
  outCap := none
  freeTick := 0

end Sys2Proof.Machine
end

