-- ==== Sys2Proof/Machine/Flags.lean ====
section
/-! DEFINITION. The host-visible status flags and registers, computed from the state (spec/10_state.md R38 to R41). -/

namespace Sys2Proof.Machine

/-- `STATUS.BUSY`: neither `IDLE`, `DONE` nor `ERROR` (R38). -/
def busy (s : State) : Bool :=
  match s.phase with
  | .idle | .done | .error => false
  | .hdr | .storedLen | .storedCopy | .dynCounts | .dynClLen | .dynLens | .sym | .dist | .copy | .checkFinal => true

/-- `STATUS.DONE` (R38). -/
def isDone (s : State) : Bool := s.phase == .done

/-- `STATUS.ERROR` (R38). -/
def isError (s : State) : Bool := s.phase == .error

/-- `STATUS`: bit 0 `BUSY`, bit 1 `DONE`, bit 2 `ERROR`, bit 3 reads 0, bits 7:4 `ERR_CODE` (R38). -/
def statusReg (s : State) : BitVec 8 :=
  s.errCode ++ 0#1 ++ BitVec.ofBool (isError s) ++ BitVec.ofBool (isDone s) ++ BitVec.ofBool (busy s)

/-- `OUT_COUNT`: `out_len mod 2^32` (R40, R16). -/
def outCount (s : State) : BitVec 32 := BitVec.ofNat 32 s.outLen

end Sys2Proof.Machine
end

