-- ==== Sys2Proof/Machine/Operands.lean ====
section
/-! DEFINITION. Operand assembly (spec/30_encoding.md R76): every operand is an unsigned field value, zero-extended,
never sign-extended or scaled. -/

namespace Sys2Proof.Machine

/-- The number of literal/length code lengths, `HLIT + 257` (R76). -/
def litCount (s : State) : Nat := s.hlit.toNat + 257

/-- The number of distance code lengths, `HDIST + 1` (R76). -/
def distCount (s : State) : Nat := s.hdist.toNat + 1

/-- The number of code-length code lengths, `HCLEN + 4` (R76). -/
def clCount (s : State) : Nat := s.hclen.toNat + 4

/-- `total = hlit + 257 + hdist + 1`, the entries of the combined array (43_dynamic_header.md). -/
def total (s : State) : Nat := litCount s + distCount s

/-- The repeat count of symbol 16, `3 + ReadBits(2)` (R76). -/
def repeatCount (x : BitVec 2) : Nat := 3 + x.toNat

/-- The zero run of symbol 17, `3 + ReadBits(3)` (R76). -/
def shortZeroRun (x : BitVec 3) : Nat := 3 + x.toNat

/-- The zero run of symbol 18, `11 + ReadBits(7)` (R76). -/
def longZeroRun (x : BitVec 7) : Nat := 11 + x.toNat

/-- The match length `LBASE[s] + x` of length symbol `s` with extra value `x` (R76). -/
def matchLength (s x : Nat) : Nat := lengthBase s + x

/-- The match distance `DBASE[d] + x` of distance symbol `d` with extra value `x` (R76). -/
def matchDistance (d x : Nat) : Nat := distBase d + x

/-- The Stored length check `NLEN = LEN xor 0xFFFF` (R76). -/
def storedLengthsAgree (len nlen : Nat) : Bool := nlen == len ^^^ 0xFFFF

end Sys2Proof.Machine
end

