-- ==== Sys2Proof/Machine/Ops.lean ====
section
/-! DEFINITION. The operations the steps share: raising an error, the output window, the code-length arrays and the
tables built from them, session start and reset. -/

namespace Sys2Proof.Machine

/-! ## Errors (spec/60_exceptions.md) -/

/-- The 4-bit code of an error kind (R208). -/
def errorCode (k : ErrKind) : BitVec 4 :=
  match k with
  | .truncatedStream => 1
  | .reservedBlockType => 2
  | .storedLengthMismatch => 3
  | .malformedCodeLengths => 4
  | .malformedDynamicHeader => 5
  | .invalidHuffmanCode => 6
  | .invalidBackReference => 7
  | .sourceError => 8
  | .outputOverflow => 9

/-- `raise K` (R218): `err_code <- code(K)`, `phase <- ERROR`, and nothing else. There is no handler and no return
(R223): the way out of `ERROR` is `startSession` or `resetCore`. -/
def raiseError (k : ErrKind) (s : State) : State := { s with errCode := errorCode k, phase := .error }

/-! ## The output window (spec/20_memory.md) -/

/-- `MemWrite(OUT, out_len, 1, b)` (R50): append, or `OutputOverflow` with nothing written when `out_len = OUT_CAP`. -/
def outWrite (b : Byte) (s : State) : Except ErrKind State :=
  if s.outCap = some s.outLen then .error .outputOverflow
  else .ok { s with out := s.out.write s.outLen b, outLen := s.outLen + 1 }

/-- `MemRead(OUT, a, 1)` (R51): `out[a]`, or nothing at or past `out_len`. -/
def outRead (a : Nat) (s : State) : Option Byte := if a < s.outLen then some (s.out.read a) else none

/-- The whole output, `out[0 .. out_len-1]` (R42). -/
def outBytes (s : State) : List Byte := s.out.toBytes s.outLen

/-! ## Code-length arrays and tables (spec/10_state.md R31 to R33) -/

/-- A code-length array as naturals, symbol 0 first (R89). -/
def natLens {n w : Nat} (v : Vector (BitVec w) n) : List Nat := v.toList.map BitVec.toNat

/-- The first `n` entries of `l`, with 0 for the entries it does not give. -/
def padLens (n : Nat) (l : List CodeLen) : Vector CodeLen n :=
  ⟨((l ++ List.replicate n 0).take n).toArray, by simp⟩

/-- `cl_tab = Build(cl_len, 7)` (R33). -/
def clTable (s : State) : Option CodeTable := buildTable (natLens s.clLen) Config.clMaxBits

/-- `lit_tab = Build(lit_lens, 15)` (R33). -/
def litTable (s : State) : Option CodeTable := buildTable (natLens s.litLens) Config.maxBits

/-- `dist_tab = Build(dist_lens, 15)` (R33). -/
def distTable (s : State) : Option CodeTable := buildTable (natLens s.distLens) Config.maxBits

/-- The code-length arrays of the state, for `wellFormed`. -/
def codeLens (s : State) : CodeLens :=
  { cl := natLens s.clLen, lit := natLens s.litLens, dist := natLens s.distLens }

/-- The fixed-table load (R107). -/
def loadFixed (s : State) : State :=
  { s with litLens := padLens 288 fixedLit, distLens := padLens 32 fixedDist }

/-- `for k in 1 .. n: lens[i] <- v; i <- i + 1` (R113, R114, R115). -/
def writeRun (v : CodeLen) : Nat → Nat → Vector CodeLen 320 → Vector CodeLen 320
  | 0, _, lens => lens
  | n + 1, i, lens => writeRun v n (i + 1) (lens.setIfInBounds i v)

/-- Append `n` entries of value `v` to the combined array. -/
def appendLens (n : Nat) (v : CodeLen) (s : State) : State :=
  { s with lens := writeRun v n s.lenIdx.toNat s.lens, lenIdx := s.lenIdx + BitVec.ofNat 9 n }

/-- The last entry written, `lens[len_idx - 1]` (R113). -/
def prevLen (s : State) : CodeLen := s.lens.toList.getD (s.lenIdx.toNat - 1) 0

/-- The loads of header completion (R118): the first `hlit + 257` entries are the literal/length array, the next
`hdist + 1` the distance array. -/
def splitLens (s : State) : State :=
  { s with litLens := padLens 288 (s.lens.toList.take (litCount s)),
           distLens := padLens 32 ((s.lens.toList.drop (litCount s)).take (distCount s)) }

/-- Header completion (R118): load both arrays, build the literal/length table and then the distance table. -/
def finishHeader (s : State) : State :=
  match litTable (splitLens s) with
  | none => raiseError .malformedCodeLengths (splitLens s)
  | some _ =>
    match distTable (splitLens s) with
    | none => raiseError .malformedCodeLengths (splitLens s)
    | some _ => { splitLens s with phase := .sym }

/-- The end of every `DYN_LENS` step: `if len_idx = total: R118` (43_dynamic_header.md section 2). -/
def endLensStep (s : State) : State := if s.lenIdx.toNat = total s then finishHeader s else s

/-- A run of `n` entries of value `v` (R113 to R116): `MalformedDynamicHeader`, with nothing written, past `total`. -/
def lensRun (n : Nat) (v : CodeLen) (s : State) : State :=
  if total s < s.lenIdx.toNat + n then raiseError .malformedDynamicHeader s
  else endLensStep (appendLens n v s)

/-! ## Symbols (spec/44_symbol_decoder.md) -/

/-- A length symbol's effect: `match_len <- LBASE[s] + x; phase <- DIST` (section 3). -/
def lengthSymbol (sym x : Nat) (s : State) : State :=
  { s with matchLen := BitVec.ofNat 9 (matchLength sym x), phase := .dist }

/-- A distance symbol's effect (R156): `match_dist <- DBASE[d] + x`, the check of R159, then
`copy_rem <- match_len; phase <- COPY`. -/
def distanceSymbol (d x : Nat) (s : State) : State :=
  if s.outLen < matchDistance d x then
    raiseError .invalidBackReference { s with matchDist := BitVec.ofNat 16 (matchDistance d x) }
  else { s with matchDist := BitVec.ofNat 16 (matchDistance d x), copyRem := s.matchLen, phase := .copy }

/-- A block header's writes: `bfinal`, `btype` (R195). -/
def headerWrites (f : Bool) (t : BitVec 2) (s : State) : State := { s with bfinal := f, btype := t }

/-! ## Session start and reset (spec/70_reset_and_hazards.md) -/

/-- Every element at its "after reset" value (R45, R232); the host's input and parameters are not touched. -/
def resetCore (s : State) : State :=
  { State.reset with
    stream := { s.stream with inPos := 0, bitOff := 0 }
    outCap := s.outCap
    freeTick := s.freeTick }

/-- Every element at its "after start" value (R45, R234). -/
def startSession (s : State) : State := { resetCore s with phase := .hdr }

end Sys2Proof.Machine
end

