-- ==== Sys2Proof/Machine/Block.lean ====
section
/-! DEFINITION. The block headers `BLK_*` (spec/45_block_dispatcher.md R195 to R199). The fetch has read the three
header bits; each meaning writes `bfinal` and `btype` and does what its type's rule says. -/

namespace Sys2Proof.Machine

/-- `BLK_STORED` (R195, R196): `phase <- STORED_LEN`. -/
def execBlkStored (f : Bool) (s : State) : Result := .next { headerWrites f 0 s with phase := .storedLen }

/-- `BLK_FIXED` (R195, R197): load the fixed tables (R107), then `phase <- SYM`. -/
def execBlkFixed (f : Bool) (s : State) : Result := .next { loadFixed (headerWrites f 1 s) with phase := .sym }

/-- `BLK_DYNAMIC` (R195, R198): `phase <- DYN_COUNTS`. -/
def execBlkDynamic (f : Bool) (s : State) : Result := .next { headerWrites f 2 s with phase := .dynCounts }

/-- `BLK_RESERVED` (R195, R199): `raise ReservedBlockType`. The writes before the raise stay (R218); log entry 6 on
what `btype` then holds. -/
def execBlkReserved (f : Bool) (s : State) : Result := .next (raiseError .reservedBlockType (headerWrites f 3 s))

end Sys2Proof.Machine
end

