-- ==== Sys2Proof/Machine/CodeLength.lean ====
section
/-! DEFINITION. The code-length symbols `CL_*` of a dynamic header (spec/43_dynamic_header.md R112 to R118). The fetch
has read the symbol and its extra bits (R113: the extra bits are read before either check). -/

namespace Sys2Proof.Machine

/-- `CL_LEN` (R112): `lens[len_idx] <- sym`, and the end of the step. It runs only while `len_idx < total`. -/
def execClLen (n : BitVec 4) (s : State) : Result :=
  if s.lenIdx.toNat < total s then .next (endLensStep (appendLens 1 n s)) else .fault .lensIndexPastTotal

/-- `CL_REP16` (R113): repeat the previous entry; `MalformedDynamicHeader` when there is none. -/
def execClRep16 (x : BitVec 2) (s : State) : Result :=
  if s.lenIdx = 0 then .next (raiseError .malformedDynamicHeader s)
  else .next (lensRun (repeatCount x) (prevLen s) s)

/-- `CL_ZERO17` (R114): a short zero run. -/
def execClZero17 (x : BitVec 3) (s : State) : Result := .next (lensRun (shortZeroRun x) 0 s)

/-- `CL_ZERO18` (R115): a long zero run. -/
def execClZero18 (x : BitVec 7) (s : State) : Result := .next (lensRun (longZeroRun x) 0 s)

end Sys2Proof.Machine
end

