-- ==== Sys2Proof/Machine/Distance.lean ====
section
/-! DEFINITION. The distance symbols `DIST_0` .. `DIST_29` and the invalid symbols 30 and 31
(spec/44_symbol_decoder.md R156 to R189). The fetch has read the symbol and its extra bits; each meaning is the
`match_dist` line of its rule over `distanceSymbol`, which applies the check of R159 and enters `COPY`. -/

namespace Sys2Proof.Machine

/-- `DIST_0` (R160): `match_dist <- 1`. -/
def execDist0 (s : State) : Result := .next (distanceSymbol 0 0 s)

/-- `DIST_1` (R161): `match_dist <- 2`. -/
def execDist1 (s : State) : Result := .next (distanceSymbol 1 0 s)

/-- `DIST_2` (R162): `match_dist <- 3`. -/
def execDist2 (s : State) : Result := .next (distanceSymbol 2 0 s)

/-- `DIST_3` (R163): `match_dist <- 4`. -/
def execDist3 (s : State) : Result := .next (distanceSymbol 3 0 s)

/-- `DIST_4` (R164): `match_dist <- 5 + ReadBits(1)`. -/
def execDist4 (x : BitVec 1) (s : State) : Result := .next (distanceSymbol 4 x.toNat s)

/-- `DIST_5` (R165): `match_dist <- 7 + ReadBits(1)`. -/
def execDist5 (x : BitVec 1) (s : State) : Result := .next (distanceSymbol 5 x.toNat s)

/-- `DIST_6` (R166): `match_dist <- 9 + ReadBits(2)`. -/
def execDist6 (x : BitVec 2) (s : State) : Result := .next (distanceSymbol 6 x.toNat s)

/-- `DIST_7` (R167): `match_dist <- 13 + ReadBits(2)`. -/
def execDist7 (x : BitVec 2) (s : State) : Result := .next (distanceSymbol 7 x.toNat s)

/-- `DIST_8` (R168): `match_dist <- 17 + ReadBits(3)`. -/
def execDist8 (x : BitVec 3) (s : State) : Result := .next (distanceSymbol 8 x.toNat s)

/-- `DIST_9` (R169): `match_dist <- 25 + ReadBits(3)`. -/
def execDist9 (x : BitVec 3) (s : State) : Result := .next (distanceSymbol 9 x.toNat s)

/-- `DIST_10` (R170): `match_dist <- 33 + ReadBits(4)`. -/
def execDist10 (x : BitVec 4) (s : State) : Result := .next (distanceSymbol 10 x.toNat s)

/-- `DIST_11` (R171): `match_dist <- 49 + ReadBits(4)`. -/
def execDist11 (x : BitVec 4) (s : State) : Result := .next (distanceSymbol 11 x.toNat s)

/-- `DIST_12` (R172): `match_dist <- 65 + ReadBits(5)`. -/
def execDist12 (x : BitVec 5) (s : State) : Result := .next (distanceSymbol 12 x.toNat s)

/-- `DIST_13` (R173): `match_dist <- 97 + ReadBits(5)`. -/
def execDist13 (x : BitVec 5) (s : State) : Result := .next (distanceSymbol 13 x.toNat s)

/-- `DIST_14` (R174): `match_dist <- 129 + ReadBits(6)`. -/
def execDist14 (x : BitVec 6) (s : State) : Result := .next (distanceSymbol 14 x.toNat s)

/-- `DIST_15` (R175): `match_dist <- 193 + ReadBits(6)`. -/
def execDist15 (x : BitVec 6) (s : State) : Result := .next (distanceSymbol 15 x.toNat s)

/-- `DIST_16` (R176): `match_dist <- 257 + ReadBits(7)`. -/
def execDist16 (x : BitVec 7) (s : State) : Result := .next (distanceSymbol 16 x.toNat s)

/-- `DIST_17` (R177): `match_dist <- 385 + ReadBits(7)`. -/
def execDist17 (x : BitVec 7) (s : State) : Result := .next (distanceSymbol 17 x.toNat s)

/-- `DIST_18` (R178): `match_dist <- 513 + ReadBits(8)`. -/
def execDist18 (x : BitVec 8) (s : State) : Result := .next (distanceSymbol 18 x.toNat s)

/-- `DIST_19` (R179): `match_dist <- 769 + ReadBits(8)`. -/
def execDist19 (x : BitVec 8) (s : State) : Result := .next (distanceSymbol 19 x.toNat s)

/-- `DIST_20` (R180): `match_dist <- 1025 + ReadBits(9)`. -/
def execDist20 (x : BitVec 9) (s : State) : Result := .next (distanceSymbol 20 x.toNat s)

/-- `DIST_21` (R181): `match_dist <- 1537 + ReadBits(9)`. -/
def execDist21 (x : BitVec 9) (s : State) : Result := .next (distanceSymbol 21 x.toNat s)

/-- `DIST_22` (R182): `match_dist <- 2049 + ReadBits(10)`. -/
def execDist22 (x : BitVec 10) (s : State) : Result := .next (distanceSymbol 22 x.toNat s)

/-- `DIST_23` (R183): `match_dist <- 3073 + ReadBits(10)`. -/
def execDist23 (x : BitVec 10) (s : State) : Result := .next (distanceSymbol 23 x.toNat s)

/-- `DIST_24` (R184): `match_dist <- 4097 + ReadBits(11)`. -/
def execDist24 (x : BitVec 11) (s : State) : Result := .next (distanceSymbol 24 x.toNat s)

/-- `DIST_25` (R185): `match_dist <- 6145 + ReadBits(11)`. -/
def execDist25 (x : BitVec 11) (s : State) : Result := .next (distanceSymbol 25 x.toNat s)

/-- `DIST_26` (R186): `match_dist <- 8193 + ReadBits(12)`. -/
def execDist26 (x : BitVec 12) (s : State) : Result := .next (distanceSymbol 26 x.toNat s)

/-- `DIST_27` (R187): `match_dist <- 12289 + ReadBits(12)`. -/
def execDist27 (x : BitVec 12) (s : State) : Result := .next (distanceSymbol 27 x.toNat s)

/-- `DIST_28` (R188): `match_dist <- 16385 + ReadBits(13)`. -/
def execDist28 (x : BitVec 13) (s : State) : Result := .next (distanceSymbol 28 x.toNat s)

/-- `DIST_29` (R189): `match_dist <- 24577 + ReadBits(13)`. -/
def execDist29 (x : BitVec 13) (s : State) : Result := .next (distanceSymbol 29 x.toNat s)

/-- `INV_D30` (R158): `raise InvalidHuffmanCode`. -/
def execInvD30 (s : State) : Result := .next (raiseError .invalidHuffmanCode s)

/-- `INV_D31` (R158): `raise InvalidHuffmanCode`. -/
def execInvD31 (s : State) : Result := .next (raiseError .invalidHuffmanCode s)

end Sys2Proof.Machine
end

