-- ==== Sys2Proof/Machine/Length.lean ====
section
/-! DEFINITION. The length symbols `LEN_257` .. `LEN_285` (spec/44_symbol_decoder.md R124 to R153). The fetch has read
the symbol and its extra bits; each meaning is the one line of its rule over `lengthSymbol`. -/

namespace Sys2Proof.Machine

/-- `LEN_257` (R125): `match_len <- 3; phase <- DIST`. -/
def execLen257 (s : State) : Result := .next (lengthSymbol 257 0 s)

/-- `LEN_258` (R126): `match_len <- 4; phase <- DIST`. -/
def execLen258 (s : State) : Result := .next (lengthSymbol 258 0 s)

/-- `LEN_259` (R127): `match_len <- 5; phase <- DIST`. -/
def execLen259 (s : State) : Result := .next (lengthSymbol 259 0 s)

/-- `LEN_260` (R128): `match_len <- 6; phase <- DIST`. -/
def execLen260 (s : State) : Result := .next (lengthSymbol 260 0 s)

/-- `LEN_261` (R129): `match_len <- 7; phase <- DIST`. -/
def execLen261 (s : State) : Result := .next (lengthSymbol 261 0 s)

/-- `LEN_262` (R130): `match_len <- 8; phase <- DIST`. -/
def execLen262 (s : State) : Result := .next (lengthSymbol 262 0 s)

/-- `LEN_263` (R131): `match_len <- 9; phase <- DIST`. -/
def execLen263 (s : State) : Result := .next (lengthSymbol 263 0 s)

/-- `LEN_264` (R132): `match_len <- 10; phase <- DIST`. -/
def execLen264 (s : State) : Result := .next (lengthSymbol 264 0 s)

/-- `LEN_265` (R133): `match_len <- 11 + ReadBits(1); phase <- DIST`. -/
def execLen265 (x : BitVec 1) (s : State) : Result := .next (lengthSymbol 265 x.toNat s)

/-- `LEN_266` (R134): `match_len <- 13 + ReadBits(1); phase <- DIST`. -/
def execLen266 (x : BitVec 1) (s : State) : Result := .next (lengthSymbol 266 x.toNat s)

/-- `LEN_267` (R135): `match_len <- 15 + ReadBits(1); phase <- DIST`. -/
def execLen267 (x : BitVec 1) (s : State) : Result := .next (lengthSymbol 267 x.toNat s)

/-- `LEN_268` (R136): `match_len <- 17 + ReadBits(1); phase <- DIST`. -/
def execLen268 (x : BitVec 1) (s : State) : Result := .next (lengthSymbol 268 x.toNat s)

/-- `LEN_269` (R137): `match_len <- 19 + ReadBits(2); phase <- DIST`. -/
def execLen269 (x : BitVec 2) (s : State) : Result := .next (lengthSymbol 269 x.toNat s)

/-- `LEN_270` (R138): `match_len <- 23 + ReadBits(2); phase <- DIST`. -/
def execLen270 (x : BitVec 2) (s : State) : Result := .next (lengthSymbol 270 x.toNat s)

/-- `LEN_271` (R139): `match_len <- 27 + ReadBits(2); phase <- DIST`. -/
def execLen271 (x : BitVec 2) (s : State) : Result := .next (lengthSymbol 271 x.toNat s)

/-- `LEN_272` (R140): `match_len <- 31 + ReadBits(2); phase <- DIST`. -/
def execLen272 (x : BitVec 2) (s : State) : Result := .next (lengthSymbol 272 x.toNat s)

/-- `LEN_273` (R141): `match_len <- 35 + ReadBits(3); phase <- DIST`. -/
def execLen273 (x : BitVec 3) (s : State) : Result := .next (lengthSymbol 273 x.toNat s)

/-- `LEN_274` (R142): `match_len <- 43 + ReadBits(3); phase <- DIST`. -/
def execLen274 (x : BitVec 3) (s : State) : Result := .next (lengthSymbol 274 x.toNat s)

/-- `LEN_275` (R143): `match_len <- 51 + ReadBits(3); phase <- DIST`. -/
def execLen275 (x : BitVec 3) (s : State) : Result := .next (lengthSymbol 275 x.toNat s)

/-- `LEN_276` (R144): `match_len <- 59 + ReadBits(3); phase <- DIST`. -/
def execLen276 (x : BitVec 3) (s : State) : Result := .next (lengthSymbol 276 x.toNat s)

/-- `LEN_277` (R145): `match_len <- 67 + ReadBits(4); phase <- DIST`. -/
def execLen277 (x : BitVec 4) (s : State) : Result := .next (lengthSymbol 277 x.toNat s)

/-- `LEN_278` (R146): `match_len <- 83 + ReadBits(4); phase <- DIST`. -/
def execLen278 (x : BitVec 4) (s : State) : Result := .next (lengthSymbol 278 x.toNat s)

/-- `LEN_279` (R147): `match_len <- 99 + ReadBits(4); phase <- DIST`. -/
def execLen279 (x : BitVec 4) (s : State) : Result := .next (lengthSymbol 279 x.toNat s)

/-- `LEN_280` (R148): `match_len <- 115 + ReadBits(4); phase <- DIST`. -/
def execLen280 (x : BitVec 4) (s : State) : Result := .next (lengthSymbol 280 x.toNat s)

/-- `LEN_281` (R149): `match_len <- 131 + ReadBits(5); phase <- DIST`. -/
def execLen281 (x : BitVec 5) (s : State) : Result := .next (lengthSymbol 281 x.toNat s)

/-- `LEN_282` (R150): `match_len <- 163 + ReadBits(5); phase <- DIST`. -/
def execLen282 (x : BitVec 5) (s : State) : Result := .next (lengthSymbol 282 x.toNat s)

/-- `LEN_283` (R151): `match_len <- 195 + ReadBits(5); phase <- DIST`. -/
def execLen283 (x : BitVec 5) (s : State) : Result := .next (lengthSymbol 283 x.toNat s)

/-- `LEN_284` (R152): `match_len <- 227 + ReadBits(5); phase <- DIST`. -/
def execLen284 (x : BitVec 5) (s : State) : Result := .next (lengthSymbol 284 x.toNat s)

/-- `LEN_285` (R153): `match_len <- 258; phase <- DIST`. -/
def execLen285 (s : State) : Result := .next (lengthSymbol 285 0 s)

end Sys2Proof.Machine
end

