-- ==== Sys2Proof/Machine/Literal.lean ====
section
/-! DEFINITION. Literals, the end-of-block symbol and the invalid literal/length symbols
(spec/44_symbol_decoder.md R122, R123, R155). -/

namespace Sys2Proof.Machine

/-- `LIT` (R122): append the byte; `OutputOverflow` at `OUT_CAP`. The phase stays `SYM`. -/
def execLit (b : Byte) (s : State) : Result :=
  match outWrite b s with
  | .error k => .next (raiseError k s)
  | .ok s' => .next s'

/-- `EOB` (R123): `phase <- CHECK_FINAL`. -/
def execEob (s : State) : Result := .next { s with phase := .checkFinal }

/-- `INV_286` (R155): `raise InvalidHuffmanCode`. -/
def execInv286 (s : State) : Result := .next (raiseError .invalidHuffmanCode s)

/-- `INV_287` (R155): `raise InvalidHuffmanCode`. -/
def execInv287 (s : State) : Result := .next (raiseError .invalidHuffmanCode s)

end Sys2Proof.Machine
end

