-- ==== Sys2Proof/Machine/Dispatch.lean ====
section
/-! DEFINITION. The dispatch: one arm per instruction, one call of its meaning. -/

namespace Sys2Proof.Machine

def exec (i : Instr) (s : State) : Host.Outcome State Fault Refusal :=
  match i with
  | .blkStored f => Sys2Proof.Machine.execBlkStored f s
  | .blkFixed f => Sys2Proof.Machine.execBlkFixed f s
  | .blkDynamic f => Sys2Proof.Machine.execBlkDynamic f s
  | .blkReserved f => Sys2Proof.Machine.execBlkReserved f s
  | .clLen n => Sys2Proof.Machine.execClLen n s
  | .clRep16 x => Sys2Proof.Machine.execClRep16 x s
  | .clZero17 x => Sys2Proof.Machine.execClZero17 x s
  | .clZero18 x => Sys2Proof.Machine.execClZero18 x s
  | .lit b => Sys2Proof.Machine.execLit b s
  | .eob => Sys2Proof.Machine.execEob s
  | .len257 => Sys2Proof.Machine.execLen257 s
  | .len258 => Sys2Proof.Machine.execLen258 s
  | .len259 => Sys2Proof.Machine.execLen259 s
  | .len260 => Sys2Proof.Machine.execLen260 s
  | .len261 => Sys2Proof.Machine.execLen261 s
  | .len262 => Sys2Proof.Machine.execLen262 s
  | .len263 => Sys2Proof.Machine.execLen263 s
  | .len264 => Sys2Proof.Machine.execLen264 s
  | .len265 x => Sys2Proof.Machine.execLen265 x s
  | .len266 x => Sys2Proof.Machine.execLen266 x s
  | .len267 x => Sys2Proof.Machine.execLen267 x s
  | .len268 x => Sys2Proof.Machine.execLen268 x s
  | .len269 x => Sys2Proof.Machine.execLen269 x s
  | .len270 x => Sys2Proof.Machine.execLen270 x s
  | .len271 x => Sys2Proof.Machine.execLen271 x s
  | .len272 x => Sys2Proof.Machine.execLen272 x s
  | .len273 x => Sys2Proof.Machine.execLen273 x s
  | .len274 x => Sys2Proof.Machine.execLen274 x s
  | .len275 x => Sys2Proof.Machine.execLen275 x s
  | .len276 x => Sys2Proof.Machine.execLen276 x s
  | .len277 x => Sys2Proof.Machine.execLen277 x s
  | .len278 x => Sys2Proof.Machine.execLen278 x s
  | .len279 x => Sys2Proof.Machine.execLen279 x s
  | .len280 x => Sys2Proof.Machine.execLen280 x s
  | .len281 x => Sys2Proof.Machine.execLen281 x s
  | .len282 x => Sys2Proof.Machine.execLen282 x s
  | .len283 x => Sys2Proof.Machine.execLen283 x s
  | .len284 x => Sys2Proof.Machine.execLen284 x s
  | .len285 => Sys2Proof.Machine.execLen285 s
  | .inv286 => Sys2Proof.Machine.execInv286 s
  | .inv287 => Sys2Proof.Machine.execInv287 s
  | .dist0 => Sys2Proof.Machine.execDist0 s
  | .dist1 => Sys2Proof.Machine.execDist1 s
  | .dist2 => Sys2Proof.Machine.execDist2 s
  | .dist3 => Sys2Proof.Machine.execDist3 s
  | .dist4 x => Sys2Proof.Machine.execDist4 x s
  | .dist5 x => Sys2Proof.Machine.execDist5 x s
  | .dist6 x => Sys2Proof.Machine.execDist6 x s
  | .dist7 x => Sys2Proof.Machine.execDist7 x s
  | .dist8 x => Sys2Proof.Machine.execDist8 x s
  | .dist9 x => Sys2Proof.Machine.execDist9 x s
  | .dist10 x => Sys2Proof.Machine.execDist10 x s
  | .dist11 x => Sys2Proof.Machine.execDist11 x s
  | .dist12 x => Sys2Proof.Machine.execDist12 x s
  | .dist13 x => Sys2Proof.Machine.execDist13 x s
  | .dist14 x => Sys2Proof.Machine.execDist14 x s
  | .dist15 x => Sys2Proof.Machine.execDist15 x s
  | .dist16 x => Sys2Proof.Machine.execDist16 x s
  | .dist17 x => Sys2Proof.Machine.execDist17 x s
  | .dist18 x => Sys2Proof.Machine.execDist18 x s
  | .dist19 x => Sys2Proof.Machine.execDist19 x s
  | .dist20 x => Sys2Proof.Machine.execDist20 x s
  | .dist21 x => Sys2Proof.Machine.execDist21 x s
  | .dist22 x => Sys2Proof.Machine.execDist22 x s
  | .dist23 x => Sys2Proof.Machine.execDist23 x s
  | .dist24 x => Sys2Proof.Machine.execDist24 x s
  | .dist25 x => Sys2Proof.Machine.execDist25 x s
  | .dist26 x => Sys2Proof.Machine.execDist26 x s
  | .dist27 x => Sys2Proof.Machine.execDist27 x s
  | .dist28 x => Sys2Proof.Machine.execDist28 x s
  | .dist29 x => Sys2Proof.Machine.execDist29 x s
  | .invD30 => Sys2Proof.Machine.execInvD30 s
  | .invD31 => Sys2Proof.Machine.execInvD31 s

end Sys2Proof.Machine
end

