-- ==== Sys2Proof/Machine/Fetch.lean ====
section
/-! DEFINITION. Fetching an instruction: the next element of the stream in a phase that decodes one
(spec/45_block_dispatcher.md R195; 43_dynamic_header.md section 2; 44_symbol_decoder.md R121, R156), and placing an
element at the cursor. -/

namespace Sys2Proof.Machine

/-- What a fetch gives: the instruction with the state whose cursor is past it; the error its reads raise, with the
state they leave; a rejected value; or a table that does not build. -/
inductive Fetch where
  | instr    (i : Instr) (s : State)
  | raised   (k : ErrKind) (s : State)
  | rejected (r : DecodeReject)
  | fault    (f : Fault)
deriving DecidableEq, Repr

/-- The code table of a space (R33); a block header uses none. -/
def spaceTable (sp : Space) (s : State) : Option CodeTable :=
  match sp with
  | .hdr => some []
  | .clSym => clTable s
  | .llSym => litTable s
  | .dSym => distTable s

/-- What a header step has written when its reads fail: `bfinal`, if its bit was there (R195, R218). -/
def headerReadSoFar (sp : Space) (s : State) : State :=
  match sp with
  | .hdr =>
    match s.stream.readBits 1 with
    | .ok f _ => { s with bfinal := f.testBit 0 }
    | .raise _ _ => s
  | .clSym | .llSym | .dSym => s

/-- Fetch one element of space `sp` at the cursor. -/
def fetch (sp : Space) (s : State) : Fetch :=
  match spaceTable sp s with
  | none => .fault .tableNotBuilt
  | some t =>
    match decode sp t s.stream with
    | .raise k bs => .raised k { headerReadSoFar sp s with stream := bs }
    | .ok (.error r) _ => .rejected r
    | .ok (.ok i) bs => .instr i { s with stream := bs }

/-! ## Placing an element at the cursor -/

/-- Byte `b` with bit `k` set to `v`. -/
def setBit (b : Byte) (k : Nat) (v : Bool) : Byte :=
  if v then b ||| (1#8 <<< k) else b &&& ~~~(1#8 <<< k)

/-- The bits `bits` written into `m` from bit position `p` on, in stream order (R18). -/
def placeBits : List Bool → Nat → Memory → Memory
  | [], _, m => m
  | v :: rest, p, m => placeBits rest (p + 1) (m.write (p / 8) (setBit (m.read (p / 8)) (p % 8) v))

/-- The stream with `bits` placed at its cursor, the input lengthened where it ends before them. -/
def BitStream.place (bits : List Bool) (bs : BitStream) : BitStream :=
  { bs with bytes := placeBits bits bs.pos bs.bytes, len := max bs.len ((bs.pos + bits.length + 7) / 8) }

/-- The phase that decodes a space's elements (R193). -/
def spacePhase (sp : Space) : Phase :=
  match sp with
  | .hdr => .hdr
  | .clSym => .dynLens
  | .llSym => .sym
  | .dSym => .dist

/-- `s` in the phase that decodes `sp`, with tables that give every symbol of `sp` a code: the fixed literal/length
lengths (R102), 32 distance lengths of 5, 19 code-length lengths of 5. Used only to place a table word. -/
def prepareFetch (sp : Space) (s : State) : State :=
  match sp with
  | .hdr => { s with phase := .hdr }
  | .clSym => { s with phase := .dynLens, clLen := Vector.replicate 19 5 }
  | .llSym => { loadFixed s with phase := .sym }
  | .dSym => { s with phase := .dist, litLens := padLens 288 fixedLit, distLens := Vector.replicate 32 5 }

/-- `s` with instruction `i` as the next element of the stream. -/
def placeInstr (i : Instr) (s : State) : State :=
  match spaceTable (opSpace i) (prepareFetch (opSpace i) s) with
  | none => s
  | some t => { prepareFetch (opSpace i) s with stream := s.stream.place (encode t i) }

end Sys2Proof.Machine
end

