-- ==== Sys2Proof/Machine/Phases.lean ====
section
/-! DEFINITION. The steps of the phases no opcode row selects (spec/45_block_dispatcher.md R193): the Stored length,
the Stored copy, the dynamic counts, one code-length value, one copied byte, the final check. -/

namespace Sys2Proof.Machine

/-- The state whose stream a failing read left at `bs`, in `ERROR` with kind `k`. -/
def readFailed (k : ErrKind) (bs : BitStream) (s : State) : Result := .next (raiseError k { s with stream := bs })

/-- Stored length step, phase `STORED_LEN` (R200). -/
def stepStoredLen (s : State) : Result :=
  match s.stream.align.readBits 16 with
  | .raise k bs => readFailed k bs s
  | .ok len bs =>
    match bs.readBits 16 with
    | .raise k bs' => readFailed k bs' s
    | .ok nlen bs' =>
      if storedLengthsAgree len nlen then
        .next { s with stream := bs', storedRem := BitVec.ofNat 16 len,
                       phase := if len = 0 then .checkFinal else .storedCopy }
      else .next (raiseError .storedLengthMismatch { s with stream := bs' })

/-- Stored copy step, phase `STORED_COPY`, one data byte (R201). -/
def stepStoredCopy (s : State) : Result :=
  if s.storedRem = 0 then .fault .storedCountZero
  else
    match s.stream.readBits 8 with
    | .raise k bs => readFailed k bs s
    | .ok b bs =>
      match outWrite (BitVec.ofNat 8 b) { s with stream := bs } with
      | .error k => .next (raiseError k { s with stream := bs })
      | .ok s' =>
        .next { s' with storedRem := s.storedRem - 1,
                        phase := if s.storedRem = 1 then .checkFinal else .storedCopy }

/-- Counts step, phase `DYN_COUNTS` (R109). A count read before a failing one stays written (R218). -/
def stepDynCounts (s : State) : Result :=
  match s.stream.readBits 5 with
  | .raise k bs => readFailed k bs s
  | .ok hlit bs =>
    match bs.readBits 5 with
    | .raise k bs' => readFailed k bs' { s with hlit := BitVec.ofNat 5 hlit }
    | .ok hdist bs' =>
      match bs'.readBits 4 with
      | .raise k bs'' => readFailed k bs'' { s with hlit := BitVec.ofNat 5 hlit, hdist := BitVec.ofNat 5 hdist }
      | .ok hclen bs'' =>
        .next { s with
          stream := bs''
          hlit := BitVec.ofNat 5 hlit
          hdist := BitVec.ofNat 5 hdist
          hclen := BitVec.ofNat 4 hclen
          clLen := Vector.replicate 19 0
          lens := Vector.replicate 320 0
          clIdx := 0
          lenIdx := 0
          phase := .dynClLen }

/-- The writes of a code-length value `v` (R111): `cl_len[ORDER[cl_idx]] <- v; cl_idx <- cl_idx + 1`. -/
def writeClLen (v : Nat) (s : State) : State :=
  { s with clLen := s.clLen.setIfInBounds (clOrder.getD s.clIdx.toNat 0) (BitVec.ofNat 3 v), clIdx := s.clIdx + 1 }

/-- The end of a code-length value step (R111): after the last value, build the table and enter `DYN_LENS`. -/
def endClLenStep (s : State) : State :=
  if s.clIdx.toNat = clCount s then
    match clTable s with
    | none => raiseError .malformedCodeLengths s
    | some _ => { s with phase := .dynLens }
  else s

/-- Code-length-length step, phase `DYN_CLLEN`, one value (R111). -/
def stepDynClLen (s : State) : Result :=
  if s.clIdx.toNat < Config.clSize then
    match s.stream.readBits 3 with
    | .raise k bs => readFailed k bs s
    | .ok v bs => .next (endClLenStep (writeClLen v { s with stream := bs }))
  else .fault .clIndexPastOrder

/-- The source address of a copy step, `out_len - match_dist` (R190), where it is one (R51). -/
def copySource (s : State) : Option Nat :=
  if s.matchDist.toNat ≤ s.outLen then some (s.outLen - s.matchDist.toNat) else none

/-- Copy step, phase `COPY`, one byte of the back-reference (R190). -/
def stepCopy (s : State) : Result :=
  if s.copyRem = 0 then .fault .copyCountZero
  else
    match (copySource s).bind fun a => outRead a s with
    | none => .fault .outReadPastEnd
    | some b =>
      match outWrite b s with
      | .error k => .next (raiseError k s)
      | .ok s' =>
        .next { s' with copyRem := s.copyRem - 1, phase := if s.copyRem = 1 then .sym else .copy }

/-- Final check step, phase `CHECK_FINAL` (R203). -/
def stepCheckFinal (s : State) : Result :=
  if s.bfinal then
    .next { s with stream := s.stream.align, inConsumed := s.stream.align.inPos, phase := .done }
  else .next { s with phase := .hdr }

end Sys2Proof.Machine
end

