-- ==== Sys2Proof/Machine/Step.lean ====
section
/-! DEFINITION. The step (spec/45_block_dispatcher.md R193, R194). -/

namespace Sys2Proof.Machine

/-- A step of a phase that decodes an element: fetch it, then its meaning. -/
def stepInstr (sp : Space) (s : State) : Host.Outcome State Fault Refusal :=
  match fetch sp s with
  | .instr i s' => exec i s'
  | .raised k s' => .next (raiseError k s')
  | .rejected r => .refused (.undecodable r)
  | .fault f => .fault f

/-- One step: the rule of the current phase (R193). `IDLE`, `DONE` and `ERROR` have no step: the core is quiescent
there and changes no state until the host resets or starts it (R194, R204, R219). -/
def step (s : State) : Host.Outcome State Fault Refusal :=
  match s.phase with
  | .idle => .next s
  | .hdr => stepInstr .hdr s
  | .storedLen => stepStoredLen s
  | .storedCopy => stepStoredCopy s
  | .dynCounts => stepDynCounts s
  | .dynClLen => stepDynClLen s
  | .dynLens => stepInstr .clSym s
  | .sym => stepInstr .llSym s
  | .dist => stepInstr .dSym s
  | .copy => stepCopy s
  | .checkFinal => stepCheckFinal s
  | .done => .next s
  | .error => .next s

/-- `s` with the table word's instruction as the next element of the stream, so that the next step runs it (log
entries 7 and 8). A word no row of its width accepts changes nothing. -/
def State.withFetchWord (s : State) (nbits w : Nat) : State :=
  match decodeTableWord nbits w with
  | none => s
  | some i => placeInstr i s

end Sys2Proof.Machine
end

