-- ==== Sys2Proof/Machine/HostPort.lean ====
section
/-! DEFINITION. What the host can do to the core and read from it (spec/60_exceptions.md R224, R225). A host action
lands between two steps (70_reset_and_hazards.md R232); a session is any interleaving of steps and host actions. -/

namespace Sys2Proof.Machine

/-- Assert the reset input (R232): allowed at any time. -/
def hostReset (s : State) : State := resetCore s

/-- Write register `n` (R224, R225, R39): only `CTRL` bit 0 `START` acts, and only while `BUSY = 0`. -/
def hostWriteReg (n : Nat) (v : BitVec 8) (s : State) : State :=
  if n = 0 ∧ v.getLsbD 0 = true ∧ busy s = false then startSession s else s

/-- Read register `n` (R224, R38 to R41): `CTRL` reads 0, numbers 4 and above read 0. No side effect (R243). -/
def hostReadReg (n : Nat) (s : State) : Nat :=
  match n with
  | 0 => 0
  | 1 => (statusReg s).toNat
  | 2 => (outCount s).toNat
  | 3 => s.inConsumed
  | _ => 0

/-- The state with the input, how it ends and `OUT_CAP` as the host now drives them (R225, R236). -/
def presentInput (bytes : List Byte) (e : SrcEnd) (cap : Option Nat) (s : State) : State :=
  { s with
    stream := { s.stream with bytes := Memory.ofBytes bytes, len := bytes.length, srcEnd := e }
    outCap := cap }

/-- What a session whose host changed its input leaves: a free cursor and a free output (U12). Log entry 3. -/
def freeResult (s : State) : State :=
  { s with
    stream := { s.stream with inPos := Config.lostConsumed s.freeTick, bitOff := 0 }
    out := Memory.ofBytes (Config.lostOut s.freeTick)
    outLen := (Config.lostOut s.freeTick).length
    freeTick := s.freeTick + 1 }

/-- The end of such a session: `DONE` or `ERROR`, which is free too (U12, R225). Log entry 3. -/
def loseSession (s : State) : State :=
  if Config.lostDone s.freeTick then
    { freeResult s with inConsumed := Config.lostConsumed s.freeTick, phase := .done }
  else { freeResult s with errCode := BitVec.ofNat 4 ((Config.lostError s.freeTick).val + 1), phase := .error }

/-- The host drives the input and the parameters it already drives: it changes nothing (R46, R49). Memories are canonical,
so equal bytes are equal lists. -/
def inputUnchanged (bytes : List Byte) (e : SrcEnd) (cap : Option Nat) (s : State) : Bool :=
  decide (s.stream.bytes = Memory.ofBytes bytes ∧ s.stream.len = bytes.length ∧ s.stream.srcEnd = e ∧ s.outCap = cap)

/-- Present the input, how it ends and `OUT_CAP` (R225, R236). While a session runs the host supplies the input (R46)
and keeps it unchanged (R49): presenting the same input and parameters again is no change, and the session goes on.
Any change breaks the host's duty: that session gets no guarantee but still ends in `DONE` or `ERROR` (U12, R225), and
its result is free (log entry 3). -/
def hostPresent (bytes : List Byte) (e : SrcEnd) (cap : Option Nat) (s : State) : State :=
  if busy s && !inputUnchanged bytes e cap s then loseSession (presentInput bytes e cap s)
  else presentInput bytes e cap s

/-- Read the output port at address `a` (R54): in `DONE`, `out[a]` for `a < out_len`; elsewhere a free value, which
takes a tick so that two such reads need not agree (log entry 4). -/
def hostReadOut (a : Nat) (s : State) : Byte × State :=
  match isDone s, outRead a s with
  | true, some b => (b, s)
  | _, _ => (Config.outPortFree s.freeTick a, { s with freeTick := s.freeTick + 1 })

/-- What the output write port shows over a step from `s` to `s'` (R224): the appended byte and its address, one per
`MemWrite(OUT, ...)`. -/
def outWritePort (s s' : State) : Option Host.Cell :=
  if s'.outLen = s.outLen + 1 then some (s.outLen, s'.out.read s.outLen) else none

/-- The observation of a session (R207): the output and `IN_CONSUMED` in `DONE`, the error code in `ERROR`, nothing
before. In `ERROR` the bytes in `out` are no part of it (R42, R219). -/
def observation (s : State) : Option (Except (BitVec 4) (List Byte × Nat)) :=
  match s.phase with
  | .done => some (.ok (outBytes s, s.inConsumed))
  | .error => some (.error s.errCode)
  | .idle | .hdr | .storedLen | .storedCopy | .dynCounts | .dynClLen | .dynLens | .sym | .dist | .copy
  | .checkFinal => none

/-- The host's actions on the core. -/
inductive HostAction where
  | reset
  | writeReg (n : Nat) (v : BitVec 8)
  | readReg (n : Nat)
  | present (bytes : List Byte) (e : SrcEnd) (cap : Option Nat)
  | readOut (a : Nat)
deriving DecidableEq, Repr

/-- The state after a host action. -/
def hostAct (act : HostAction) (s : State) : Result :=
  match act with
  | .reset => .next (hostReset s)
  | .writeReg n v => .next (hostWriteReg n v s)
  | .readReg _ => .next s
  | .present bytes e cap => .next (hostPresent bytes e cap s)
  | .readOut a => .next (hostReadOut a s).2

end Sys2Proof.Machine
end

