-- ==== Sys2Proof/Safety.lean ====
section
/-! DEFINITION. What counts as a safe run: the invariant the machine keeps, the states a session can reach, runs of
several steps, and the reset values, in the terms the statements use. -/

namespace Sys2Proof.Machine

/-- `n` steps, stopping at the first fault or refusal. -/
def runSteps : Nat → State → Result
  | 0, s => .next s
  | n + 1, s =>
    match step s with
    | .next s' => runSteps n s'
    | .fault f => .fault f
    | .refused r => .refused r

/-- `btype` is the type of the block the phase belongs to (R28, R193): never the reserved value outside `ERROR`. -/
def blockTypeAgrees (s : State) : Prop :=
  match s.phase with
  | .idle | .error => True
  | .hdr | .checkFinal | .done => s.btype ≠ 3
  | .storedLen | .storedCopy => s.btype = 0
  | .dynCounts | .dynClLen | .dynLens => s.btype = 2
  | .sym | .dist | .copy => s.btype = 1 ∨ s.btype = 2

/-- The phases that use the block's literal/length and distance tables. -/
def inSymbols (s : State) : Prop := s.phase = .sym ∨ s.phase = .dist ∨ s.phase = .copy

/-- The invariant of the machine. -/
structure Inv (s : State) : Prop where
  /-- The input memory is in canonical form and lists addresses `0 .. IN_LEN-1` only (R46). -/
  inputWf : s.stream.bytes.wf = true
  inputBelow : s.stream.bytes.below s.stream.len = true
  /-- The output memory is in canonical form and lists addresses `0 .. out_len-1` only (R46, R36). -/
  outputWf : s.out.wf = true
  outputBelow : s.out.below s.outLen = true
  /-- `err_code` is 0 exactly outside `ERROR`, and never a reserved code (R37, R208). -/
  errorIff : s.phase = .error ↔ s.errCode ≠ 0
  errorLegal : s.errCode.toNat ≤ 9
  /-- `IN_CONSUMED` is 0 outside `DONE` and there the aligned cursor (R41, R203). -/
  consumedZero : s.phase ≠ .done → s.inConsumed = 0
  consumedDone : s.phase = .done → s.inConsumed = s.stream.inPos ∧ s.stream.bitOff = 0
  /-- During a session the cursor lies inside the input or just at its end (R26, R84). -/
  cursorInside : busy s = true → s.stream.pos ≤ 8 * s.stream.len
  /-- During a session the output never exceeds `OUT_CAP` (R50). -/
  outputCapped : busy s = true → ∀ c, s.outCap = some c → s.outLen ≤ c
  blockType : blockTypeAgrees s
  /-- A Stored copy has a byte to copy and an aligned cursor (R201). -/
  storedCopying : s.phase = .storedCopy → s.storedRem ≠ 0 ∧ s.stream.bitOff = 0
  /-- A code-length value is still to come, and no code length is written yet (R111). -/
  clReading : s.phase = .dynClLen → s.clIdx.toNat < clCount s ∧ s.lenIdx = 0
  /-- A code length is still to come, and the code-length table is built (R112, R33). -/
  lensReading : s.phase = .dynLens → s.lenIdx.toNat < total s ∧ (clTable s).isSome = true
  /-- The block's tables are built before its first symbol (R33, R241). -/
  tablesBuilt : inSymbols s → (litTable s).isSome = true ∧ (distTable s).isSome = true
  /-- The match length of a back-reference (R35). -/
  matchLength : s.phase = .dist ∨ s.phase = .copy → 3 ≤ s.matchLen.toNat ∧ s.matchLen.toNat ≤ 258
  /-- The distance and the remaining count of a back-reference being copied (R35, R159, R190). -/
  copying : s.phase = .copy →
    1 ≤ s.matchDist.toNat ∧ s.matchDist.toNat ≤ Config.window ∧ s.matchDist.toNat ≤ s.outLen ∧
    1 ≤ s.copyRem.toNat ∧ s.copyRem.toNat ≤ s.matchLen.toNat

/-- The states an interleaving of steps and host actions reaches from reset. -/
inductive Reachable : State → Prop where
  | reset : Reachable State.reset
  | step {s s' : State} : Reachable s → step s = .next s' → Reachable s'
  | host {s s' : State} (act : HostAction) : Reachable s → hostAct act s = .next s' → Reachable s'

/-- Every element of 10_state.md but `phase` at its value after reset and after start (R45). -/
structure ResetValues (s : State) : Prop where
  cursor : s.stream.inPos = 0 ∧ s.stream.bitOff = 0
  block : s.bfinal = false ∧ s.btype = 0 ∧ s.storedRem = 0
  counts : s.hlit = 0 ∧ s.hdist = 0 ∧ s.hclen = 0
  codeLengths : (∀ l ∈ s.clLen.toList, l = 0) ∧ s.clIdx = 0 ∧ (∀ l ∈ s.lens.toList, l = 0) ∧ s.lenIdx = 0
  tables : (∀ l ∈ s.litLens.toList, l = 0) ∧ (∀ l ∈ s.distLens.toList, l = 0)
  backReference : s.matchLen = 0 ∧ s.matchDist = 0 ∧ s.copyRem = 0
  output : s.out = [] ∧ s.outLen = 0
  errorCode : s.errCode = 0
  consumed : s.inConsumed = 0

/-- The step of a length symbol ended in `DIST` with match length `n`, everything else as in `s` (R124). -/
def EntersDist (r : Result) (s : State) (n : Nat) : Prop :=
  ∃ v : BitVec 9, v.toNat = n ∧ r = .next { s with matchLen := v, phase := .dist }

/-- The step of a distance symbol with distance `n` (R156, R159): within the output it enters `COPY` with the whole
match to copy, past it it raises `InvalidBackReference` (code 7); everything else is as in `s`. -/
def EntersCopy (r : Result) (s : State) (n : Nat) : Prop :=
  ∃ v : BitVec 16, v.toNat = n ∧
    (n ≤ s.outLen → r = .next { s with matchDist := v, copyRem := s.matchLen, phase := .copy }) ∧
    (s.outLen < n → r = .next { s with matchDist := v, errCode := 7, phase := .error })

/-- The step entered `ERROR` with kind `k` (R218). -/
def EntersError (r : Result) (k : ErrKind) : Prop :=
  ∃ t : State, r = .next t ∧ t.phase = .error ∧ t.errCode = errorCode k

/-- The lengths over-subscribe a code space of `maxbits` bits: `sum over s with L[s] > 0 of 2^(maxbits - L[s])` is
greater than `2^maxbits` (R91). -/
def overSubscribed (lens : List Nat) (maxbits : Nat) : Prop :=
  2 ^ maxbits < ((lens.filter fun l => l != 0).map fun l => 2 ^ (maxbits - l)).sum

/-- `next_code[l]` (R92): `next_code[1] = 0` and `next_code[l] = (next_code[l-1] + count[l-1]) << 1`, with
`count[0] = 0` (R90). -/
def nextCode (lens : List Nat) : Nat → Nat
  | 0 => 0
  | 1 => 0
  | l + 2 => 2 * (nextCode lens (l + 1) + lens.count (l + 1))

end Sys2Proof.Machine
end

