-- ==== Sys2Proof/Certificates/Slice0/Obligations.lean ====
section
/-! DEFINITION. The statements for the provers. Each formalises what the spec says an operation or the machine does;
OBLIGATIONS.json gives its rule and its words. -/

open Sys2Proof Sys2Proof.Machine

/-- Reset and start leave every element at its tabulated value. (R45.) -/
def Obligations.ResetAndStartValues : Prop :=
  ∀ s : State,
    (hostReset s).phase = .idle ∧ ResetValues (hostReset s) ∧ statusReg (hostReset s) = 0x00 ∧
      outCount (hostReset s) = 0 ∧
    (startSession s).phase = .hdr ∧ ResetValues (startSession s) ∧ statusReg (startSession s) = 0x01 ∧
      outCount (startSession s) = 0 ∧
    State.reset.phase = .idle ∧ ResetValues State.reset

/-- Reset and start touch neither the input nor the parameters (R232, R234). That reset leaves IN_LEN, SRC_END and OUT_CAP too is the model's choice, log entry 2. (70_reset_and_hazards.md section 1, 70_reset_and_hazards.md section 2.) -/
def Obligations.ResetKeepsTheHostsInput : Prop :=
  ∀ s : State, ∀ t ∈ [hostReset s, startSession s],
    t.stream.bytes = s.stream.bytes ∧ t.stream.len = s.stream.len ∧ t.stream.srcEnd = s.stream.srcEnd ∧
      t.outCap = s.outCap

/-- CTRL: bit 0 starts a session when not busy, every other write is ignored, it reads 0. (R39.) -/
def Obligations.StartActsOnlyWhenNotBusy : Prop :=
  ∀ (n : Nat) (v : BitVec 8) (s : State),
    (v.getLsbD 0 = true → busy s = false → hostWriteReg 0 v s = startSession s) ∧
    (v.getLsbD 0 = false → hostWriteReg 0 v s = s) ∧
    (busy s = true → hostWriteReg n v s = s) ∧
    (n ≠ 0 → hostWriteReg n v s = s) ∧
    hostReadReg 0 s = 0

/-- STATUS holds BUSY, DONE, ERROR and ERR_CODE at their bits. (R38.) -/
def Obligations.StatusRegisterFields : Prop :=
  ∀ s : State,
    hostReadReg 1 s < 256 ∧
    ((hostReadReg 1 s).testBit 0 = true ↔ s.phase ≠ .idle ∧ s.phase ≠ .done ∧ s.phase ≠ .error) ∧
    ((hostReadReg 1 s).testBit 1 = true ↔ s.phase = .done) ∧
    ((hostReadReg 1 s).testBit 2 = true ↔ s.phase = .error) ∧
    (hostReadReg 1 s).testBit 3 = false ∧
    hostReadReg 1 s / 16 = s.errCode.toNat ∧
    hostReadReg 1 s % 16 ∈ [0, 1, 2, 4] ∧
    (hostReadReg 1 s % 16 = 0 ↔ s.phase = .idle) ∧
    ∀ v, hostWriteReg 1 v s = s

/-- OUT_COUNT is out_len mod 2^32, IN_CONSUMED its register, numbers 4 and above read 0. (10_state.md section 10, 60_exceptions.md section 3.) -/
def Obligations.CounterRegistersAndUnusedNumbers : Prop :=
  ∀ (s : State) (n : Nat) (v : BitVec 8),
    hostReadReg 2 s = s.outLen % 2 ^ 32 ∧ hostReadReg 3 s = s.inConsumed ∧ hostReadReg (n + 4) s = 0 ∧
      hostWriteReg (n + 4) v s = s ∧ hostAct (.readReg n) s = .next s

/-- In DONE the output port returns out[a] (R54); no port read changes the core. The value elsewhere is free (log entry 4), and the statement holds for every value of it. (20_memory.md R54, 10_state.md section 10.) -/
def Obligations.OutputPortShowsTheResultInDone : Prop :=
  ∀ (a : Nat) (s : State),
    (s.phase = .done → a < s.outLen → hostReadOut a s = (s.out.read a, s)) ∧
    ∃ tick, (hostReadOut a s).2 = { s with freeTick := tick }

/-- The presented bytes are IN (R46, R47); presenting them again while a session runs is no change (R49, R225). That a session whose input changes ends at once is the model's choice, log entry 3; the statement holds for every result it may have. (20_memory.md R46, 20_memory.md R47, 20_memory.md R49, 60_exceptions.md R225.) -/
def Obligations.PresentedInputIsTheStream : Prop :=
  ∀ (bytes : List Byte) (e : SrcEnd) (cap : Option Nat) (s : State), ∃ t,
    hostAct (.present bytes e cap) s = .next t ∧ t.stream.bytes.wf = true ∧ t.stream.len = bytes.length ∧
    (∀ a, t.stream.memRead a = bytes[a]?) ∧ t.stream.srcEnd = e ∧ t.outCap = cap ∧
    (busy s = false → t = { s with
      stream := { s.stream with bytes := t.stream.bytes, len := bytes.length, srcEnd := e }, outCap := cap }) ∧
    (busy s = true → s.stream.bytes.wf = true → s.stream.bytes.below s.stream.len = true →
      ((∀ a, s.stream.memRead a = bytes[a]?) ∧ s.stream.srcEnd = e ∧ s.outCap = cap → t = s) ∧
      (¬((∀ a, s.stream.memRead a = bytes[a]?) ∧ s.stream.srcEnd = e ∧ s.outCap = cap) →
        t.phase = .done ∨ t.phase = .error))

/-- ReadBit returns the bit at the cursor and advances it by one, or fails where the input ends. (R84.) -/
def Obligations.ReadBitReadsTheCursorBit : Prop :=
  ∀ bs : BitStream,
    (bs.inPos < bs.len → bs.readBit = .ok ((bs.bytes.read bs.inPos).getLsbD bs.bitOff.toNat)
      (if bs.bitOff = 7 then { bs with inPos := bs.inPos + 1, bitOff := 0 }
       else { bs with bitOff := bs.bitOff + 1 })) ∧
    (bs.len ≤ bs.inPos → bs.srcEnd = .eof → bs.readBit = .raise .truncatedStream bs) ∧
    (bs.len ≤ bs.inPos → bs.srcEnd = .ioError → bs.readBit = .raise .sourceError bs)

/-- ReadBits(n) assembles n stream bits, the first as bit 0, or fails where the input ends. (R85.) -/
def Obligations.ReadBitsAssemblesLowBitFirst : Prop :=
  ∀ (n : Nat) (bs : BitStream),
    (bs.pos + n ≤ 8 * bs.len → bs.readBits n = .ok
      (((List.range n).map fun i => (bs.bitAt (bs.pos + i)).toNat <<< i).sum) (bs.seek (bs.pos + n))) ∧
    (bs.pos ≤ 8 * bs.len → 8 * bs.len < bs.pos + n →
      bs.readBits n = .raise (endError bs.srcEnd) (bs.seek (8 * bs.len))) ∧
    bs.readBits 0 = .ok 0 bs

/-- ReadBits(a) then ReadBits(b) is ReadBits(a+b). (R86.) -/
def Obligations.ReadBitsSplitsAnywhere : Prop :=
  ∀ (a b : Nat) (bs : BitStream),
    (bs.readBits (a + b) =
      match bs.readBits a with
      | .raise k bs' => .raise k bs'
      | .ok va bs' =>
        match bs'.readBits b with
        | .raise k bs'' => .raise k bs''
        | .ok vb bs'' => .ok (va + vb <<< a) bs'') ∧
    readHeader bs = bs.readBits 3

/-- AlignToByte moves to the next byte boundary unless already on one. (R87.) -/
def Obligations.AlignGoesToTheNextByteBoundary : Prop :=
  ∀ bs : BitStream,
    (bs.bitOff ≠ 0 → bs.align = { bs with inPos := bs.inPos + 1, bitOff := 0 }) ∧
    (bs.bitOff = 0 → bs.align = bs) ∧ bs.align.pos = 8 * ((bs.pos + 7) / 8)

/-- Build fails exactly when the lengths over-subscribe the code space. (R91.) -/
def Obligations.BuildRejectsExactlyOverSubscription : Prop :=
  ∀ (lens : List Nat) (maxbits : Nat), (∀ l ∈ lens, l ≤ maxbits) →
    (buildTable lens maxbits = none ↔
      2 ^ maxbits < ((lens.filter fun l => l != 0).map fun l => 2 ^ (maxbits - l)).sum)

/-- Every symbol gets the first code of its length plus its rank among that length. (R92, R93.) -/
def Obligations.CodesFollowTheCanonicalAssignment : Prop :=
  ∀ (lens : List Nat) (maxbits : Nat) (t : CodeTable), (∀ l ∈ lens, l ≤ maxbits) →
    buildTable lens maxbits = some t →
    t = ((List.range lens.length).filter fun s => lens.getD s 0 != 0).map fun s =>
      { len := lens.getD s 0,
        code := nextCode lens (lens.getD s 0) + (lens.take s).count (lens.getD s 0),
        sym := s }

/-- A built table is a prefix code: codes fit, are distinct, and none is a prefix of another. (R95.) -/
def Obligations.CanonicalCodesArePrefixFree : Prop :=
  ∀ (lens : List Nat) (maxbits : Nat) (t : CodeTable), (∀ l ∈ lens, l ≤ maxbits) →
    buildTable lens maxbits = some t →
    (∀ e ∈ t, e.code < 2 ^ e.len) ∧
    (∀ e ∈ t, ∀ f ∈ t, e ≠ f → (e.len, e.code) ≠ (f.len, f.code)) ∧
    (∀ e ∈ t, ∀ f ∈ t, e ≠ f → ¬ codeBits e.len e.code <+: codeBits f.len f.code)

/-- Feeding a symbol's code to DecodeSymbol returns that symbol, and no other string of its length does. (R100.) -/
def Obligations.DecodeSymbolReadsBackEveryCode : Prop :=
  ∀ (lens : List Nat) (maxbits : Nat) (t : CodeTable), (∀ l ∈ lens, l ≤ maxbits) →
    buildTable lens maxbits = some t → ∀ s : Nat, lens.getD s 0 ≠ 0 →
    ∃ code, { len := lens.getD s 0, code := code, sym := s } ∈ t ∧
      ∀ (bs : BitStream) (bits rest : List Bool), bits.length = lens.getD s 0 → bs.remaining = bits ++ rest →
        (bits = codeBits (lens.getD s 0) code →
          decodeSymbol t maxbits bs = .ok s (bs.seek (bs.pos + lens.getD s 0))) ∧
        (bits ≠ codeBits (lens.getD s 0) code → ∀ bs', decodeSymbol t maxbits bs ≠ .ok s bs')

/-- The tree walk the model uses is the loop of R97 over the map. (R97.) -/
def Obligations.TreeWalkIsTheMapLoop : Prop :=
  ∀ (t : CodeTable) (maxbits : Nat) (bs : BitStream),
    decodeSymbol t maxbits bs = decodeLoop t maxbits 0 0 bs

/-- All lengths 0 build the empty table, and decoding with it reads one bit and fails. (41_huffman.md R99, 41_huffman.md R94.) -/
def Obligations.EmptyTableFailsAfterOneBit : Prop :=
  ∀ (n maxbits : Nat) (bs : BitStream),
    buildTable (List.replicate n 0) maxbits = some [] ∧
    (bs.inPos < bs.len → decodeSymbol [] (maxbits + 1) bs = .raise .invalidHuffmanCode (bs.seek (bs.pos + 1))) ∧
    (bs.len ≤ bs.inPos → decodeSymbol [] (maxbits + 1) bs = .raise (endError bs.srcEnd) bs)

/-- The source's worked example builds exactly its codes. (R101.) -/
def Obligations.CanonicalExampleOfTheSource : Prop :=
  (buildTable [3, 3, 3, 3, 3, 2, 4, 4] 15).map (fun t => t.map fun e => (e.sym, codeBits e.len e.code)) = some
    [(0, [false, true, false]), (1, [false, true, true]), (2, [true, false, false]), (3, [true, false, true]),
     (4, [true, true, false]), (5, [false, false]), (6, [true, true, true, false]), (7, [true, true, true, true])]

/-- The fixed arrays build the tabulated codes and never fail. (42_fixed_tables.md R104, 42_fixed_tables.md R105, 42_fixed_tables.md R106.) -/
def Obligations.FixedTablesAreTheTabulatedCodes : Prop :=
  buildTable (natLens (padLens 288 fixedLit)) 15 = some ((List.range 288).map fun s =>
      if s < 144 then ⟨8, 0x30 + s, s⟩ else if s < 256 then ⟨9, 0x190 + (s - 144), s⟩
      else if s < 280 then ⟨7, s - 256, s⟩ else ⟨8, 0xC0 + (s - 280), s⟩) ∧
  buildTable (natLens (padLens 32 fixedDist)) 15 = some ((List.range 30).map fun d => ⟨5, d, d⟩)

/-- Stored, Fixed and Dynamic headers enter their first phase; Fixed loads the fixed arrays. (R196, R197, R198.) -/
def Obligations.BlockHeadersStartTheirBodies : Prop :=
  ∀ (f : Bool) (s : State),
    exec (.blkStored f) s = .next { s with bfinal := f, btype := 0, phase := .storedLen } ∧
    exec (.blkDynamic f) s = .next { s with bfinal := f, btype := 2, phase := .dynCounts } ∧
    ∃ (lit : Vector CodeLen 288) (dist : Vector CodeLen 32),
      exec (.blkFixed f) s =
        .next { s with bfinal := f, btype := 1, litLens := lit, distLens := dist, phase := .sym } ∧
      (∀ i < 288, lit.toList.getD i 0 = if i < 144 then 8 else if i < 256 then 9 else if i < 280 then 7 else 8) ∧
      (∀ d < 32, dist.toList.getD d 0 = if d < 30 then 5 else 0)

/-- A Reserved header raises ReservedBlockType whatever BFINAL is. (R199.) -/
def Obligations.ReservedBlockTypeAlwaysRaises : Prop :=
  ∀ (f : Bool) (s : State), ∃ t : BitVec 2,
    exec (.blkReserved f) s = .next { s with bfinal := f, btype := t, errCode := 2, phase := .error }

/-- The header step reads BFINAL and BTYPE and runs the selected header. (R195.) -/
def Obligations.HeaderStepReadsThreeBits : Prop :=
  ∀ s : State, s.phase = .hdr →
    (∀ (f lo hi : Bool) (rest : List Bool), s.stream.remaining = f :: lo :: hi :: rest →
      step s = exec
        (match lo, hi with
          | false, false => .blkStored f
          | true, false => .blkFixed f
          | false, true => .blkDynamic f
          | true, true => .blkReserved f)
        { s with stream := s.stream.seek (s.stream.pos + 3) }) ∧
    (s.stream.remaining.length < 3 → EntersError (step s) (endError s.stream.srcEnd))

/-- The Stored length step aligns, reads LEN and NLEN and checks them. (R200.) -/
def Obligations.StoredLengthStep : Prop :=
  ∀ s : State, s.phase = .storedLen →
    (∀ (a b rest : List Bool), a.length = 16 → b.length = 16 → s.stream.align.remaining = a ++ b ++ rest →
      (bitsValue b = bitsValue a ^^^ 0xFFFF → step s = .next { s with
        stream := s.stream.align.seek (s.stream.align.pos + 32)
        storedRem := BitVec.ofNat 16 (bitsValue a)
        phase := if bitsValue a = 0 then .checkFinal else .storedCopy }) ∧
      (bitsValue b ≠ bitsValue a ^^^ 0xFFFF → step s = .next { s with
        stream := s.stream.align.seek (s.stream.align.pos + 32)
        errCode := 3
        phase := .error })) ∧
    (s.stream.align.remaining.length < 32 → EntersError (step s) (endError s.stream.srcEnd))

/-- A Stored copy step appends the next input byte unchanged. (R201.) -/
def Obligations.StoredCopyStepCopiesOneByte : Prop :=
  ∀ s : State, s.phase = .storedCopy → s.storedRem ≠ 0 → s.stream.bitOff = 0 →
    (s.stream.inPos < s.stream.len → s.outCap ≠ some s.outLen → step s = .next { s with
      stream := { s.stream with inPos := s.stream.inPos + 1 }
      out := s.out.write s.outLen (s.stream.bytes.read s.stream.inPos)
      outLen := s.outLen + 1
      storedRem := s.storedRem - 1
      phase := if s.storedRem = 1 then .checkFinal else .storedCopy }) ∧
    (s.stream.inPos < s.stream.len → s.outCap = some s.outLen → step s = .next { s with
      stream := { s.stream with inPos := s.stream.inPos + 1 }
      errCode := 9
      phase := .error }) ∧
    (s.stream.len ≤ s.stream.inPos → EntersError (step s) (endError s.stream.srcEnd))

/-- A final Stored block alone in a stream decodes to exactly its data. (R202.) -/
def Obligations.StoredBlockRoundTrip : Prop :=
  ∀ (data : List Byte) (first : Byte) (e : SrcEnd) (cap : Option Nat) (s : State),
    data.length ≤ 65535 → first.toNat % 8 = 1 → (∀ c, cap = some c → data.length ≤ c) → busy s = false →
    ∃ t, runSteps (data.length + 3) (hostWriteReg 0 1 (hostPresent
        ([first, BitVec.ofNat 8 data.length, BitVec.ofNat 8 (data.length / 256),
          ~~~BitVec.ofNat 8 data.length, ~~~BitVec.ofNat 8 (data.length / 256)] ++ data) e cap s)) = .next t ∧
      observation t = some (.ok (data, 5 + data.length))

/-- The counts step reads HLIT, HDIST, HCLEN and clears the arrays. (R109.) -/
def Obligations.DynamicCountsStep : Prop :=
  ∀ s : State, s.phase = .dynCounts →
    (∀ (a b c rest : List Bool), a.length = 5 → b.length = 5 → c.length = 4 →
      s.stream.remaining = a ++ b ++ c ++ rest →
      ∃ (cl : Vector (BitVec 3) 19) (ls : Vector CodeLen 320), (∀ l ∈ cl.toList, l = 0) ∧ (∀ l ∈ ls.toList, l = 0) ∧
        step s = .next { s with
          stream := s.stream.seek (s.stream.pos + 14)
          hlit := BitVec.ofNat 5 (bitsValue a)
          hdist := BitVec.ofNat 5 (bitsValue b)
          hclen := BitVec.ofNat 4 (bitsValue c)
          clLen := cl
          lens := ls
          clIdx := 0
          lenIdx := 0
          phase := .dynClLen }) ∧
    (s.stream.remaining.length < 14 → EntersError (step s) (endError s.stream.srcEnd))

/-- A code-length value goes to symbol ORDER[cl_idx]; after the last one the table is built. (R111.) -/
def Obligations.CodeLengthValueStep : Prop :=
  ∀ s : State, s.phase = .dynClLen → s.clIdx.toNat < 19 →
    (∀ (b0 b1 b2 : Bool) (rest : List Bool), s.stream.remaining = b0 :: b1 :: b2 :: rest →
      ∃ cl : Vector (BitVec 3) 19,
        (∀ j < 19, cl.toList.getD j 0 =
          if j = [16, 17, 18, 0, 8, 7, 9, 6, 10, 5, 11, 4, 12, 3, 13, 2, 14, 1, 15].getD s.clIdx.toNat 0 then
            BitVec.ofNat 3 (bitsValue [b0, b1, b2])
          else s.clLen.toList.getD j 0) ∧
        (s.clIdx.toNat + 1 ≠ s.hclen.toNat + 4 → step s = .next { s with
          stream := s.stream.seek (s.stream.pos + 3), clLen := cl, clIdx := s.clIdx + 1 }) ∧
        (s.clIdx.toNat + 1 = s.hclen.toNat + 4 → (buildTable (natLens cl) 7).isSome = true → step s = .next { s with
          stream := s.stream.seek (s.stream.pos + 3), clLen := cl, clIdx := s.clIdx + 1, phase := .dynLens }) ∧
        (s.clIdx.toNat + 1 = s.hclen.toNat + 4 → buildTable (natLens cl) 7 = none → step s = .next { s with
          stream := s.stream.seek (s.stream.pos + 3), clLen := cl, clIdx := s.clIdx + 1,
          errCode := 4, phase := .error })) ∧
    (s.stream.remaining.length < 3 → EntersError (step s) (endError s.stream.srcEnd))

/-- A code-length symbol 0..15 appends itself, and the last entry completes the header. (R112.) -/
def Obligations.CodeLengthSymbolAppendsItself : Prop :=
  ∀ (n : BitVec 4) (s : State), s.lenIdx.toNat < total s →
    ∃ ls : Vector CodeLen 320,
      (∀ j < 320, ls.toList.getD j 0 = if j = s.lenIdx.toNat then n else s.lens.toList.getD j 0) ∧
      exec (.clLen n) s = .next
        (if s.lenIdx.toNat + 1 = total s then finishHeader { s with lens := ls, lenIdx := s.lenIdx + 1 }
         else { s with lens := ls, lenIdx := s.lenIdx + 1 })

/-- Symbols 16, 17 and 18 write their run and no other entry, and the last entry completes the header. (43_dynamic_header.md R113, 43_dynamic_header.md R114, 43_dynamic_header.md R115, 43_dynamic_header.md R117.) -/
def Obligations.RepeatAndZeroRunsWriteTheirRun : Prop :=
  ∀ s : State,
  (∀ x : BitVec 2,
    s.lenIdx ≠ 0 → s.lenIdx.toNat + (3 + x.toNat) ≤ total s →
      ∃ ls : Vector CodeLen 320,
        (∀ j < 320, ls.toList.getD j 0 =
          if s.lenIdx.toNat ≤ j ∧ j < s.lenIdx.toNat + (3 + x.toNat) then s.lens.toList.getD (s.lenIdx.toNat - 1) 0 else s.lens.toList.getD j 0) ∧
        exec (.clRep16 x) s = .next
          (if s.lenIdx.toNat + (3 + x.toNat) = total s then
            finishHeader { s with lens := ls, lenIdx := s.lenIdx + BitVec.ofNat 9 (3 + x.toNat) }
           else { s with lens := ls, lenIdx := s.lenIdx + BitVec.ofNat 9 (3 + x.toNat) })) ∧
  (∀ x : BitVec 3,
    s.lenIdx.toNat + (3 + x.toNat) ≤ total s →
      ∃ ls : Vector CodeLen 320,
        (∀ j < 320, ls.toList.getD j 0 =
          if s.lenIdx.toNat ≤ j ∧ j < s.lenIdx.toNat + (3 + x.toNat) then 0 else s.lens.toList.getD j 0) ∧
        exec (.clZero17 x) s = .next
          (if s.lenIdx.toNat + (3 + x.toNat) = total s then
            finishHeader { s with lens := ls, lenIdx := s.lenIdx + BitVec.ofNat 9 (3 + x.toNat) }
           else { s with lens := ls, lenIdx := s.lenIdx + BitVec.ofNat 9 (3 + x.toNat) })) ∧
  (∀ x : BitVec 7,
    s.lenIdx.toNat + (11 + x.toNat) ≤ total s →
      ∃ ls : Vector CodeLen 320,
        (∀ j < 320, ls.toList.getD j 0 =
          if s.lenIdx.toNat ≤ j ∧ j < s.lenIdx.toNat + (11 + x.toNat) then 0 else s.lens.toList.getD j 0) ∧
        exec (.clZero18 x) s = .next
          (if s.lenIdx.toNat + (11 + x.toNat) = total s then
            finishHeader { s with lens := ls, lenIdx := s.lenIdx + BitVec.ofNat 9 (11 + x.toNat) }
           else { s with lens := ls, lenIdx := s.lenIdx + BitVec.ofNat 9 (11 + x.toNat) }))

/-- A run past the end of the combined array raises MalformedDynamicHeader and writes nothing. (R116.) -/
def Obligations.RunsPastTheEndRaise : Prop :=
  ∀ s : State,
    (∀ x : BitVec 2, s.lenIdx = 0 ∨ total s < s.lenIdx.toNat + (3 + x.toNat) →
      exec (.clRep16 x) s = .next { s with errCode := 5, phase := .error }) ∧
    (∀ x : BitVec 3, total s < s.lenIdx.toNat + (3 + x.toNat) →
      exec (.clZero17 x) s = .next { s with errCode := 5, phase := .error }) ∧
    (∀ x : BitVec 7, total s < s.lenIdx.toNat + (11 + x.toNat) →
      exec (.clZero18 x) s = .next { s with errCode := 5, phase := .error })

/-- Header completion splits the combined array and enters SYM when both tables build. (R118.) -/
def Obligations.HeaderCompletionSplitsAndBuilds : Prop :=
  ∀ s : State, ∃ (lit : Vector CodeLen 288) (dist : Vector CodeLen 32),
    (∀ i < 288, lit.toList.getD i 0 = if i < s.hlit.toNat + 257 then s.lens.toList.getD i 0 else 0) ∧
    (∀ d < 32, dist.toList.getD d 0 =
      if d < s.hdist.toNat + 1 then s.lens.toList.getD (s.hlit.toNat + 257 + d) 0 else 0) ∧
    ((buildTable (natLens lit) 15).isSome = true ∧ (buildTable (natLens dist) 15).isSome = true →
      finishHeader s = { s with litLens := lit, distLens := dist, phase := .sym }) ∧
    ((buildTable (natLens lit) 15).isSome = false ∨ (buildTable (natLens dist) 15).isSome = false →
      finishHeader s = { s with litLens := lit, distLens := dist, errCode := 4, phase := .error })

/-- A literal appends its byte, or raises OutputOverflow at OUT_CAP. (R122.) -/
def Obligations.LiteralAppendsItsByte : Prop :=
  ∀ (b : Byte) (s : State), s.out.wf = true →
    (s.outCap ≠ some s.outLen →
      ∃ m : Memory, exec (.lit b) s = .next { s with out := m, outLen := s.outLen + 1 } ∧
        ∀ a, m.read a = if a = s.outLen then b else s.out.read a) ∧
    (s.outCap = some s.outLen → exec (.lit b) s = .next { s with errCode := 9, phase := .error })

/-- EOB enters CHECK_FINAL; symbols 286, 287, 30 and 31 always raise InvalidHuffmanCode. (R123, R155, R158.) -/
def Obligations.EndOfBlockAndInvalidSymbols : Prop :=
  ∀ s : State,
    exec .eob s = .next { s with phase := .checkFinal } ∧
    (∀ i ∈ [Instr.inv286, Instr.inv287, Instr.invD30, Instr.invD31],
      exec i s = .next { s with errCode := 6, phase := .error }) ∧
    (∀ t bs, s.phase = .sym → litTable s = some t →
      decodeSymbol t 15 s.stream = .ok 286 bs ∨ decodeSymbol t 15 s.stream = .ok 287 bs →
      step s = .next { s with stream := bs, errCode := 6, phase := .error }) ∧
    (∀ t bs, s.phase = .dist → distTable s = some t →
      decodeSymbol t 15 s.stream = .ok 30 bs ∨ decodeSymbol t 15 s.stream = .ok 31 bs →
      step s = .next { s with stream := bs, errCode := 6, phase := .error })

/-- Each length symbol sets match_len to its base plus its extra bits and enters DIST. (R124.) -/
def Obligations.LengthSymbolsSetTheMatchLength : Prop :=
  ∀ s : State,
    EntersDist (exec .len257 s) s 3 ∧
    EntersDist (exec .len258 s) s 4 ∧
    EntersDist (exec .len259 s) s 5 ∧
    EntersDist (exec .len260 s) s 6 ∧
    EntersDist (exec .len261 s) s 7 ∧
    EntersDist (exec .len262 s) s 8 ∧
    EntersDist (exec .len263 s) s 9 ∧
    EntersDist (exec .len264 s) s 10 ∧
    (∀ x : BitVec 1, EntersDist (exec (.len265 x) s) s (11 + x.toNat)) ∧
    (∀ x : BitVec 1, EntersDist (exec (.len266 x) s) s (13 + x.toNat)) ∧
    (∀ x : BitVec 1, EntersDist (exec (.len267 x) s) s (15 + x.toNat)) ∧
    (∀ x : BitVec 1, EntersDist (exec (.len268 x) s) s (17 + x.toNat)) ∧
    (∀ x : BitVec 2, EntersDist (exec (.len269 x) s) s (19 + x.toNat)) ∧
    (∀ x : BitVec 2, EntersDist (exec (.len270 x) s) s (23 + x.toNat)) ∧
    (∀ x : BitVec 2, EntersDist (exec (.len271 x) s) s (27 + x.toNat)) ∧
    (∀ x : BitVec 2, EntersDist (exec (.len272 x) s) s (31 + x.toNat)) ∧
    (∀ x : BitVec 3, EntersDist (exec (.len273 x) s) s (35 + x.toNat)) ∧
    (∀ x : BitVec 3, EntersDist (exec (.len274 x) s) s (43 + x.toNat)) ∧
    (∀ x : BitVec 3, EntersDist (exec (.len275 x) s) s (51 + x.toNat)) ∧
    (∀ x : BitVec 3, EntersDist (exec (.len276 x) s) s (59 + x.toNat)) ∧
    (∀ x : BitVec 4, EntersDist (exec (.len277 x) s) s (67 + x.toNat)) ∧
    (∀ x : BitVec 4, EntersDist (exec (.len278 x) s) s (83 + x.toNat)) ∧
    (∀ x : BitVec 4, EntersDist (exec (.len279 x) s) s (99 + x.toNat)) ∧
    (∀ x : BitVec 4, EntersDist (exec (.len280 x) s) s (115 + x.toNat)) ∧
    (∀ x : BitVec 5, EntersDist (exec (.len281 x) s) s (131 + x.toNat)) ∧
    (∀ x : BitVec 5, EntersDist (exec (.len282 x) s) s (163 + x.toNat)) ∧
    (∀ x : BitVec 5, EntersDist (exec (.len283 x) s) s (195 + x.toNat)) ∧
    (∀ x : BitVec 5, EntersDist (exec (.len284 x) s) s (227 + x.toNat)) ∧
    EntersDist (exec .len285 s) s 258

/-- Each distance symbol sets match_dist, checks it against the output and enters COPY or ERROR. (44_symbol_decoder.md R156, 44_symbol_decoder.md R157, 44_symbol_decoder.md R159.) -/
def Obligations.DistanceSymbolsSetTheMatchDistance : Prop :=
  ∀ s : State,
    EntersCopy (exec .dist0 s) s 1 ∧
    EntersCopy (exec .dist1 s) s 2 ∧
    EntersCopy (exec .dist2 s) s 3 ∧
    EntersCopy (exec .dist3 s) s 4 ∧
    (∀ x : BitVec 1, EntersCopy (exec (.dist4 x) s) s (5 + x.toNat)) ∧
    (∀ x : BitVec 1, EntersCopy (exec (.dist5 x) s) s (7 + x.toNat)) ∧
    (∀ x : BitVec 2, EntersCopy (exec (.dist6 x) s) s (9 + x.toNat)) ∧
    (∀ x : BitVec 2, EntersCopy (exec (.dist7 x) s) s (13 + x.toNat)) ∧
    (∀ x : BitVec 3, EntersCopy (exec (.dist8 x) s) s (17 + x.toNat)) ∧
    (∀ x : BitVec 3, EntersCopy (exec (.dist9 x) s) s (25 + x.toNat)) ∧
    (∀ x : BitVec 4, EntersCopy (exec (.dist10 x) s) s (33 + x.toNat)) ∧
    (∀ x : BitVec 4, EntersCopy (exec (.dist11 x) s) s (49 + x.toNat)) ∧
    (∀ x : BitVec 5, EntersCopy (exec (.dist12 x) s) s (65 + x.toNat)) ∧
    (∀ x : BitVec 5, EntersCopy (exec (.dist13 x) s) s (97 + x.toNat)) ∧
    (∀ x : BitVec 6, EntersCopy (exec (.dist14 x) s) s (129 + x.toNat)) ∧
    (∀ x : BitVec 6, EntersCopy (exec (.dist15 x) s) s (193 + x.toNat)) ∧
    (∀ x : BitVec 7, EntersCopy (exec (.dist16 x) s) s (257 + x.toNat)) ∧
    (∀ x : BitVec 7, EntersCopy (exec (.dist17 x) s) s (385 + x.toNat)) ∧
    (∀ x : BitVec 8, EntersCopy (exec (.dist18 x) s) s (513 + x.toNat)) ∧
    (∀ x : BitVec 8, EntersCopy (exec (.dist19 x) s) s (769 + x.toNat)) ∧
    (∀ x : BitVec 9, EntersCopy (exec (.dist20 x) s) s (1025 + x.toNat)) ∧
    (∀ x : BitVec 9, EntersCopy (exec (.dist21 x) s) s (1537 + x.toNat)) ∧
    (∀ x : BitVec 10, EntersCopy (exec (.dist22 x) s) s (2049 + x.toNat)) ∧
    (∀ x : BitVec 10, EntersCopy (exec (.dist23 x) s) s (3073 + x.toNat)) ∧
    (∀ x : BitVec 11, EntersCopy (exec (.dist24 x) s) s (4097 + x.toNat)) ∧
    (∀ x : BitVec 11, EntersCopy (exec (.dist25 x) s) s (6145 + x.toNat)) ∧
    (∀ x : BitVec 12, EntersCopy (exec (.dist26 x) s) s (8193 + x.toNat)) ∧
    (∀ x : BitVec 12, EntersCopy (exec (.dist27 x) s) s (12289 + x.toNat)) ∧
    (∀ x : BitVec 13, EntersCopy (exec (.dist28 x) s) s (16385 + x.toNat)) ∧
    (∀ x : BitVec 13, EntersCopy (exec (.dist29 x) s) s (24577 + x.toNat))

/-- A copy step appends the byte match_dist before the end of the output. (R190.) -/
def Obligations.CopyStepRepeatsAnEarlierByte : Prop :=
  ∀ s : State, s.phase = .copy → s.copyRem ≠ 0 → 1 ≤ s.matchDist.toNat → s.matchDist.toNat ≤ s.outLen →
    s.out.wf = true →
    (s.outCap ≠ some s.outLen → ∃ m : Memory,
      step s = .next { s with
        out := m, outLen := s.outLen + 1, copyRem := s.copyRem - 1,
        phase := if s.copyRem = 1 then .sym else .copy } ∧
      ∀ a, m.read a = if a = s.outLen then s.out.read (s.outLen - s.matchDist.toNat) else s.out.read a) ∧
    (s.outCap = some s.outLen → step s = .next { s with errCode := 9, phase := .error })

/-- A whole back-reference copies byte by byte, reading bytes the same copy wrote. (R191.) -/
def Obligations.BackReferenceIsAByteByByteCopy : Prop :=
  ∀ s : State, s.phase = .copy → s.copyRem ≠ 0 → 1 ≤ s.matchDist.toNat → s.matchDist.toNat ≤ s.outLen →
    s.out.wf = true → (∀ c, s.outCap = some c → s.outLen + s.copyRem.toNat ≤ c) →
    ∃ m : Memory,
      runSteps s.copyRem.toNat s = .next { s with
        out := m, outLen := s.outLen + s.copyRem.toNat, copyRem := 0, phase := .sym } ∧
      (∀ a < s.outLen, m.read a = s.out.read a) ∧
      (∀ i < s.copyRem.toNat, m.read (s.outLen + i) = m.read (s.outLen + i - s.matchDist.toNat))

/-- Every copy reads an existing byte at most 32768 bytes back. (20_memory.md R52.) -/
def Obligations.CopyStaysInsideTheWindow : Prop :=
  ∀ s : State, Inv s → s.phase = .copy →
    ∃ a, copySource s = some a ∧ a < s.outLen ∧ s.outLen ≤ a + 32768

/-- The final check ends the session or returns to the header. (R203.) -/
def Obligations.FinalCheckEndsOrContinues : Prop :=
  ∀ s : State, s.phase = .checkFinal →
    (s.bfinal = true → step s = .next { s with
      stream := { s.stream with inPos := (s.stream.pos + 7) / 8, bitOff := 0 }
      inConsumed := (s.stream.pos + 7) / 8
      phase := .done }) ∧
    (s.bfinal = false → step s = .next { s with phase := .hdr })

/-- IDLE, DONE and ERROR hold until the host acts. The spec gives them no step; that the model's step answers the same state there is its reading, log entry 9. (45_block_dispatcher.md R194, 45_block_dispatcher.md R204, 60_exceptions.md R219.) -/
def Obligations.QuiescentPhasesNeverChange : Prop :=
  ∀ (s : State) (n : Nat), s.phase = .idle ∨ s.phase = .done ∨ s.phase = .error → runSteps n s = .next s

/-- In a decoding phase a step is exec of the instruction the decoder reads at the cursor. (45_block_dispatcher.md R194, 43_dynamic_header.md section 2, 44_symbol_decoder.md section 1.) -/
def Obligations.StepRunsTheDecodedInstruction : Prop :=
  ∀ (s : State) (sp : Space) (t : CodeTable), s.phase = spacePhase sp → spaceTable sp s = some t →
    (∀ i bs, decode sp t s.stream = .ok (.ok i) bs → step s = exec i { s with stream := bs }) ∧
    (∀ k bs, decode sp t s.stream = .raise k bs → ∃ f : Bool, (sp ≠ .hdr → f = s.bfinal) ∧
      step s = .next { s with stream := bs, bfinal := f, errCode := errorCode k, phase := .error })

/-- Decoding the encoding of any well-formed instruction gives it back, every operand included. (30_encoding.md R70, 30_encoding.md R74, 41_huffman.md R100.) -/
def Obligations.DecodeReadsBackEncode : Prop :=
  ∀ (s : State) (i : Instr) (t : CodeTable) (rest : List Bool),
    spaceTable (opSpace i) s = some t → wellFormed (codeLens s) i = true →
    s.stream.remaining = encode t i ++ rest →
    decode (opSpace i) t s.stream = .ok (.ok i) (s.stream.seek (s.stream.pos + (encode t i).length))

/-- A few words written out from the encodings decode to their instructions. (30_encoding.md section 1, 42_fixed_tables.md R104, 42_fixed_tables.md R105.) -/
def Obligations.DecodeOfWrittenOutWords : Prop :=
  let lit := (buildTable (natLens (padLens 288 fixedLit)) 15).getD []
  let dist := (buildTable (natLens (padLens 32 fixedDist)) 15).getD []
  decode .llSym lit ⟨[(0, 0x8E)], 1, .eof, 0, 0⟩ = .ok (.ok (.lit 0x41)) ⟨[(0, 0x8E)], 1, .eof, 1, 0⟩ ∧
  decode .llSym lit ⟨[], 1, .eof, 0, 0⟩ = .ok (.ok .eob) ⟨[], 1, .eof, 0, 7⟩ ∧
  decode .llSym lit ⟨[(0, 0x23), (1, 0x1F)], 2, .eof, 0, 0⟩ =
    .ok (.ok (.len284 31)) ⟨[(0, 0x23), (1, 0x1F)], 2, .eof, 1, 5⟩ ∧
  decode .dSym dist ⟨[(0, 0xF7), (1, 0xFF), (2, 0x03)], 3, .eof, 0, 0⟩ =
    .ok (.ok (.dist29 8191)) ⟨[(0, 0xF7), (1, 0xFF), (2, 0x03)], 3, .eof, 2, 2⟩ ∧
  decode .hdr [] ⟨[(0, 0x05)], 1, .eof, 0, 0⟩ = .ok (.ok (.blkDynamic true)) ⟨[(0, 0x05)], 1, .eof, 0, 3⟩

/-- The invariant holds at reset. (10_state.md section 13.) -/
def Obligations.InvariantHoldsAtReset : Prop :=
  Inv State.reset

/-- Every step keeps the invariant. (10_state.md, 45_block_dispatcher.md section 1.) -/
def Obligations.StepKeepsTheInvariant : Prop :=
  ∀ s s' : State, Inv s → step s = .next s' → Inv s'

/-- Every host action keeps the invariant. For a host that changes the input while a session runs this rests on the model's choice to end that session at once with a well-formed free result, log entry 3. (60_exceptions.md section 3, 70_reset_and_hazards.md.) -/
def Obligations.HostActionsKeepTheInvariant : Prop :=
  ∀ (act : HostAction) (s s' : State), Inv s → hostAct act s = .next s' → Inv s'

/-- No fault and no refusal is reachable: every invariant state has a next state. In IDLE, DONE and ERROR, which the spec gives no step, that next state is the model's reading, log entry 9. (20_memory.md R51, 45_block_dispatcher.md R206, 60_exceptions.md R208.) -/
def Obligations.InvariantStatesAlwaysStep : Prop :=
  ∀ s : State, Inv s → ∃ s', step s = .next s'

/-- Every state an interleaving of steps and host actions reaches meets the invariant and can step. That the quiescent phases answer a next state is the model's reading, log entry 9; a host that changes the input while a session runs is log entry 3. (45_block_dispatcher.md R194, 70_reset_and_hazards.md.) -/
def Obligations.ReachableStatesMeetTheInvariant : Prop :=
  ∀ s : State, Reachable s → Inv s ∧ ∃ s', step s = .next s'

/-- Every session reaches DONE or ERROR within 260 * (8 * IN_LEN + 1) steps. (R206.) -/
def Obligations.EverySessionEnds : Prop :=
  (∀ s s' : State, Inv s → busy s = true → step s = .next s' →
      (s.phase ≠ .copy → s.phase ≠ .checkFinal → s.stream.pos < s'.stream.pos ∨ s'.phase = .error) ∧
      (s.phase = .copy → s.copyRem.toNat ≤ 258) ∧
      (s'.phase = .copy → s.phase = .copy ∨ s.phase = .dist ∧ s.stream.pos < s'.stream.pos) ∧
      (s'.phase = .checkFinal → s.stream.pos < s'.stream.pos)) ∧
    ∀ s : State, Inv s → busy s = false →
      ∃ n t, n ≤ 260 * (8 * s.stream.len + 1) ∧ runSteps n (startSession s) = .next t ∧
        (t.phase = .done ∨ t.phase = .error)

/-- Two sessions on the same input and parameters give the same observation, whatever came before. (R207.) -/
def Obligations.SessionsDependOnlyOnTheirArguments : Prop :=
  ∀ (s s' : State) (n : Nat), busy s = false → busy s' = false →
    s'.stream.bytes = s.stream.bytes → s'.stream.len = s.stream.len → s'.stream.srcEnd = s.stream.srcEnd →
    s'.outCap = s.outCap →
    (∀ t, runSteps n (hostWriteReg 0 1 s) = .next t →
      ∃ t', runSteps n (hostWriteReg 0 1 s') = .next t' ∧ t' = { t with freeTick := t'.freeTick } ∧
        observation t' = observation t)

/-- No step moves the cursor back or changes the input, its length, its end or the capacity. (10_state.md R26, 20_memory.md R48, 20_memory.md R49.) -/
def Obligations.CursorNeverMovesBack : Prop :=
  ∀ s s' : State, step s = .next s' →
    s.stream.pos ≤ s'.stream.pos ∧ s'.stream.bytes = s.stream.bytes ∧ s'.stream.len = s.stream.len ∧
      s'.stream.srcEnd = s.stream.srcEnd ∧ s'.outCap = s.outCap

/-- A step appends at most one byte and changes no byte already there. (10_state.md R36.) -/
def Obligations.OutputIsAppendOnly : Prop :=
  (∀ s s' : State, s.out.wf = true → step s = .next s' →
      ((s'.out = s.out ∧ s'.outLen = s.outLen) ∨ s'.outLen = s.outLen + 1) ∧
      (∀ a < s.outLen, s'.out.read a = s.out.read a)) ∧
    State.reset.out = [] ∧ State.reset.outLen = 0

/-- Each register changes only in the phases whose rule writes it. (10_state.md R24, 10_state.md R28, 10_state.md R29, 10_state.md R35, 10_state.md R37, 10_state.md R41.) -/
def Obligations.EachRegisterHasItsWriters : Prop :=
  ∀ s s' : State, step s = .next s' →
    (s.phase ≠ .hdr → s'.bfinal = s.bfinal ∧ s'.btype = s.btype) ∧
    (s.phase ≠ .storedLen → s.phase ≠ .storedCopy → s'.storedRem = s.storedRem) ∧
    (s.phase ≠ .dynCounts → s'.hlit = s.hlit ∧ s'.hdist = s.hdist ∧ s'.hclen = s.hclen) ∧
    (s.phase ≠ .dynCounts → s.phase ≠ .dynClLen → s'.clLen = s.clLen ∧ s'.clIdx = s.clIdx) ∧
    (s.phase ≠ .dynCounts → s.phase ≠ .dynLens → s'.lens = s.lens ∧ s'.lenIdx = s.lenIdx) ∧
    (s.phase ≠ .hdr → s.phase ≠ .dynLens → s'.litLens = s.litLens ∧ s'.distLens = s.distLens) ∧
    (s.phase ≠ .sym → s'.matchLen = s.matchLen) ∧
    (s.phase ≠ .dist → s'.matchDist = s.matchDist) ∧
    (s.phase ≠ .dist → s.phase ≠ .copy → s'.copyRem = s.copyRem) ∧
    (s.phase ≠ .storedCopy → s.phase ≠ .sym → s.phase ≠ .copy → s'.out = s.out ∧ s'.outLen = s.outLen) ∧
    (s.phase ≠ .checkFinal → s'.inConsumed = s.inConsumed) ∧
    (s'.phase ≠ .error → s'.errCode = s.errCode) ∧
    s'.freeTick = s.freeTick

/-- Each error code is raised only for its cause. (60_exceptions.md R209, 60_exceptions.md R210, 60_exceptions.md R211, 60_exceptions.md R212, 60_exceptions.md R213, 60_exceptions.md R214, 60_exceptions.md R215, 60_exceptions.md R216, 60_exceptions.md R217.) -/
def Obligations.ErrorsComeFromTheirCauses : Prop :=
  ∀ s s' : State, Inv s → s.phase ≠ .error → step s = .next s' →
    (s'.errCode = 1 → s.stream.srcEnd = .eof ∧ 8 * s.stream.len ≤ s'.stream.pos) ∧
    (s'.errCode = 8 → s.stream.srcEnd = .ioError ∧ 8 * s.stream.len ≤ s'.stream.pos) ∧
    (s'.errCode = 2 → s.phase = .hdr ∧ s.stream.pos + 3 ≤ 8 * s.stream.len ∧
      s.stream.bitAt (s.stream.pos + 1) = true ∧ s.stream.bitAt (s.stream.pos + 2) = true) ∧
    (s'.errCode = 3 → s.phase = .storedLen ∧ ∃ len nlen bs, s.stream.align.readBits 16 = .ok len bs ∧
      bs.readBits 16 = .ok nlen s'.stream ∧ nlen ≠ len ^^^ 0xFFFF) ∧
    (s'.errCode = 4 →
      (s.phase = .dynClLen ∧ s'.clIdx.toNat = s.hclen.toNat + 4 ∧ overSubscribed (natLens s'.clLen) 7) ∨
      (s.phase = .dynLens ∧ s'.lenIdx.toNat = total s ∧
        (overSubscribed (natLens s'.litLens) 15 ∨ overSubscribed (natLens s'.distLens) 15))) ∧
    (s'.errCode = 5 → s.phase = .dynLens ∧ ∃ t i, clTable s = some t ∧
      decode .clSym t s.stream = .ok (.ok i) s'.stream ∧
      ((∃ x : BitVec 2, i = .clRep16 x ∧ (s.lenIdx = 0 ∨ total s < s.lenIdx.toNat + (3 + x.toNat))) ∨
       (∃ x : BitVec 3, i = .clZero17 x ∧ total s < s.lenIdx.toNat + (3 + x.toNat)) ∨
       (∃ x : BitVec 7, i = .clZero18 x ∧ total s < s.lenIdx.toNat + (11 + x.toNat)))) ∧
    (s'.errCode = 6 → ∃ sp t, sp ≠ .hdr ∧ s.phase = spacePhase sp ∧ spaceTable sp s = some t ∧
      (decodeSymbol t (spaceMaxBits sp) s.stream = .raise .invalidHuffmanCode s'.stream ∨
       ∃ v, decodeSymbol t (spaceMaxBits sp) s.stream = .ok v s'.stream ∧
        (sp = .llSym ∧ 286 ≤ v ∨ sp = .dSym ∧ 30 ≤ v))) ∧
    (s'.errCode = 7 → s.phase = .dist ∧ s.outLen < s'.matchDist.toNat ∧ ∃ t i, distTable s = some t ∧
      decode .dSym t s.stream = .ok (.ok i) s'.stream ∧ s'.matchDist.toNat = distBase (opValue i) + opExtra i) ∧
    (s'.errCode = 9 → s.outCap = some s.outLen ∧ (s.phase = .storedCopy ∨ s.phase = .copy ∨
      s.phase = .sym ∧ ∃ t b, litTable s = some t ∧ decode .llSym t s.stream = .ok (.ok (.lit b)) s'.stream))
end

