-- ==== Sys2Proof/Laws/Stream.lean ====
section
/-! SUPPORT. What the BitStream operations do, said once: every read leaves the stream at a later cursor of the same
source, reads the bits in order, and fails only where the input ends. -/

namespace Sys2Proof.Machine

theorem BitStream.bitOff_lt (bs : BitStream) : bs.bitOff.toNat < 8 := bs.bitOff.isLt

@[simp] theorem BitStream.seek_bytes (bs : BitStream) (p : Nat) : (bs.seek p).bytes = bs.bytes := rfl
@[simp] theorem BitStream.seek_len (bs : BitStream) (p : Nat) : (bs.seek p).len = bs.len := rfl
@[simp] theorem BitStream.seek_srcEnd (bs : BitStream) (p : Nat) : (bs.seek p).srcEnd = bs.srcEnd := rfl
@[simp] theorem BitStream.seek_bitAt (bs : BitStream) (p k : Nat) : (bs.seek p).bitAt k = bs.bitAt k := rfl
@[simp] theorem BitStream.seek_seek (bs : BitStream) (p q : Nat) : (bs.seek p).seek q = bs.seek q := rfl

@[simp] theorem BitStream.seek_pos (bs : BitStream) (p : Nat) : (bs.seek p).pos = p := by
  simp [BitStream.seek, BitStream.pos]
  omega

@[simp] theorem BitStream.seek_self (bs : BitStream) : bs.seek bs.pos = bs := by
  obtain ⟨bytes, len, srcEnd, inPos, bitOff⟩ := bs
  have h : bitOff.toNat < 8 := bitOff.isLt
  simp only [BitStream.seek, BitStream.pos, BitStream.mk.injEq, true_and]
  refine ⟨by omega, ?_⟩
  apply BitVec.eq_of_toNat_eq
  simp
  omega

theorem BitStream.pos_div (bs : BitStream) : bs.pos / 8 = bs.inPos := by
  have := bs.bitOff_lt
  unfold BitStream.pos; omega

theorem BitStream.pos_mod (bs : BitStream) : bs.pos % 8 = bs.bitOff.toNat := by
  have := bs.bitOff_lt
  unfold BitStream.pos; omega

theorem BitStream.pos_lt_iff (bs : BitStream) : bs.pos < 8 * bs.len ↔ bs.inPos < bs.len := by
  have := bs.bitOff_lt
  unfold BitStream.pos; omega

theorem BitStream.advance_eq_seek (bs : BitStream) : bs.advance = bs.seek (bs.pos + 1) := by
  obtain ⟨bytes, len, srcEnd, inPos, bitOff⟩ := bs
  have h : bitOff.toNat < 8 := bitOff.isLt
  by_cases hb : bitOff = 7
  · subst hb
    simp only [BitStream.advance, BitStream.seek, BitStream.pos, if_true, BitStream.mk.injEq, true_and]
    exact ⟨by simp; omega, by apply BitVec.eq_of_toNat_eq; simp; omega⟩
  · have h7 : bitOff.toNat ≠ 7 := fun h7 => hb (BitVec.eq_of_toNat_eq h7)
    simp only [BitStream.advance, BitStream.seek, BitStream.pos, hb, if_false, BitStream.mk.injEq, true_and]
    exact ⟨by omega, by apply BitVec.eq_of_toNat_eq; simp; omega⟩

/-- `ReadBit` in terms of the stream bit position. -/
theorem BitStream.readBit_of_lt {bs : BitStream} (h : bs.pos < 8 * bs.len) :
    bs.readBit = .ok (bs.bitAt bs.pos) (bs.seek (bs.pos + 1)) := by
  simp [readBit, memRead, bs.pos_lt_iff.mp h, advance_eq_seek, bitAt, pos_div, pos_mod]

theorem BitStream.readBit_of_le {bs : BitStream} (h : 8 * bs.len ≤ bs.pos) :
    bs.readBit = .raise (endError bs.srcEnd) bs := by
  have : ¬ bs.inPos < bs.len := fun hlt => absurd (bs.pos_lt_iff.mpr hlt) (by omega)
  simp [readBit, memRead, this]

/-- Everything `ReadBits(n)` can answer. -/
theorem BitStream.readBits_cases (n : Nat) (bs : BitStream) :
    (∃ v, v < 2 ^ n ∧ (n = 0 ∨ bs.pos + n ≤ 8 * bs.len) ∧ bs.readBits n = .ok v (bs.seek (bs.pos + n))) ∨
    (∃ p, bs.pos ≤ p ∧ 8 * bs.len ≤ p ∧ p < bs.pos + n ∧ (p = bs.pos ∨ p = 8 * bs.len) ∧
      bs.readBits n = .raise (endError bs.srcEnd) (bs.seek p)) := by
  induction n generalizing bs with
  | zero => exact .inl ⟨0, by simp, .inl rfl, by simp [readBits]⟩
  | succ n ih =>
    by_cases h : bs.pos < 8 * bs.len
    · rcases ih (bs.seek (bs.pos + 1)) with ⟨v, hv, hn, hr⟩ | ⟨p, h1, h2, h3, h4, hr⟩
      · refine .inl ⟨(bs.bitAt bs.pos).toNat + 2 * v, ?_, .inr ?_, ?_⟩
        · have := Bool.toNat_le (bs.bitAt bs.pos)
          rw [Nat.pow_succ]; omega
        · rcases hn with rfl | hn
          · omega
          · simp at hn; omega
        · simp [readBits, readBit_of_lt h, hr, Nat.add_comm 1 n, Nat.add_assoc]
      · simp at h1 h2 h3 h4
        exact .inr ⟨p, by omega, h2, by omega, by omega, by simp [readBits, readBit_of_lt h, hr]⟩
    · exact .inr ⟨bs.pos, le_rfl, by omega, by omega, .inl rfl, by simp [readBits, readBit_of_le (Nat.le_of_not_lt h)]⟩

/-- What a successful `ReadBits(n)` says. -/
theorem BitStream.readBits_ok {n : Nat} {bs bs' : BitStream} {v : Nat} (h : bs.readBits n = .ok v bs') :
    v < 2 ^ n ∧ bs' = bs.seek (bs.pos + n) ∧ (n = 0 ∨ bs.pos + n ≤ 8 * bs.len) := by
  rcases bs.readBits_cases n with ⟨w, hw, hn, hr⟩ | ⟨p, -, -, -, -, hr⟩
  · rw [hr] at h; cases h; exact ⟨hw, rfl, hn⟩
  · rw [hr] at h; cases h

/-- What a failing `ReadBits(n)` says. -/
theorem BitStream.readBits_raise {n : Nat} {bs bs' : BitStream} {k : ErrKind} (h : bs.readBits n = .raise k bs') :
    k = endError bs.srcEnd ∧ ∃ p, bs.pos ≤ p ∧ bs' = bs.seek p := by
  rcases bs.readBits_cases n with ⟨w, hw, hn, hr⟩ | ⟨p, hp, -, -, -, hr⟩
  · rw [hr] at h; cases h
  · rw [hr] at h; cases h; exact ⟨rfl, p, hp, rfl⟩

/-! ## The bits still to read -/

theorem BitStream.remaining_of_lt {bs : BitStream} (h : bs.pos < 8 * bs.len) :
    bs.remaining = bs.bitAt bs.pos :: (bs.seek (bs.pos + 1)).remaining := by
  obtain ⟨n, hn⟩ : ∃ n, 8 * bs.len - bs.pos = n + 1 := ⟨8 * bs.len - bs.pos - 1, by omega⟩
  have hn' : 8 * bs.len - (bs.pos + 1) = n := by omega
  simp [remaining, hn, hn', List.range_succ_eq_map, Nat.add_comm 1, Nat.add_assoc, Function.comp_def]

theorem BitStream.remaining_of_le {bs : BitStream} (h : 8 * bs.len ≤ bs.pos) : bs.remaining = [] := by
  simp [remaining, h]

/-- A stream with a bit to read: where it stands and what the bit is. -/
theorem BitStream.remaining_eq_cons {bs : BitStream} {b : Bool} {rest : List Bool} (h : bs.remaining = b :: rest) :
    bs.pos < 8 * bs.len ∧ bs.bitAt bs.pos = b ∧ (bs.seek (bs.pos + 1)).remaining = rest := by
  by_cases hlt : bs.pos < 8 * bs.len
  · rw [remaining_of_lt hlt] at h
    cases h
    exact ⟨hlt, rfl, rfl⟩
  · rw [remaining_of_le (by omega)] at h; cases h

theorem BitStream.readBit_of_remaining {bs : BitStream} {b : Bool} {rest : List Bool}
    (h : bs.remaining = b :: rest) : bs.readBit = .ok b (bs.seek (bs.pos + 1)) := by
  obtain ⟨hlt, hb, -⟩ := remaining_eq_cons h
  rw [readBit_of_lt hlt, hb]

theorem BitStream.remaining_seek_append {bs : BitStream} {bits rest : List Bool} (h : bs.remaining = bits ++ rest) :
    (bs.seek (bs.pos + bits.length)).remaining = rest := by
  induction bits generalizing bs with
  | nil => simpa using h
  | cons b bits ih =>
    have := ih (remaining_eq_cons h).2.2
    simpa [Nat.add_comm 1, Nat.add_assoc] using this

/-- `ReadBits` reads the next bits, the first as bit 0 (R56). -/
theorem BitStream.readBits_of_remaining {bs : BitStream} {bits rest : List Bool} (h : bs.remaining = bits ++ rest) :
    bs.readBits bits.length = .ok (bitsValue bits) (bs.seek (bs.pos + bits.length)) := by
  induction bits generalizing bs with
  | nil => simp [readBits, bitsValue]
  | cons b bits ih =>
    have := ih (remaining_eq_cons h).2.2
    simp only [List.length_cons, readBits, readBit_of_remaining h, this, bitsValue]
    simp [Nat.add_comm 1, Nat.add_assoc]

@[simp] theorem fieldBits_length (n v : Nat) : (fieldBits n v).length = n := by
  induction n generalizing v with
  | zero => rfl
  | succ n ih => simp [fieldBits, ih]

@[simp] theorem codeBits_length (l c : Nat) : (codeBits l c).length = l := by simp [codeBits]

/-- A field's bits have the field's value. -/
theorem bitsValue_fieldBits {n v : Nat} (h : v < 2 ^ n) : bitsValue (fieldBits n v) = v := by
  induction n generalizing v with
  | zero => simp [fieldBits, bitsValue]; simp at h; omega
  | succ n ih =>
    rw [fieldBits, bitsValue, ih (by rw [Nat.pow_succ] at h; omega), Nat.testBit_zero]
    by_cases hv : v % 2 = 1 <;> simp [hv] <;> omega

/-! ## Alignment -/

theorem BitStream.align_eq_seek (bs : BitStream) : bs.align = bs.seek (8 * ((bs.pos + 7) / 8)) := by
  obtain ⟨bytes, len, srcEnd, inPos, bitOff⟩ := bs
  have h : bitOff.toNat < 8 := bitOff.isLt
  by_cases hb : bitOff = 0
  · subst hb
    simp [BitStream.align, BitStream.seek, BitStream.pos]
    omega
  · have h0 : bitOff.toNat ≠ 0 := fun h0 => hb (BitVec.eq_of_toNat_eq h0)
    simp only [BitStream.align, BitStream.seek, BitStream.pos, hb, if_false, BitStream.mk.injEq, true_and]
    exact ⟨by omega, by apply BitVec.eq_of_toNat_eq; simp⟩

theorem BitStream.pos_le_align (bs : BitStream) : bs.pos ≤ bs.align.pos := by
  rw [align_eq_seek, seek_pos]; omega

end Sys2Proof.Machine
end

