-- ==== Sys2Proof/Laws/Huffman.lean ====
section
/-! SUPPORT. What Build and DecodeSymbol do, said once: the entries of a table come from its code-length array, and a
decode answers a symbol of the table or one of two errors, at a later cursor of the same source. -/

namespace Sys2Proof.Machine

/-- `bs'` is `bs` with its cursor at or after where it was, inside the input when it was inside. -/
def BitStream.Moved (bs bs' : BitStream) : Prop :=
  ∃ p, bs' = bs.seek p ∧ bs.pos ≤ p ∧ (bs.pos ≤ 8 * bs.len → p ≤ 8 * bs.len)

theorem BitStream.Moved.refl (bs : BitStream) : bs.Moved bs := ⟨bs.pos, by simp, le_rfl, id⟩

theorem BitStream.Moved.trans {a b c : BitStream} (h : a.Moved b) (h' : b.Moved c) : a.Moved c := by
  obtain ⟨p, rfl, hp, hpl⟩ := h
  obtain ⟨q, rfl, hq, hql⟩ := h'
  simp only [seek_pos, seek_len, seek_seek] at *
  exact ⟨q, rfl, hp.trans hq, fun h => hql (hpl h)⟩

theorem BitStream.Moved.source {a b : BitStream} (h : a.Moved b) :
    b.bytes = a.bytes ∧ b.len = a.len ∧ b.srcEnd = a.srcEnd ∧ a.pos ≤ b.pos := by
  obtain ⟨p, rfl, hp, -⟩ := h
  simpa using hp

theorem BitStream.Moved.inside {a b : BitStream} (h : a.Moved b) (ha : a.pos ≤ 8 * a.len) : b.pos ≤ 8 * b.len := by
  obtain ⟨p, rfl, -, hpl⟩ := h
  simpa using hpl ha

theorem BitStream.readBits_moved {n : Nat} {bs bs' : BitStream} {v : Nat} (h : bs.readBits n = .ok v bs') :
    bs.Moved bs' := by
  obtain ⟨-, rfl, hn⟩ := readBits_ok h
  exact ⟨_, rfl, by omega, fun _ => by omega⟩

theorem BitStream.readBits_raise_moved {n : Nat} {bs bs' : BitStream} {k : ErrKind}
    (h : bs.readBits n = .raise k bs') : k = endError bs.srcEnd ∧ bs.Moved bs' := by
  rcases bs.readBits_cases n with ⟨w, hw, hn, hr⟩ | ⟨p, h1, h2, h3, h4, hr⟩
  · rw [hr] at h; cases h
  · rw [hr] at h; cases h
    exact ⟨rfl, p, rfl, h1, fun _ => by omega⟩

theorem BitStream.align_moved (bs : BitStream) : bs.Moved bs.align :=
  ⟨_, bs.align_eq_seek, by omega, fun _ => by omega⟩

/-- Everything the walk of `DecodeSymbol` can answer. -/
theorem decodeWalk_cases (fuel len code : Nat) (node : CodeTable) (bs : BitStream) :
    (∃ e ∈ node, ∃ bs', decodeWalk fuel len code node bs = .ok e.sym bs' ∧ bs.Moved bs' ∧ bs.pos < bs'.pos) ∨
    (∃ k bs', decodeWalk fuel len code node bs = .raise k bs' ∧ bs.Moved bs' ∧
      (k = endError bs.srcEnd ∨ k = .invalidHuffmanCode)) := by
  induction fuel generalizing len code node bs with
  | zero => exact .inr ⟨_, _, rfl, .refl _, .inr rfl⟩
  | succ fuel ih =>
    by_cases h : bs.pos < 8 * bs.len
    · have hm : bs.Moved (bs.seek (bs.pos + 1)) := ⟨_, rfl, by omega, fun _ => by omega⟩
      rw [decodeWalk, BitStream.readBit_of_lt h]
      dsimp only
      cases hf : node.filter fun e => e.beginsWith (len + 1) (2 * code + (bs.bitAt bs.pos).toNat) with
      | nil => exact .inr ⟨_, _, rfl, hm, .inr rfl⟩
      | cons e rest =>
        have hsub : ∀ x ∈ e :: rest, x ∈ node := fun x hx => (List.mem_filter.mp (hf ▸ hx)).1
        dsimp only
        cases hl : (e :: rest).find? fun e' => e'.len == len + 1 with
        | some leaf =>
          exact .inl ⟨leaf, hsub _ (List.mem_of_find?_eq_some hl), _, rfl, hm, by simp⟩
        | none =>
          rcases ih (len + 1) (2 * code + (bs.bitAt bs.pos).toNat) (e :: rest) (bs.seek (bs.pos + 1)) with
            ⟨x, hx, bs', hr, hm', hlt⟩ | ⟨k, bs', hr, hm', hk⟩
          · exact .inl ⟨x, hsub _ hx, bs', hr, hm.trans hm', by simp at hlt; omega⟩
          · exact .inr ⟨k, bs', hr, hm.trans hm', hk⟩
    · rw [decodeWalk, BitStream.readBit_of_le (Nat.le_of_not_lt h)]
      exact .inr ⟨_, _, rfl, .refl _, .inl rfl⟩

/-- What a successful `DecodeSymbol` says. -/
theorem decodeSymbol_ok {t : CodeTable} {maxbits sym : Nat} {bs bs' : BitStream}
    (h : decodeSymbol t maxbits bs = .ok sym bs') :
    (∃ e ∈ t, e.sym = sym) ∧ bs.Moved bs' ∧ bs.pos < bs'.pos := by
  rcases decodeWalk_cases maxbits 0 0 t bs with ⟨e, he, bs'', hr, hm, hlt⟩ | ⟨k, bs'', hr, -, -⟩ <;>
    rw [decodeSymbol, hr] at h <;> cases h
  exact ⟨⟨e, he, rfl⟩, hm, hlt⟩

/-- What a failing `DecodeSymbol` says. -/
theorem decodeSymbol_raise {t : CodeTable} {maxbits : Nat} {bs bs' : BitStream} {k : ErrKind}
    (h : decodeSymbol t maxbits bs = .raise k bs') :
    bs.Moved bs' ∧ (k = endError bs.srcEnd ∨ k = .invalidHuffmanCode) := by
  rcases decodeWalk_cases maxbits 0 0 t bs with ⟨e, he, bs'', hr, -, -⟩ | ⟨k, bs'', hr, hm, hk⟩ <;>
    rw [decodeSymbol, hr] at h <;> cases h
  exact ⟨hm, hk⟩

/-- An entry of an assignment from symbol `s` on: its symbol is one of the array's, its length that symbol's. -/
theorem mem_assignFrom {s : Nat} {next lens : List Nat} {e : CodeEntry} (h : e ∈ assignFrom s next lens) :
    s ≤ e.sym ∧ e.sym < s + lens.length ∧ e.len ≠ 0 ∧ lens.getD (e.sym - s) 0 = e.len := by
  induction lens generalizing s next with
  | nil => cases h
  | cons l rest ih =>
    have shift : ∀ {x : CodeEntry}, (s + 1 ≤ x.sym ∧ x.sym < s + 1 + rest.length ∧ x.len ≠ 0 ∧
        rest.getD (x.sym - (s + 1)) 0 = x.len) →
        s ≤ x.sym ∧ x.sym < s + (l :: rest).length ∧ x.len ≠ 0 ∧ (l :: rest).getD (x.sym - s) 0 = x.len := by
      rintro x ⟨h1, h2, h3, h4⟩
      refine ⟨by omega, by simp; omega, h3, ?_⟩
      rwa [show x.sym - s = (x.sym - (s + 1)) + 1 by omega, List.getD_cons_succ]
    unfold assignFrom at h
    split at h
    · exact shift (ih h)
    · rcases List.mem_cons.mp h with rfl | h
      · simpa
      · exact shift (ih h)

/-- A built table's symbols are symbols of its array, each with its length. -/
theorem mem_buildTable {lens : List Nat} {maxbits : Nat} {t : CodeTable} (ht : buildTable lens maxbits = some t)
    {e : CodeEntry} (he : e ∈ t) : e.sym < lens.length ∧ e.len ≠ 0 ∧ lens.getD e.sym 0 = e.len := by
  unfold buildTable at ht
  split at ht
  · cases ht
    simpa using mem_assignFrom he
  · cases ht

end Sys2Proof.Machine
end

