-- ==== Sys2Proof/Laws/Memory.lean ====
section
/-! SUPPORT. The laws of byte memory: read after write, and that every operation keeps the canonical form. -/

namespace Sys2Proof.Machine

@[simp] theorem Memory.read_nil (a : Nat) : Memory.read [] a = Memory.unlisted := rfl

@[simp] theorem Memory.read_cell (k : Nat) (b : Byte) (rest : Memory) (a : Nat) :
    Memory.read ((k, b) :: rest) a = if k = a then b else Memory.read rest a := rfl

@[simp] theorem Memory.wfFrom_nil (lo : Nat) : Memory.wfFrom lo [] = true := rfl

@[simp] theorem Memory.wfFrom_cell (lo k : Nat) (v : Byte) (rest : Memory) :
    Memory.wfFrom lo ((k, v) :: rest) = true ↔ lo ≤ k ∧ v ≠ Memory.unlisted ∧ Memory.wfFrom (k + 1) rest = true := by
  simp [Memory.wfFrom, and_assoc]

theorem Memory.wfFrom_mono {lo lo' : Nat} {m : Memory} (h : lo' ≤ lo) (hm : m.wfFrom lo = true) :
    m.wfFrom lo' = true := by
  cases m with
  | nil => rfl
  | cons c rest =>
    obtain ⟨k, v⟩ := c
    simp only [wfFrom_cell] at hm ⊢
    exact ⟨h.trans hm.1, hm.2⟩

/-- Below its first address a canonical memory lists nothing. -/
theorem Memory.read_of_lt {lo : Nat} {m : Memory} (hm : m.wfFrom lo = true) {a : Nat} (h : a < lo) :
    m.read a = Memory.unlisted := by
  induction m generalizing lo with
  | nil => rfl
  | cons c rest ih =>
    obtain ⟨k, v⟩ := c
    simp only [wfFrom_cell] at hm
    rw [read_cell, if_neg (by omega), ih hm.2.2 (by omega)]

theorem Memory.cons_wfFrom {lo a : Nat} {b : Byte} {rest : Memory} (h : lo ≤ a) (hr : rest.wfFrom (a + 1) = true) :
    (Memory.cons a b rest).wfFrom lo = true := by
  unfold Memory.cons
  split
  · exact wfFrom_mono (by omega) hr
  · simp [*]

theorem Memory.read_cons {a : Nat} {b : Byte} {rest : Memory} (hr : rest.wfFrom (a + 1) = true) (x : Nat) :
    (Memory.cons a b rest).read x = if x = a then b else rest.read x := by
  unfold Memory.cons
  split
  · rename_i hb
    split
    · subst hb; subst x; exact read_of_lt hr (by omega)
    · rfl
  · simp only [read_cell, eq_comm]

/-- A write keeps the canonical form. -/
theorem Memory.write_wfFrom {lo : Nat} {m : Memory} (hm : m.wfFrom lo = true) {a : Nat} (h : lo ≤ a) (b : Byte) :
    (m.write a b).wfFrom lo = true := by
  induction m generalizing lo with
  | nil => exact cons_wfFrom h rfl
  | cons c rest ih =>
    obtain ⟨k, v⟩ := c
    have hm' := hm
    simp only [wfFrom_cell] at hm'
    unfold Memory.write
    split
    · exact cons_wfFrom h (by simp; exact ⟨by omega, hm'.2⟩)
    · split
      · subst a; exact cons_wfFrom h hm'.2.2
      · rw [wfFrom_cell]; exact ⟨hm'.1, hm'.2.1, ih hm'.2.2 (by omega)⟩

theorem Memory.write_wf {m : Memory} (hm : m.wf = true) (a : Nat) (b : Byte) : (m.write a b).wf = true :=
  write_wfFrom hm (Nat.zero_le a) b

/-- Read after write, at the address written and at every other one. -/
theorem Memory.read_write {lo : Nat} {m : Memory} (hm : m.wfFrom lo = true) (a : Nat) (b : Byte) (x : Nat) :
    (m.write a b).read x = if x = a then b else m.read x := by
  induction m generalizing lo with
  | nil => exact read_cons rfl x
  | cons c rest ih =>
    obtain ⟨k, v⟩ := c
    have hm' := hm
    simp only [wfFrom_cell] at hm'
    unfold Memory.write
    split
    · exact read_cons (by simp; exact ⟨by omega, hm'.2⟩) x
    · split
      · subst a
        rw [read_cons hm'.2.2]
        simp only [read_cell]
        split
        · rfl
        · rw [if_neg (by omega)]
      · simp only [read_cell, ih hm'.2.2]
        split
        · rw [if_neg (by omega)]
        · rfl

@[simp] theorem Memory.below_nil (n : Nat) : Memory.below [] n = true := rfl

@[simp] theorem Memory.below_cell (k : Nat) (v : Byte) (rest : Memory) (n : Nat) :
    Memory.below ((k, v) :: rest) n = true ↔ k < n ∧ Memory.below rest n = true := by
  simp [Memory.below]

theorem Memory.below_mono {m : Memory} {n n' : Nat} (h : n ≤ n') (hm : m.below n = true) : m.below n' = true := by
  simp only [Memory.below, List.all_eq_true, decide_eq_true_eq] at hm ⊢
  exact fun c hc => (hm c hc).trans_le h

theorem Memory.cons_below {a n : Nat} {b : Byte} {rest : Memory} (h : a < n) (hr : rest.below n = true) :
    (Memory.cons a b rest).below n = true := by
  unfold Memory.cons
  split
  · exact hr
  · simp [*]

theorem Memory.write_below {m : Memory} {n a : Nat} (hm : m.below n = true) (h : a < n) (b : Byte) :
    (m.write a b).below n = true := by
  induction m with
  | nil => exact cons_below h rfl
  | cons c rest ih =>
    obtain ⟨k, v⟩ := c
    have hm' := hm
    rw [below_cell] at hm'
    unfold Memory.write
    split
    · exact cons_below h hm
    · split
      · exact cons_below h hm'.2
      · rw [below_cell]; exact ⟨hm'.1, ih hm'.2⟩

theorem Memory.ofBytesFrom_wfFrom (a : Nat) (bytes : List Byte) : (Memory.ofBytesFrom a bytes).wfFrom a = true := by
  induction bytes generalizing a with
  | nil => rfl
  | cons b rest ih => exact cons_wfFrom le_rfl (ih (a + 1))

theorem Memory.ofBytes_wf (bytes : List Byte) : (Memory.ofBytes bytes).wf = true := ofBytesFrom_wfFrom 0 bytes

theorem Memory.ofBytesFrom_below (a : Nat) (bytes : List Byte) :
    (Memory.ofBytesFrom a bytes).below (a + bytes.length) = true := by
  induction bytes generalizing a with
  | nil => rfl
  | cons b rest ih =>
    refine cons_below (by simp) ?_
    have := ih (a + 1)
    rwa [List.length_cons, Nat.add_comm rest.length, ← Nat.add_assoc]

/-- Placing a byte sequence and reading it back. -/
theorem Memory.read_ofBytesFrom (a : Nat) (bytes : List Byte) (i : Nat) :
    (Memory.ofBytesFrom a bytes).read (a + i) = bytes.getD i Memory.unlisted := by
  induction bytes generalizing a i with
  | nil => rfl
  | cons b rest ih =>
    rw [ofBytesFrom, read_cons (ofBytesFrom_wfFrom _ _)]
    cases i with
    | zero => simp
    | succ i =>
      rw [if_neg (by omega), show a + (i + 1) = a + 1 + i by omega, ih, List.getD_cons_succ]

/-- A byte sequence placed at address 0, read back. -/
theorem Memory.read_ofBytes (bytes : List Byte) (a : Nat) :
    (Memory.ofBytes bytes).read a = bytes.getD a Memory.unlisted := by
  have := read_ofBytesFrom 0 bytes a
  rwa [Nat.zero_add] at this

theorem Memory.ofBytes_below (bytes : List Byte) : (Memory.ofBytes bytes).below bytes.length = true := by
  have := ofBytesFrom_below 0 bytes
  rwa [Nat.zero_add] at this

/-- Past the last listed address a memory reads as unlisted. -/
theorem Memory.read_of_below {m : Memory} {n a : Nat} (hm : m.below n = true) (h : n ≤ a) :
    m.read a = Memory.unlisted := by
  induction m with
  | nil => rfl
  | cons c rest ih =>
    obtain ⟨k, v⟩ := c
    rw [below_cell] at hm
    rw [read_cell, if_neg (by omega), ih hm.2]

/-- Canonical memories that read alike are equal. -/
theorem Memory.eq_of_read_eq {lo : Nat} {m m' : Memory} (hm : m.wfFrom lo = true) (hm' : m'.wfFrom lo = true)
    (h : ∀ a, m.read a = m'.read a) : m = m' := by
  induction m generalizing lo m' with
  | nil =>
    cases m' with
    | nil => rfl
    | cons c rest =>
      obtain ⟨k, v⟩ := c
      rw [wfFrom_cell] at hm'
      have := h k
      simp at this
      exact absurd this.symm hm'.2.1
  | cons c rest ih =>
    obtain ⟨k, v⟩ := c
    rw [wfFrom_cell] at hm
    cases m' with
    | nil =>
      have := h k
      simp at this
      exact absurd this hm.2.1
    | cons c' rest' =>
      obtain ⟨k', v'⟩ := c'
      rw [wfFrom_cell] at hm'
      have hk : k = k' := by
        rcases Nat.lt_trichotomy k k' with hlt | heq | hgt
        · have := h k
          rw [read_cell, if_pos rfl, read_cell, if_neg (by omega), read_of_lt hm'.2.2 (by omega)] at this
          exact absurd this hm.2.1
        · exact heq
        · have := h k'
          rw [read_cell, if_neg (by omega), read_cell, if_pos rfl, read_of_lt hm.2.2 (by omega)] at this
          exact absurd this.symm hm'.2.1
      subst hk
      have hv : v = v' := by simpa using h k
      subst hv
      rw [ih hm.2.2 hm'.2.2]
      intro a
      rcases Nat.lt_or_ge a (k + 1) with hlt | hge
      · rw [read_of_lt hm.2.2 hlt, read_of_lt hm'.2.2 hlt]
      · have := h a
        rwa [read_cell, if_neg (by omega), read_cell, if_neg (by omega)] at this

end Sys2Proof.Machine
end

