-- ==== Sys2Proof/Laws/State.lean ====
section
/-! SUPPORT. One lemma per field per update of State, true by rfl, so that no later proof unfolds a record update. -/

namespace Sys2Proof.Machine

section
variable (s : State)

@[simp] theorem raiseError_phase (k : ErrKind) : (raiseError k s).phase = .error := rfl
@[simp] theorem raiseError_stream (k : ErrKind) : (raiseError k s).stream = s.stream := rfl
@[simp] theorem raiseError_bfinal (k : ErrKind) : (raiseError k s).bfinal = s.bfinal := rfl
@[simp] theorem raiseError_btype (k : ErrKind) : (raiseError k s).btype = s.btype := rfl
@[simp] theorem raiseError_storedRem (k : ErrKind) : (raiseError k s).storedRem = s.storedRem := rfl
@[simp] theorem raiseError_hlit (k : ErrKind) : (raiseError k s).hlit = s.hlit := rfl
@[simp] theorem raiseError_hdist (k : ErrKind) : (raiseError k s).hdist = s.hdist := rfl
@[simp] theorem raiseError_hclen (k : ErrKind) : (raiseError k s).hclen = s.hclen := rfl
@[simp] theorem raiseError_clLen (k : ErrKind) : (raiseError k s).clLen = s.clLen := rfl
@[simp] theorem raiseError_clIdx (k : ErrKind) : (raiseError k s).clIdx = s.clIdx := rfl
@[simp] theorem raiseError_lens (k : ErrKind) : (raiseError k s).lens = s.lens := rfl
@[simp] theorem raiseError_lenIdx (k : ErrKind) : (raiseError k s).lenIdx = s.lenIdx := rfl
@[simp] theorem raiseError_litLens (k : ErrKind) : (raiseError k s).litLens = s.litLens := rfl
@[simp] theorem raiseError_distLens (k : ErrKind) : (raiseError k s).distLens = s.distLens := rfl
@[simp] theorem raiseError_matchLen (k : ErrKind) : (raiseError k s).matchLen = s.matchLen := rfl
@[simp] theorem raiseError_matchDist (k : ErrKind) : (raiseError k s).matchDist = s.matchDist := rfl
@[simp] theorem raiseError_copyRem (k : ErrKind) : (raiseError k s).copyRem = s.copyRem := rfl
@[simp] theorem raiseError_out (k : ErrKind) : (raiseError k s).out = s.out := rfl
@[simp] theorem raiseError_outLen (k : ErrKind) : (raiseError k s).outLen = s.outLen := rfl
@[simp] theorem raiseError_errCode (k : ErrKind) : (raiseError k s).errCode = errorCode k := rfl
@[simp] theorem raiseError_inConsumed (k : ErrKind) : (raiseError k s).inConsumed = s.inConsumed := rfl
@[simp] theorem raiseError_outCap (k : ErrKind) : (raiseError k s).outCap = s.outCap := rfl
@[simp] theorem raiseError_freeTick (k : ErrKind) : (raiseError k s).freeTick = s.freeTick := rfl

@[simp] theorem headerWrites_phase (f : Bool) (t : BitVec 2) : (headerWrites f t s).phase = s.phase := rfl
@[simp] theorem headerWrites_stream (f : Bool) (t : BitVec 2) : (headerWrites f t s).stream = s.stream := rfl
@[simp] theorem headerWrites_bfinal (f : Bool) (t : BitVec 2) : (headerWrites f t s).bfinal = f := rfl
@[simp] theorem headerWrites_btype (f : Bool) (t : BitVec 2) : (headerWrites f t s).btype = t := rfl
@[simp] theorem headerWrites_storedRem (f : Bool) (t : BitVec 2) : (headerWrites f t s).storedRem = s.storedRem := rfl
@[simp] theorem headerWrites_hlit (f : Bool) (t : BitVec 2) : (headerWrites f t s).hlit = s.hlit := rfl
@[simp] theorem headerWrites_hdist (f : Bool) (t : BitVec 2) : (headerWrites f t s).hdist = s.hdist := rfl
@[simp] theorem headerWrites_hclen (f : Bool) (t : BitVec 2) : (headerWrites f t s).hclen = s.hclen := rfl
@[simp] theorem headerWrites_clLen (f : Bool) (t : BitVec 2) : (headerWrites f t s).clLen = s.clLen := rfl
@[simp] theorem headerWrites_clIdx (f : Bool) (t : BitVec 2) : (headerWrites f t s).clIdx = s.clIdx := rfl
@[simp] theorem headerWrites_lens (f : Bool) (t : BitVec 2) : (headerWrites f t s).lens = s.lens := rfl
@[simp] theorem headerWrites_lenIdx (f : Bool) (t : BitVec 2) : (headerWrites f t s).lenIdx = s.lenIdx := rfl
@[simp] theorem headerWrites_litLens (f : Bool) (t : BitVec 2) : (headerWrites f t s).litLens = s.litLens := rfl
@[simp] theorem headerWrites_distLens (f : Bool) (t : BitVec 2) : (headerWrites f t s).distLens = s.distLens := rfl
@[simp] theorem headerWrites_matchLen (f : Bool) (t : BitVec 2) : (headerWrites f t s).matchLen = s.matchLen := rfl
@[simp] theorem headerWrites_matchDist (f : Bool) (t : BitVec 2) : (headerWrites f t s).matchDist = s.matchDist := rfl
@[simp] theorem headerWrites_copyRem (f : Bool) (t : BitVec 2) : (headerWrites f t s).copyRem = s.copyRem := rfl
@[simp] theorem headerWrites_out (f : Bool) (t : BitVec 2) : (headerWrites f t s).out = s.out := rfl
@[simp] theorem headerWrites_outLen (f : Bool) (t : BitVec 2) : (headerWrites f t s).outLen = s.outLen := rfl
@[simp] theorem headerWrites_errCode (f : Bool) (t : BitVec 2) : (headerWrites f t s).errCode = s.errCode := rfl
@[simp] theorem headerWrites_inConsumed (f : Bool) (t : BitVec 2) : (headerWrites f t s).inConsumed = s.inConsumed := rfl
@[simp] theorem headerWrites_outCap (f : Bool) (t : BitVec 2) : (headerWrites f t s).outCap = s.outCap := rfl
@[simp] theorem headerWrites_freeTick (f : Bool) (t : BitVec 2) : (headerWrites f t s).freeTick = s.freeTick := rfl

@[simp] theorem loadFixed_phase : (loadFixed s).phase = s.phase := rfl
@[simp] theorem loadFixed_stream : (loadFixed s).stream = s.stream := rfl
@[simp] theorem loadFixed_bfinal : (loadFixed s).bfinal = s.bfinal := rfl
@[simp] theorem loadFixed_btype : (loadFixed s).btype = s.btype := rfl
@[simp] theorem loadFixed_storedRem : (loadFixed s).storedRem = s.storedRem := rfl
@[simp] theorem loadFixed_hlit : (loadFixed s).hlit = s.hlit := rfl
@[simp] theorem loadFixed_hdist : (loadFixed s).hdist = s.hdist := rfl
@[simp] theorem loadFixed_hclen : (loadFixed s).hclen = s.hclen := rfl
@[simp] theorem loadFixed_clLen : (loadFixed s).clLen = s.clLen := rfl
@[simp] theorem loadFixed_clIdx : (loadFixed s).clIdx = s.clIdx := rfl
@[simp] theorem loadFixed_lens : (loadFixed s).lens = s.lens := rfl
@[simp] theorem loadFixed_lenIdx : (loadFixed s).lenIdx = s.lenIdx := rfl
@[simp] theorem loadFixed_litLens : (loadFixed s).litLens = padLens 288 fixedLit := rfl
@[simp] theorem loadFixed_distLens : (loadFixed s).distLens = padLens 32 fixedDist := rfl
@[simp] theorem loadFixed_matchLen : (loadFixed s).matchLen = s.matchLen := rfl
@[simp] theorem loadFixed_matchDist : (loadFixed s).matchDist = s.matchDist := rfl
@[simp] theorem loadFixed_copyRem : (loadFixed s).copyRem = s.copyRem := rfl
@[simp] theorem loadFixed_out : (loadFixed s).out = s.out := rfl
@[simp] theorem loadFixed_outLen : (loadFixed s).outLen = s.outLen := rfl
@[simp] theorem loadFixed_errCode : (loadFixed s).errCode = s.errCode := rfl
@[simp] theorem loadFixed_inConsumed : (loadFixed s).inConsumed = s.inConsumed := rfl
@[simp] theorem loadFixed_outCap : (loadFixed s).outCap = s.outCap := rfl
@[simp] theorem loadFixed_freeTick : (loadFixed s).freeTick = s.freeTick := rfl

@[simp] theorem appendLens_phase (n : Nat) (v : CodeLen) : (appendLens n v s).phase = s.phase := rfl
@[simp] theorem appendLens_stream (n : Nat) (v : CodeLen) : (appendLens n v s).stream = s.stream := rfl
@[simp] theorem appendLens_bfinal (n : Nat) (v : CodeLen) : (appendLens n v s).bfinal = s.bfinal := rfl
@[simp] theorem appendLens_btype (n : Nat) (v : CodeLen) : (appendLens n v s).btype = s.btype := rfl
@[simp] theorem appendLens_storedRem (n : Nat) (v : CodeLen) : (appendLens n v s).storedRem = s.storedRem := rfl
@[simp] theorem appendLens_hlit (n : Nat) (v : CodeLen) : (appendLens n v s).hlit = s.hlit := rfl
@[simp] theorem appendLens_hdist (n : Nat) (v : CodeLen) : (appendLens n v s).hdist = s.hdist := rfl
@[simp] theorem appendLens_hclen (n : Nat) (v : CodeLen) : (appendLens n v s).hclen = s.hclen := rfl
@[simp] theorem appendLens_clLen (n : Nat) (v : CodeLen) : (appendLens n v s).clLen = s.clLen := rfl
@[simp] theorem appendLens_clIdx (n : Nat) (v : CodeLen) : (appendLens n v s).clIdx = s.clIdx := rfl
@[simp] theorem appendLens_lens (n : Nat) (v : CodeLen) : (appendLens n v s).lens = writeRun v n s.lenIdx.toNat s.lens := rfl
@[simp] theorem appendLens_lenIdx (n : Nat) (v : CodeLen) : (appendLens n v s).lenIdx = s.lenIdx + BitVec.ofNat 9 n := rfl
@[simp] theorem appendLens_litLens (n : Nat) (v : CodeLen) : (appendLens n v s).litLens = s.litLens := rfl
@[simp] theorem appendLens_distLens (n : Nat) (v : CodeLen) : (appendLens n v s).distLens = s.distLens := rfl
@[simp] theorem appendLens_matchLen (n : Nat) (v : CodeLen) : (appendLens n v s).matchLen = s.matchLen := rfl
@[simp] theorem appendLens_matchDist (n : Nat) (v : CodeLen) : (appendLens n v s).matchDist = s.matchDist := rfl
@[simp] theorem appendLens_copyRem (n : Nat) (v : CodeLen) : (appendLens n v s).copyRem = s.copyRem := rfl
@[simp] theorem appendLens_out (n : Nat) (v : CodeLen) : (appendLens n v s).out = s.out := rfl
@[simp] theorem appendLens_outLen (n : Nat) (v : CodeLen) : (appendLens n v s).outLen = s.outLen := rfl
@[simp] theorem appendLens_errCode (n : Nat) (v : CodeLen) : (appendLens n v s).errCode = s.errCode := rfl
@[simp] theorem appendLens_inConsumed (n : Nat) (v : CodeLen) : (appendLens n v s).inConsumed = s.inConsumed := rfl
@[simp] theorem appendLens_outCap (n : Nat) (v : CodeLen) : (appendLens n v s).outCap = s.outCap := rfl
@[simp] theorem appendLens_freeTick (n : Nat) (v : CodeLen) : (appendLens n v s).freeTick = s.freeTick := rfl

@[simp] theorem splitLens_phase : (splitLens s).phase = s.phase := rfl
@[simp] theorem splitLens_stream : (splitLens s).stream = s.stream := rfl
@[simp] theorem splitLens_bfinal : (splitLens s).bfinal = s.bfinal := rfl
@[simp] theorem splitLens_btype : (splitLens s).btype = s.btype := rfl
@[simp] theorem splitLens_storedRem : (splitLens s).storedRem = s.storedRem := rfl
@[simp] theorem splitLens_hlit : (splitLens s).hlit = s.hlit := rfl
@[simp] theorem splitLens_hdist : (splitLens s).hdist = s.hdist := rfl
@[simp] theorem splitLens_hclen : (splitLens s).hclen = s.hclen := rfl
@[simp] theorem splitLens_clLen : (splitLens s).clLen = s.clLen := rfl
@[simp] theorem splitLens_clIdx : (splitLens s).clIdx = s.clIdx := rfl
@[simp] theorem splitLens_lens : (splitLens s).lens = s.lens := rfl
@[simp] theorem splitLens_lenIdx : (splitLens s).lenIdx = s.lenIdx := rfl
@[simp] theorem splitLens_litLens : (splitLens s).litLens = padLens 288 (s.lens.toList.take (litCount s)) := rfl
@[simp] theorem splitLens_distLens : (splitLens s).distLens = padLens 32 ((s.lens.toList.drop (litCount s)).take (distCount s)) := rfl
@[simp] theorem splitLens_matchLen : (splitLens s).matchLen = s.matchLen := rfl
@[simp] theorem splitLens_matchDist : (splitLens s).matchDist = s.matchDist := rfl
@[simp] theorem splitLens_copyRem : (splitLens s).copyRem = s.copyRem := rfl
@[simp] theorem splitLens_out : (splitLens s).out = s.out := rfl
@[simp] theorem splitLens_outLen : (splitLens s).outLen = s.outLen := rfl
@[simp] theorem splitLens_errCode : (splitLens s).errCode = s.errCode := rfl
@[simp] theorem splitLens_inConsumed : (splitLens s).inConsumed = s.inConsumed := rfl
@[simp] theorem splitLens_outCap : (splitLens s).outCap = s.outCap := rfl
@[simp] theorem splitLens_freeTick : (splitLens s).freeTick = s.freeTick := rfl

@[simp] theorem lengthSymbol_phase (sym x : Nat) : (lengthSymbol sym x s).phase = .dist := rfl
@[simp] theorem lengthSymbol_stream (sym x : Nat) : (lengthSymbol sym x s).stream = s.stream := rfl
@[simp] theorem lengthSymbol_bfinal (sym x : Nat) : (lengthSymbol sym x s).bfinal = s.bfinal := rfl
@[simp] theorem lengthSymbol_btype (sym x : Nat) : (lengthSymbol sym x s).btype = s.btype := rfl
@[simp] theorem lengthSymbol_storedRem (sym x : Nat) : (lengthSymbol sym x s).storedRem = s.storedRem := rfl
@[simp] theorem lengthSymbol_hlit (sym x : Nat) : (lengthSymbol sym x s).hlit = s.hlit := rfl
@[simp] theorem lengthSymbol_hdist (sym x : Nat) : (lengthSymbol sym x s).hdist = s.hdist := rfl
@[simp] theorem lengthSymbol_hclen (sym x : Nat) : (lengthSymbol sym x s).hclen = s.hclen := rfl
@[simp] theorem lengthSymbol_clLen (sym x : Nat) : (lengthSymbol sym x s).clLen = s.clLen := rfl
@[simp] theorem lengthSymbol_clIdx (sym x : Nat) : (lengthSymbol sym x s).clIdx = s.clIdx := rfl
@[simp] theorem lengthSymbol_lens (sym x : Nat) : (lengthSymbol sym x s).lens = s.lens := rfl
@[simp] theorem lengthSymbol_lenIdx (sym x : Nat) : (lengthSymbol sym x s).lenIdx = s.lenIdx := rfl
@[simp] theorem lengthSymbol_litLens (sym x : Nat) : (lengthSymbol sym x s).litLens = s.litLens := rfl
@[simp] theorem lengthSymbol_distLens (sym x : Nat) : (lengthSymbol sym x s).distLens = s.distLens := rfl
@[simp] theorem lengthSymbol_matchLen (sym x : Nat) : (lengthSymbol sym x s).matchLen = BitVec.ofNat 9 (matchLength sym x) := rfl
@[simp] theorem lengthSymbol_matchDist (sym x : Nat) : (lengthSymbol sym x s).matchDist = s.matchDist := rfl
@[simp] theorem lengthSymbol_copyRem (sym x : Nat) : (lengthSymbol sym x s).copyRem = s.copyRem := rfl
@[simp] theorem lengthSymbol_out (sym x : Nat) : (lengthSymbol sym x s).out = s.out := rfl
@[simp] theorem lengthSymbol_outLen (sym x : Nat) : (lengthSymbol sym x s).outLen = s.outLen := rfl
@[simp] theorem lengthSymbol_errCode (sym x : Nat) : (lengthSymbol sym x s).errCode = s.errCode := rfl
@[simp] theorem lengthSymbol_inConsumed (sym x : Nat) : (lengthSymbol sym x s).inConsumed = s.inConsumed := rfl
@[simp] theorem lengthSymbol_outCap (sym x : Nat) : (lengthSymbol sym x s).outCap = s.outCap := rfl
@[simp] theorem lengthSymbol_freeTick (sym x : Nat) : (lengthSymbol sym x s).freeTick = s.freeTick := rfl

@[simp] theorem resetCore_phase : (resetCore s).phase = .idle := rfl
@[simp] theorem resetCore_stream : (resetCore s).stream = { s.stream with inPos := 0, bitOff := 0 } := rfl
@[simp] theorem resetCore_bfinal : (resetCore s).bfinal = false := rfl
@[simp] theorem resetCore_btype : (resetCore s).btype = 0 := rfl
@[simp] theorem resetCore_storedRem : (resetCore s).storedRem = 0 := rfl
@[simp] theorem resetCore_hlit : (resetCore s).hlit = 0 := rfl
@[simp] theorem resetCore_hdist : (resetCore s).hdist = 0 := rfl
@[simp] theorem resetCore_hclen : (resetCore s).hclen = 0 := rfl
@[simp] theorem resetCore_clLen : (resetCore s).clLen = Vector.replicate 19 0 := rfl
@[simp] theorem resetCore_clIdx : (resetCore s).clIdx = 0 := rfl
@[simp] theorem resetCore_lens : (resetCore s).lens = Vector.replicate 320 0 := rfl
@[simp] theorem resetCore_lenIdx : (resetCore s).lenIdx = 0 := rfl
@[simp] theorem resetCore_litLens : (resetCore s).litLens = Vector.replicate 288 0 := rfl
@[simp] theorem resetCore_distLens : (resetCore s).distLens = Vector.replicate 32 0 := rfl
@[simp] theorem resetCore_matchLen : (resetCore s).matchLen = 0 := rfl
@[simp] theorem resetCore_matchDist : (resetCore s).matchDist = 0 := rfl
@[simp] theorem resetCore_copyRem : (resetCore s).copyRem = 0 := rfl
@[simp] theorem resetCore_out : (resetCore s).out = [] := rfl
@[simp] theorem resetCore_outLen : (resetCore s).outLen = 0 := rfl
@[simp] theorem resetCore_errCode : (resetCore s).errCode = 0 := rfl
@[simp] theorem resetCore_inConsumed : (resetCore s).inConsumed = 0 := rfl
@[simp] theorem resetCore_outCap : (resetCore s).outCap = s.outCap := rfl
@[simp] theorem resetCore_freeTick : (resetCore s).freeTick = s.freeTick := rfl

@[simp] theorem startSession_phase : (startSession s).phase = .hdr := rfl
@[simp] theorem startSession_stream : (startSession s).stream = { s.stream with inPos := 0, bitOff := 0 } := rfl
@[simp] theorem startSession_bfinal : (startSession s).bfinal = false := rfl
@[simp] theorem startSession_btype : (startSession s).btype = 0 := rfl
@[simp] theorem startSession_storedRem : (startSession s).storedRem = 0 := rfl
@[simp] theorem startSession_hlit : (startSession s).hlit = 0 := rfl
@[simp] theorem startSession_hdist : (startSession s).hdist = 0 := rfl
@[simp] theorem startSession_hclen : (startSession s).hclen = 0 := rfl
@[simp] theorem startSession_clLen : (startSession s).clLen = Vector.replicate 19 0 := rfl
@[simp] theorem startSession_clIdx : (startSession s).clIdx = 0 := rfl
@[simp] theorem startSession_lens : (startSession s).lens = Vector.replicate 320 0 := rfl
@[simp] theorem startSession_lenIdx : (startSession s).lenIdx = 0 := rfl
@[simp] theorem startSession_litLens : (startSession s).litLens = Vector.replicate 288 0 := rfl
@[simp] theorem startSession_distLens : (startSession s).distLens = Vector.replicate 32 0 := rfl
@[simp] theorem startSession_matchLen : (startSession s).matchLen = 0 := rfl
@[simp] theorem startSession_matchDist : (startSession s).matchDist = 0 := rfl
@[simp] theorem startSession_copyRem : (startSession s).copyRem = 0 := rfl
@[simp] theorem startSession_out : (startSession s).out = [] := rfl
@[simp] theorem startSession_outLen : (startSession s).outLen = 0 := rfl
@[simp] theorem startSession_errCode : (startSession s).errCode = 0 := rfl
@[simp] theorem startSession_inConsumed : (startSession s).inConsumed = 0 := rfl
@[simp] theorem startSession_outCap : (startSession s).outCap = s.outCap := rfl
@[simp] theorem startSession_freeTick : (startSession s).freeTick = s.freeTick := rfl

end

end Sys2Proof.Machine
end

