-- ==== Sys2Proof/Laws/Ops.lean ====
section
/-! SUPPORT. What each shared operation of the steps can do, said once. -/

namespace Sys2Proof.Machine

/-! ## Code-length arrays -/

@[simp] theorem natLens_length {n w : Nat} (v : Vector (BitVec w) n) : (natLens v).length = n := by simp [natLens]

theorem natLens_lt {n w : Nat} (v : Vector (BitVec w) n) : ∀ l ∈ natLens v, l < 2 ^ w := by
  intro l hl
  simp only [natLens, List.mem_map] at hl
  obtain ⟨b, -, rfl⟩ := hl
  exact b.isLt

theorem natLens_getD {n w : Nat} (v : Vector (BitVec w) n) (i : Nat) :
    (natLens v).getD i 0 = (v.toList.getD i 0).toNat := by
  simp only [natLens, List.getD_eq_getElem?_getD, List.getElem?_map]
  cases v.toList[i]? <;> simp

@[simp] theorem padLens_toList (n : Nat) (l : List CodeLen) :
    (padLens n l).toList = (l ++ List.replicate n 0).take n := rfl

/-- `padLens` keeps the entries it is given and reads 0 past them. -/
theorem padLens_getD {n i : Nat} (l : List CodeLen) (h : i < n) : (padLens n l).toList.getD i 0 = l.getD i 0 := by
  simp only [padLens_toList, List.getD_eq_getElem?_getD, List.getElem?_take, h, if_true]
  rcases Nat.lt_or_ge i l.length with hl | hl
  · rw [List.getElem?_append_left hl]
  · rw [List.getElem?_append_right hl, List.getElem?_eq_none hl, List.getElem?_replicate]
    split <;> rfl

/-- A run writes its `n` entries and no other. -/
theorem writeRun_getD (v : CodeLen) {n i : Nat} (lens : Vector CodeLen 320) (h : i + n ≤ 320) (j : Nat) :
    (writeRun v n i lens).toList.getD j 0 = if i ≤ j ∧ j < i + n then v else lens.toList.getD j 0 := by
  induction n generalizing i lens with
  | zero => rw [if_neg (by omega)]; rfl
  | succ n ih =>
    rw [writeRun, ih _ (by omega)]
    have hset : (lens.setIfInBounds i v).toList = lens.toList.set i v := by
      rcases lens with ⟨⟨l⟩, hl⟩
      simp [Vector.setIfInBounds, Vector.toList, Array.setIfInBounds]
      split
      · rfl
      · simp at hl; omega
    rw [hset, List.getD_eq_getElem?_getD, List.getElem?_set]
    have hlen : lens.toList.length = 320 := by simp
    by_cases hj : i = j
    · subst hj
      rw [if_neg (by omega), if_pos rfl, if_pos (by omega), if_pos (by omega)]
      rfl
    · rw [if_neg hj]
      by_cases hr : i + 1 ≤ j ∧ j < i + 1 + n
      · rw [if_pos hr, if_pos (by omega)]
      · rw [if_neg hr, if_neg (by omega), ← List.getD_eq_getElem?_getD]

theorem total_pos (s : State) : 258 ≤ total s ∧ total s ≤ 320 := by
  have h1 : s.hlit.toNat < 32 := s.hlit.isLt
  have h2 : s.hdist.toNat < 32 := s.hdist.isLt
  unfold total litCount distCount
  omega

/-! ## The output window -/

/-- What an append that succeeds does. -/
theorem outWrite_ok {b : Byte} {s s' : State} (h : outWrite b s = .ok s') :
    s.outCap ≠ some s.outLen ∧ s' = { s with out := s.out.write s.outLen b, outLen := s.outLen + 1 } := by
  unfold outWrite at h
  split at h
  · cases h
  · cases h; exact ⟨‹_›, rfl⟩

/-- When an append fails, and with which kind. -/
theorem outWrite_error {b : Byte} {s : State} {k : ErrKind} (h : outWrite b s = .error k) :
    s.outCap = some s.outLen ∧ k = .outputOverflow := by
  unfold outWrite at h
  split at h
  · cases h; exact ⟨‹_›, rfl⟩
  · cases h

theorem outRead_eq_some {a : Nat} {s : State} {b : Byte} (h : outRead a s = some b) :
    a < s.outLen ∧ b = s.out.read a := by
  unfold outRead at h
  split at h
  · cases h; exact ⟨‹_›, rfl⟩
  · cases h

/-! ## The end of a dynamic header -/

/-- Everything header completion can do. -/
theorem finishHeader_cases (s : State) :
    ((litTable (splitLens s)).isSome ∧ (distTable (splitLens s)).isSome ∧
      finishHeader s = { splitLens s with phase := .sym }) ∨
    ((litTable (splitLens s) = none ∨ distTable (splitLens s) = none) ∧
      finishHeader s = raiseError .malformedCodeLengths (splitLens s)) := by
  unfold finishHeader
  cases h : litTable (splitLens s) with
  | none => exact .inr ⟨.inl rfl, rfl⟩
  | some t =>
    cases h' : distTable (splitLens s) with
    | none => exact .inr ⟨.inr rfl, rfl⟩
    | some t' => exact .inl ⟨rfl, rfl, rfl⟩

/-- Everything a run can do: raise and write nothing, or append and end the step. -/
theorem lensRun_cases (n : Nat) (v : CodeLen) (s : State) :
    (total s < s.lenIdx.toNat + n ∧ lensRun n v s = raiseError .malformedDynamicHeader s) ∨
    (s.lenIdx.toNat + n ≤ total s ∧ lensRun n v s = endLensStep (appendLens n v s)) := by
  unfold lensRun
  split
  · exact .inl ⟨‹_›, rfl⟩
  · exact .inr ⟨by omega, rfl⟩

/-- The index after a run that does not pass `total` (R32: it fits 9 bits). -/
theorem appendLens_index {n : Nat} {v : CodeLen} {s : State} (h : s.lenIdx.toNat + n ≤ total s) :
    (appendLens n v s).lenIdx.toNat = s.lenIdx.toNat + n := by
  have := (total_pos s).2
  simp
  omega

@[simp] theorem appendLens_total (n : Nat) (v : CodeLen) (s : State) : total (appendLens n v s) = total s := rfl

/-! ## Back-references -/

/-- Everything a distance symbol can do. -/
theorem distanceSymbol_cases (d x : Nat) (s : State) :
    (s.outLen < matchDistance d x ∧ distanceSymbol d x s =
      raiseError .invalidBackReference { s with matchDist := BitVec.ofNat 16 (matchDistance d x) }) ∨
    (matchDistance d x ≤ s.outLen ∧ distanceSymbol d x s =
      { s with matchDist := BitVec.ofNat 16 (matchDistance d x), copyRem := s.matchLen, phase := .copy }) := by
  unfold distanceSymbol
  split
  · exact .inl ⟨‹_›, rfl⟩
  · exact .inr ⟨by omega, rfl⟩

/-! ## Host actions -/

/-- Everything a register write can do. -/
theorem hostWriteReg_cases (n : Nat) (v : BitVec 8) (s : State) :
    (busy s = false ∧ hostWriteReg n v s = startSession s) ∨ hostWriteReg n v s = s := by
  unfold hostWriteReg
  split
  · rename_i h; exact .inl ⟨h.2.2, rfl⟩
  · exact .inr rfl

/-- Presenting the input already driven changes nothing. -/
theorem presentInput_of_unchanged {bytes : List Byte} {e : SrcEnd} {cap : Option Nat} {s : State}
    (h : inputUnchanged bytes e cap s = true) : presentInput bytes e cap s = s := by
  obtain ⟨hb, hl, he, hc⟩ := of_decide_eq_true h
  simp only [presentInput, ← hb, ← hl, ← he, ← hc]

/-- Everything presenting the input can do. -/
theorem hostPresent_cases (bytes : List Byte) (e : SrcEnd) (cap : Option Nat) (s : State) :
    (busy s = false ∧ hostPresent bytes e cap s = presentInput bytes e cap s) ∨
    (busy s = true ∧ inputUnchanged bytes e cap s = true ∧ hostPresent bytes e cap s = s) ∨
    (busy s = true ∧ inputUnchanged bytes e cap s = false ∧
      hostPresent bytes e cap s = loseSession (presentInput bytes e cap s)) := by
  unfold hostPresent
  cases hb : busy s
  · exact .inl ⟨rfl, rfl⟩
  · cases hu : inputUnchanged bytes e cap s
    · exact .inr (.inr ⟨rfl, rfl, rfl⟩)
    · exact .inr (.inl ⟨rfl, rfl, presentInput_of_unchanged hu⟩)

/-- The input is unchanged exactly when every byte, the end and the capacity are the ones already driven. -/
theorem inputUnchanged_iff {bytes : List Byte} {e : SrcEnd} {cap : Option Nat} {s : State}
    (hw : s.stream.bytes.wf = true) (hb : s.stream.bytes.below s.stream.len = true) :
    inputUnchanged bytes e cap s = true ↔
      (∀ a, s.stream.memRead a = bytes[a]?) ∧ s.stream.srcEnd = e ∧ s.outCap = cap := by
  rw [inputUnchanged, decide_eq_true_iff]
  constructor
  · rintro ⟨h1, h2, h3, h4⟩
    refine ⟨fun a => ?_, h3, h4⟩
    rw [BitStream.memRead, h1, h2, Memory.read_ofBytes]
    split <;> simp_all
  · rintro ⟨h, h3, h4⟩
    have hl : s.stream.len = bytes.length := by
      have h1 := h s.stream.len
      have h2 := h bytes.length
      simp [BitStream.memRead] at h1 h2
      omega
    refine ⟨Memory.eq_of_read_eq hw (Memory.ofBytes_wf bytes) fun a => ?_, hl, h3, h4⟩
    rw [Memory.read_ofBytes]
    by_cases ha : a < s.stream.len
    · have := h a
      rw [BitStream.memRead, if_pos ha] at this
      simp [List.getD, ← this]
    · rw [Memory.read_of_below hb (by omega), List.getD_eq_default _ _ (by omega)]

/-- An output-port read changes at most the tick of free values. -/
theorem hostReadOut_state (a : Nat) (s : State) : ∃ tick, (hostReadOut a s).2 = { s with freeTick := tick } := by
  unfold hostReadOut
  split
  · exact ⟨s.freeTick, rfl⟩
  · exact ⟨_, rfl⟩

end Sys2Proof.Machine
end

