-- ==== Sys2Proof/Laws/PerInstr.lean ====
section
/-! SUPPORT. Statements made for every instruction, one lemma per constructor. `RoundTrip`: the decoder reads an
instruction back from the value and the extra-bit field the encoder gives it, and that field fits its width. -/

namespace Sys2Proof.Laws.RoundTrip

open Sys2Proof

/-- Decoding the value and the extra field of `i` gives `i`, and the field fits (R74, R77). -/
def Statement (i : Instr) : Prop :=
  decodeElement (opSpace i) (opValue i) (opExtra i) = .ok i ∧ opExtra i < 2 ^ extraWidth (opSpace i) (opValue i)

/-- An instruction `c x` with an extra field of width `n`, from its space, its value and the decoder's case for it. -/
theorem of_parts {n : Nat} (c : BitVec n → Instr) (x : BitVec n) (sp : Space) (v : Nat)
    (hd : decodeElement sp v x.toNat = .ok (c (BitVec.ofNat n x.toNat))) (hw : extraWidth sp v = n)
    (hs : opSpace (c x) = sp) (hv : opValue (c x) = v) (hx : opExtra (c x) = x.toNat) : Statement (c x) := by
  rw [Statement, hs, hv, hx, hd, hw, BitVec.ofNat_toNat, BitVec.setWidth_eq]
  exact ⟨rfl, x.isLt⟩

theorem blkStored (f : Bool) : Statement (.blkStored f) := by cases f <;> exact ⟨rfl, by decide⟩
theorem blkFixed (f : Bool) : Statement (.blkFixed f) := by cases f <;> exact ⟨rfl, by decide⟩
theorem blkDynamic (f : Bool) : Statement (.blkDynamic f) := by cases f <;> exact ⟨rfl, by decide⟩
theorem blkReserved (f : Bool) : Statement (.blkReserved f) := by cases f <;> exact ⟨rfl, by decide⟩
theorem clLen (n : BitVec 4) : Statement (.clLen n) := by
  have h : n.toNat < 16 := n.isLt
  constructor
  · simp [decodeElement, opSpace, opValue, decodeCodeLength, h]
  · exact Nat.two_pow_pos _
theorem clRep16 (x : BitVec 2) : Statement (.clRep16 x) := of_parts .clRep16 x .clSym 16 rfl (by decide) rfl rfl rfl
theorem clZero17 (x : BitVec 3) : Statement (.clZero17 x) := of_parts .clZero17 x .clSym 17 rfl (by decide) rfl rfl rfl
theorem clZero18 (x : BitVec 7) : Statement (.clZero18 x) := of_parts .clZero18 x .clSym 18 rfl (by decide) rfl rfl rfl
theorem lit (b : Byte) : Statement (.lit b) := by
  have h : b.toNat < 256 := b.isLt
  constructor
  · simp [decodeElement, opSpace, opValue, decodeLiteralLength, h]
  · exact Nat.two_pow_pos _
theorem eob : Statement .eob := ⟨rfl, by decide⟩
theorem len257 : Statement .len257 := ⟨rfl, by decide⟩
theorem len258 : Statement .len258 := ⟨rfl, by decide⟩
theorem len259 : Statement .len259 := ⟨rfl, by decide⟩
theorem len260 : Statement .len260 := ⟨rfl, by decide⟩
theorem len261 : Statement .len261 := ⟨rfl, by decide⟩
theorem len262 : Statement .len262 := ⟨rfl, by decide⟩
theorem len263 : Statement .len263 := ⟨rfl, by decide⟩
theorem len264 : Statement .len264 := ⟨rfl, by decide⟩
theorem len265 (x : BitVec 1) : Statement (.len265 x) := of_parts .len265 x .llSym 265 rfl (by decide) rfl rfl rfl
theorem len266 (x : BitVec 1) : Statement (.len266 x) := of_parts .len266 x .llSym 266 rfl (by decide) rfl rfl rfl
theorem len267 (x : BitVec 1) : Statement (.len267 x) := of_parts .len267 x .llSym 267 rfl (by decide) rfl rfl rfl
theorem len268 (x : BitVec 1) : Statement (.len268 x) := of_parts .len268 x .llSym 268 rfl (by decide) rfl rfl rfl
theorem len269 (x : BitVec 2) : Statement (.len269 x) := of_parts .len269 x .llSym 269 rfl (by decide) rfl rfl rfl
theorem len270 (x : BitVec 2) : Statement (.len270 x) := of_parts .len270 x .llSym 270 rfl (by decide) rfl rfl rfl
theorem len271 (x : BitVec 2) : Statement (.len271 x) := of_parts .len271 x .llSym 271 rfl (by decide) rfl rfl rfl
theorem len272 (x : BitVec 2) : Statement (.len272 x) := of_parts .len272 x .llSym 272 rfl (by decide) rfl rfl rfl
theorem len273 (x : BitVec 3) : Statement (.len273 x) := of_parts .len273 x .llSym 273 rfl (by decide) rfl rfl rfl
theorem len274 (x : BitVec 3) : Statement (.len274 x) := of_parts .len274 x .llSym 274 rfl (by decide) rfl rfl rfl
theorem len275 (x : BitVec 3) : Statement (.len275 x) := of_parts .len275 x .llSym 275 rfl (by decide) rfl rfl rfl
theorem len276 (x : BitVec 3) : Statement (.len276 x) := of_parts .len276 x .llSym 276 rfl (by decide) rfl rfl rfl
theorem len277 (x : BitVec 4) : Statement (.len277 x) := of_parts .len277 x .llSym 277 rfl (by decide) rfl rfl rfl
theorem len278 (x : BitVec 4) : Statement (.len278 x) := of_parts .len278 x .llSym 278 rfl (by decide) rfl rfl rfl
theorem len279 (x : BitVec 4) : Statement (.len279 x) := of_parts .len279 x .llSym 279 rfl (by decide) rfl rfl rfl
theorem len280 (x : BitVec 4) : Statement (.len280 x) := of_parts .len280 x .llSym 280 rfl (by decide) rfl rfl rfl
theorem len281 (x : BitVec 5) : Statement (.len281 x) := of_parts .len281 x .llSym 281 rfl (by decide) rfl rfl rfl
theorem len282 (x : BitVec 5) : Statement (.len282 x) := of_parts .len282 x .llSym 282 rfl (by decide) rfl rfl rfl
theorem len283 (x : BitVec 5) : Statement (.len283 x) := of_parts .len283 x .llSym 283 rfl (by decide) rfl rfl rfl
theorem len284 (x : BitVec 5) : Statement (.len284 x) := of_parts .len284 x .llSym 284 rfl (by decide) rfl rfl rfl
theorem len285 : Statement .len285 := ⟨rfl, by decide⟩
theorem inv286 : Statement .inv286 := ⟨rfl, by decide⟩
theorem inv287 : Statement .inv287 := ⟨rfl, by decide⟩
theorem dist0 : Statement .dist0 := ⟨rfl, by decide⟩
theorem dist1 : Statement .dist1 := ⟨rfl, by decide⟩
theorem dist2 : Statement .dist2 := ⟨rfl, by decide⟩
theorem dist3 : Statement .dist3 := ⟨rfl, by decide⟩
theorem dist4 (x : BitVec 1) : Statement (.dist4 x) := of_parts .dist4 x .dSym 4 rfl (by decide) rfl rfl rfl
theorem dist5 (x : BitVec 1) : Statement (.dist5 x) := of_parts .dist5 x .dSym 5 rfl (by decide) rfl rfl rfl
theorem dist6 (x : BitVec 2) : Statement (.dist6 x) := of_parts .dist6 x .dSym 6 rfl (by decide) rfl rfl rfl
theorem dist7 (x : BitVec 2) : Statement (.dist7 x) := of_parts .dist7 x .dSym 7 rfl (by decide) rfl rfl rfl
theorem dist8 (x : BitVec 3) : Statement (.dist8 x) := of_parts .dist8 x .dSym 8 rfl (by decide) rfl rfl rfl
theorem dist9 (x : BitVec 3) : Statement (.dist9 x) := of_parts .dist9 x .dSym 9 rfl (by decide) rfl rfl rfl
theorem dist10 (x : BitVec 4) : Statement (.dist10 x) := of_parts .dist10 x .dSym 10 rfl (by decide) rfl rfl rfl
theorem dist11 (x : BitVec 4) : Statement (.dist11 x) := of_parts .dist11 x .dSym 11 rfl (by decide) rfl rfl rfl
theorem dist12 (x : BitVec 5) : Statement (.dist12 x) := of_parts .dist12 x .dSym 12 rfl (by decide) rfl rfl rfl
theorem dist13 (x : BitVec 5) : Statement (.dist13 x) := of_parts .dist13 x .dSym 13 rfl (by decide) rfl rfl rfl
theorem dist14 (x : BitVec 6) : Statement (.dist14 x) := of_parts .dist14 x .dSym 14 rfl (by decide) rfl rfl rfl
theorem dist15 (x : BitVec 6) : Statement (.dist15 x) := of_parts .dist15 x .dSym 15 rfl (by decide) rfl rfl rfl
theorem dist16 (x : BitVec 7) : Statement (.dist16 x) := of_parts .dist16 x .dSym 16 rfl (by decide) rfl rfl rfl
theorem dist17 (x : BitVec 7) : Statement (.dist17 x) := of_parts .dist17 x .dSym 17 rfl (by decide) rfl rfl rfl
theorem dist18 (x : BitVec 8) : Statement (.dist18 x) := of_parts .dist18 x .dSym 18 rfl (by decide) rfl rfl rfl
theorem dist19 (x : BitVec 8) : Statement (.dist19 x) := of_parts .dist19 x .dSym 19 rfl (by decide) rfl rfl rfl
theorem dist20 (x : BitVec 9) : Statement (.dist20 x) := of_parts .dist20 x .dSym 20 rfl (by decide) rfl rfl rfl
theorem dist21 (x : BitVec 9) : Statement (.dist21 x) := of_parts .dist21 x .dSym 21 rfl (by decide) rfl rfl rfl
theorem dist22 (x : BitVec 10) : Statement (.dist22 x) := of_parts .dist22 x .dSym 22 rfl (by decide) rfl rfl rfl
theorem dist23 (x : BitVec 10) : Statement (.dist23 x) := of_parts .dist23 x .dSym 23 rfl (by decide) rfl rfl rfl
theorem dist24 (x : BitVec 11) : Statement (.dist24 x) := of_parts .dist24 x .dSym 24 rfl (by decide) rfl rfl rfl
theorem dist25 (x : BitVec 11) : Statement (.dist25 x) := of_parts .dist25 x .dSym 25 rfl (by decide) rfl rfl rfl
theorem dist26 (x : BitVec 12) : Statement (.dist26 x) := of_parts .dist26 x .dSym 26 rfl (by decide) rfl rfl rfl
theorem dist27 (x : BitVec 12) : Statement (.dist27 x) := of_parts .dist27 x .dSym 27 rfl (by decide) rfl rfl rfl
theorem dist28 (x : BitVec 13) : Statement (.dist28 x) := of_parts .dist28 x .dSym 28 rfl (by decide) rfl rfl rfl
theorem dist29 (x : BitVec 13) : Statement (.dist29 x) := of_parts .dist29 x .dSym 29 rfl (by decide) rfl rfl rfl
theorem invD30 : Statement .invD30 := ⟨rfl, by decide⟩
theorem invD31 : Statement .invD31 := ⟨rfl, by decide⟩

/-- Every instruction round-trips. -/
theorem all (i : Instr) : Statement i := by
  cases i with
  | blkStored f => exact blkStored f
  | blkFixed f => exact blkFixed f
  | blkDynamic f => exact blkDynamic f
  | blkReserved f => exact blkReserved f
  | clLen n => exact clLen n
  | clRep16 x => exact clRep16 x
  | clZero17 x => exact clZero17 x
  | clZero18 x => exact clZero18 x
  | lit b => exact lit b
  | eob => exact eob
  | len257 => exact len257
  | len258 => exact len258
  | len259 => exact len259
  | len260 => exact len260
  | len261 => exact len261
  | len262 => exact len262
  | len263 => exact len263
  | len264 => exact len264
  | len265 x => exact len265 x
  | len266 x => exact len266 x
  | len267 x => exact len267 x
  | len268 x => exact len268 x
  | len269 x => exact len269 x
  | len270 x => exact len270 x
  | len271 x => exact len271 x
  | len272 x => exact len272 x
  | len273 x => exact len273 x
  | len274 x => exact len274 x
  | len275 x => exact len275 x
  | len276 x => exact len276 x
  | len277 x => exact len277 x
  | len278 x => exact len278 x
  | len279 x => exact len279 x
  | len280 x => exact len280 x
  | len281 x => exact len281 x
  | len282 x => exact len282 x
  | len283 x => exact len283 x
  | len284 x => exact len284 x
  | len285 => exact len285
  | inv286 => exact inv286
  | inv287 => exact inv287
  | dist0 => exact dist0
  | dist1 => exact dist1
  | dist2 => exact dist2
  | dist3 => exact dist3
  | dist4 x => exact dist4 x
  | dist5 x => exact dist5 x
  | dist6 x => exact dist6 x
  | dist7 x => exact dist7 x
  | dist8 x => exact dist8 x
  | dist9 x => exact dist9 x
  | dist10 x => exact dist10 x
  | dist11 x => exact dist11 x
  | dist12 x => exact dist12 x
  | dist13 x => exact dist13 x
  | dist14 x => exact dist14 x
  | dist15 x => exact dist15 x
  | dist16 x => exact dist16 x
  | dist17 x => exact dist17 x
  | dist18 x => exact dist18 x
  | dist19 x => exact dist19 x
  | dist20 x => exact dist20 x
  | dist21 x => exact dist21 x
  | dist22 x => exact dist22 x
  | dist23 x => exact dist23 x
  | dist24 x => exact dist24 x
  | dist25 x => exact dist25 x
  | dist26 x => exact dist26 x
  | dist27 x => exact dist27 x
  | dist28 x => exact dist28 x
  | dist29 x => exact dist29 x
  | invD30 => exact invD30
  | invD31 => exact invD31

end Sys2Proof.Laws.RoundTrip
end

