-- ==== Sys2Proof/Laws/Phases.lean ====
section
/-! SUPPORT. What the steps without an opcode row can do, said once: one case lemma per phase. -/

namespace Sys2Proof.Machine

/-- Everything a Stored length step can do. -/
theorem stepStoredLen_cases (s : State) :
    (∃ k bs, stepStoredLen s = .next (raiseError k { s with stream := bs }) ∧ s.stream.Moved bs ∧
      (k = endError s.stream.srcEnd ∨ k = .storedLengthMismatch)) ∨
    (∃ len, len < 2 ^ 16 ∧ stepStoredLen s = .next { s with
        stream := s.stream.seek (s.stream.align.pos + 32)
        storedRem := BitVec.ofNat 16 len
        phase := if len = 0 then .checkFinal else .storedCopy } ∧
      s.stream.Moved (s.stream.seek (s.stream.align.pos + 32))) := by
  have hma := s.stream.align_moved
  unfold stepStoredLen
  cases h1 : s.stream.align.readBits 16 with
  | raise k bs1 =>
    obtain ⟨hk, hm1⟩ := BitStream.readBits_raise_moved h1
    exact .inl ⟨k, bs1, rfl, hma.trans hm1, .inl (by rw [hk, hma.source.2.2.1])⟩
  | ok len bs1 =>
    have hm1 := hma.trans (BitStream.readBits_moved h1)
    obtain ⟨hlen, he1, -⟩ := BitStream.readBits_ok h1
    dsimp only
    cases h2 : bs1.readBits 16 with
    | raise k bs2 =>
      obtain ⟨hk, hm2⟩ := BitStream.readBits_raise_moved h2
      exact .inl ⟨k, bs2, rfl, hm1.trans hm2, .inl (by rw [hk, hm1.source.2.2.1])⟩
    | ok nlen bs2 =>
      have hm2 := hm1.trans (BitStream.readBits_moved h2)
      obtain ⟨-, he2, -⟩ := BitStream.readBits_ok h2
      have he : bs2 = s.stream.seek (s.stream.align.pos + 32) := by
        rw [he2, he1, BitStream.seek_pos, BitStream.seek_seek, Nat.add_assoc]
        rw [BitStream.align_eq_seek, BitStream.seek_pos, BitStream.seek_seek]
      dsimp only
      split
      · exact .inr ⟨len, hlen, by rw [he], he ▸ hm2⟩
      · exact .inl ⟨_, bs2, rfl, hm2, .inr rfl⟩

/-- Everything a Stored copy step can do. -/
theorem stepStoredCopy_cases (s : State) :
    (s.storedRem = 0 ∧ stepStoredCopy s = .fault .storedCountZero) ∨
    (∃ k bs, s.storedRem ≠ 0 ∧ stepStoredCopy s = .next (raiseError k { s with stream := bs }) ∧ s.stream.Moved bs ∧
      (k = endError s.stream.srcEnd ∨ (k = .outputOverflow ∧ s.outCap = some s.outLen))) ∨
    (∃ b, s.storedRem ≠ 0 ∧ s.outCap ≠ some s.outLen ∧ stepStoredCopy s = .next { s with
        stream := s.stream.seek (s.stream.pos + 8)
        out := s.out.write s.outLen b
        outLen := s.outLen + 1
        storedRem := s.storedRem - 1
        phase := if s.storedRem = 1 then .checkFinal else .storedCopy } ∧
      s.stream.Moved (s.stream.seek (s.stream.pos + 8))) := by
  unfold stepStoredCopy
  split
  · exact .inl ⟨‹_›, rfl⟩
  · rename_i hne
    refine .inr ?_
    cases h1 : s.stream.readBits 8 with
    | raise k bs1 =>
      obtain ⟨hk, hm1⟩ := BitStream.readBits_raise_moved h1
      exact .inl ⟨k, bs1, hne, rfl, hm1, .inl hk⟩
    | ok v bs1 =>
      have hm1 := BitStream.readBits_moved h1
      obtain ⟨-, he1, -⟩ := BitStream.readBits_ok h1
      dsimp only
      cases h2 : outWrite (BitVec.ofNat 8 v) { s with stream := bs1 } with
      | error k =>
        obtain ⟨hc, rfl⟩ := outWrite_error h2
        exact .inl ⟨_, bs1, hne, rfl, hm1, .inr ⟨rfl, hc⟩⟩
      | ok s' =>
        obtain ⟨hc, rfl⟩ := outWrite_ok h2
        exact .inr ⟨BitVec.ofNat 8 v, hne, hc, by rw [he1], he1 ▸ hm1⟩

/-- Everything a counts step can do. -/
theorem stepDynCounts_cases (s : State) :
    (∃ hl hd bs, stepDynCounts s = .next (raiseError (endError s.stream.srcEnd)
        { s with hlit := hl, hdist := hd, stream := bs }) ∧ s.stream.Moved bs) ∨
    (∃ hl hd hc, stepDynCounts s = .next { s with
        stream := s.stream.seek (s.stream.pos + 14)
        hlit := hl
        hdist := hd
        hclen := hc
        clLen := Vector.replicate 19 0
        lens := Vector.replicate 320 0
        clIdx := 0
        lenIdx := 0
        phase := .dynClLen } ∧ s.stream.Moved (s.stream.seek (s.stream.pos + 14))) := by
  unfold stepDynCounts
  cases h1 : s.stream.readBits 5 with
  | raise k bs1 =>
    obtain ⟨hk, hm1⟩ := BitStream.readBits_raise_moved h1
    exact .inl ⟨s.hlit, s.hdist, bs1, by rw [hk]; rfl, hm1⟩
  | ok v1 bs1 =>
    have hm1 := BitStream.readBits_moved h1
    obtain ⟨-, he1, -⟩ := BitStream.readBits_ok h1
    dsimp only
    cases h2 : bs1.readBits 5 with
    | raise k bs2 =>
      obtain ⟨hk, hm2⟩ := BitStream.readBits_raise_moved h2
      exact .inl ⟨BitVec.ofNat 5 v1, s.hdist, bs2, by rw [hk, hm1.source.2.2.1]; rfl, hm1.trans hm2⟩
    | ok v2 bs2 =>
      have hm2 := hm1.trans (BitStream.readBits_moved h2)
      obtain ⟨-, he2, -⟩ := BitStream.readBits_ok h2
      dsimp only
      cases h3 : bs2.readBits 4 with
      | raise k bs3 =>
        obtain ⟨hk, hm3⟩ := BitStream.readBits_raise_moved h3
        exact .inl ⟨BitVec.ofNat 5 v1, BitVec.ofNat 5 v2, bs3, by rw [hk, hm2.source.2.2.1]; rfl, hm2.trans hm3⟩
      | ok v3 bs3 =>
        have hm3 := hm2.trans (BitStream.readBits_moved h3)
        obtain ⟨-, he3, -⟩ := BitStream.readBits_ok h3
        have he : bs3 = s.stream.seek (s.stream.pos + 14) := by
          rw [he3, he2, he1]; simp [Nat.add_assoc]
        exact .inr ⟨BitVec.ofNat 5 v1, BitVec.ofNat 5 v2, BitVec.ofNat 4 v3, by rw [← he], he ▸ hm3⟩

/-- Everything the end of a code-length value step can do. -/
theorem endClLenStep_cases (s : State) :
    (s.clIdx.toNat ≠ clCount s ∧ endClLenStep s = s) ∨
    (s.clIdx.toNat = clCount s ∧ (clTable s).isSome ∧ endClLenStep s = { s with phase := .dynLens }) ∨
    (s.clIdx.toNat = clCount s ∧ clTable s = none ∧ endClLenStep s = raiseError .malformedCodeLengths s) := by
  unfold endClLenStep
  split
  · cases h : clTable s with
    | none => exact .inr (.inr ⟨‹_›, rfl, rfl⟩)
    | some t => exact .inr (.inl ⟨‹_›, rfl, rfl⟩)
  · exact .inl ⟨‹_›, rfl⟩

/-- Everything a code-length value step can do. -/
theorem stepDynClLen_cases (s : State) :
    (19 ≤ s.clIdx.toNat ∧ stepDynClLen s = .fault .clIndexPastOrder) ∨
    (∃ bs, s.clIdx.toNat < 19 ∧ stepDynClLen s = .next (raiseError (endError s.stream.srcEnd)
        { s with stream := bs }) ∧ s.stream.Moved bs) ∨
    (∃ v, v < 2 ^ 3 ∧ s.clIdx.toNat < 19 ∧
      stepDynClLen s = .next (endClLenStep (writeClLen v { s with stream := s.stream.seek (s.stream.pos + 3) })) ∧
      s.stream.Moved (s.stream.seek (s.stream.pos + 3))) := by
  unfold stepDynClLen
  by_cases h : s.clIdx.toNat < 19
  · rw [if_pos (show s.clIdx.toNat < Config.clSize from h)]
    refine .inr ?_
    cases h1 : s.stream.readBits 3 with
    | raise k bs1 =>
      obtain ⟨hk, hm1⟩ := BitStream.readBits_raise_moved h1
      exact .inl ⟨bs1, h, by rw [hk]; rfl, hm1⟩
    | ok v bs1 =>
      have hm1 := BitStream.readBits_moved h1
      obtain ⟨hv, he1, -⟩ := BitStream.readBits_ok h1
      exact .inr ⟨v, hv, h, by rw [← he1], he1 ▸ hm1⟩
  · rw [if_neg (show ¬ s.clIdx.toNat < Config.clSize from h)]
    exact .inl ⟨by omega, rfl⟩

/-- Everything a copy step can do. -/
theorem stepCopy_cases (s : State) :
    (s.copyRem = 0 ∧ stepCopy s = .fault .copyCountZero) ∨
    (s.copyRem ≠ 0 ∧ (s.matchDist = 0 ∨ s.outLen < s.matchDist.toNat) ∧ stepCopy s = .fault .outReadPastEnd) ∨
    (s.copyRem ≠ 0 ∧ s.matchDist ≠ 0 ∧ s.matchDist.toNat ≤ s.outLen ∧
      ((s.outCap = some s.outLen ∧ stepCopy s = .next (raiseError .outputOverflow s)) ∨
       (s.outCap ≠ some s.outLen ∧ stepCopy s = .next { s with
          out := s.out.write s.outLen (s.out.read (s.outLen - s.matchDist.toNat))
          outLen := s.outLen + 1
          copyRem := s.copyRem - 1
          phase := if s.copyRem = 1 then .sym else .copy }))) := by
  unfold stepCopy
  split
  · exact .inl ⟨‹_›, rfl⟩
  · rename_i hne
    refine .inr ?_
    by_cases hd : s.matchDist.toNat ≤ s.outLen
    · have hsrc : copySource s = some (s.outLen - s.matchDist.toNat) := by simp [copySource, hd]
      rw [hsrc]
      dsimp only [Option.bind_some]
      by_cases h0 : s.matchDist = 0
      · have : outRead (s.outLen - s.matchDist.toNat) s = none := by simp [outRead, h0]
        rw [this]
        exact .inl ⟨hne, .inl h0, rfl⟩
      · have hpos : 0 < s.matchDist.toNat := by
          rcases Nat.eq_zero_or_pos s.matchDist.toNat with hz | hz
          · exact absurd (BitVec.eq_of_toNat_eq hz) h0
          · exact hz
        have : outRead (s.outLen - s.matchDist.toNat) s = some (s.out.read (s.outLen - s.matchDist.toNat)) := by
          rw [outRead, if_pos (by omega)]
        rw [this]
        refine .inr ⟨hne, h0, hd, ?_⟩
        dsimp only
        cases h2 : outWrite (s.out.read (s.outLen - s.matchDist.toNat)) s with
        | error k => obtain ⟨hc, rfl⟩ := outWrite_error h2; exact .inl ⟨hc, rfl⟩
        | ok s' => obtain ⟨hc, rfl⟩ := outWrite_ok h2; exact .inr ⟨hc, rfl⟩
    · have hsrc : copySource s = none := by simp [copySource, hd]
      rw [hsrc]
      exact .inl ⟨hne, .inr (by omega), rfl⟩

end Sys2Proof.Machine
end

