-- ==== Sys2Proof/Laws/Step.lean ====
section
/-! SUPPORT. What fetching, executing and stepping can do, said once: a fetch moves only the cursor and reads one
element of its space; a meaning never moves the cursor, never refuses, and faults in one unreachable case only. -/

namespace Sys2Proof.Machine

/-! ## Decoding -/

/-- The values a space's selecting value can take (R77). -/
def spaceSize (sp : Space) : Nat :=
  match sp with
  | .hdr => 8
  | .clSym => 19
  | .llSym => 288
  | .dSym => 32

/-- A value inside its space decodes, to an instruction of that space and that value. -/
theorem decodeElement_ok {sp : Space} {v : Nat} (hv : v < spaceSize sp) (x : Nat) :
    ∃ i, decodeElement sp v x = .ok i ∧ opSpace i = sp := by
  cases sp with
  | hdr =>
    simp only [spaceSize] at hv
    simp only [decodeElement, decodeHeader]
    have : v / 2 < 4 := by omega
    generalize v / 2 = q at this
    interval_cases q <;> exact ⟨_, rfl, rfl⟩
  | clSym =>
    simp only [spaceSize] at hv
    simp only [decodeElement, decodeCodeLength]
    split
    · exact ⟨_, rfl, rfl⟩
    · have : v - 16 < 3 := by omega
      generalize v - 16 = q at this
      interval_cases q <;> exact ⟨_, rfl, rfl⟩
  | llSym =>
    simp only [spaceSize] at hv
    simp only [decodeElement, decodeLiteralLength]
    split
    · exact ⟨_, rfl, rfl⟩
    · have : v - 256 < 32 := by omega
      generalize v - 256 = q at this
      interval_cases q <;> exact ⟨_, rfl, rfl⟩
  | dSym =>
    simp only [spaceSize] at hv
    simp only [decodeElement, decodeDistance]
    interval_cases v <;> exact ⟨_, rfl, rfl⟩

/-- What a successful header read says. -/
theorem readHeader_ok {bs bs' : BitStream} {v : Nat} (h : readHeader bs = .ok v bs') :
    v < 8 ∧ bs.Moved bs' ∧ bs.pos < bs'.pos := by
  unfold readHeader at h
  cases h1 : bs.readBits 1 with
  | raise k bs1 => rw [h1] at h; cases h
  | ok f bs1 =>
    rw [h1] at h
    dsimp only at h
    cases h2 : bs1.readBits 2 with
    | raise k bs2 => rw [h2] at h; cases h
    | ok t bs2 =>
      rw [h2] at h
      cases h
      have hm1 := BitStream.readBits_moved h1
      have hm2 := BitStream.readBits_moved h2
      obtain ⟨hf, he1, -⟩ := BitStream.readBits_ok h1
      obtain ⟨ht, -, -⟩ := BitStream.readBits_ok h2
      have := hm2.source.2.2.2
      refine ⟨by omega, hm1.trans hm2, ?_⟩
      rw [he1, BitStream.seek_pos] at this
      omega

/-- What a failing header read says. -/
theorem readHeader_raise {bs bs' : BitStream} {k : ErrKind} (h : readHeader bs = .raise k bs') :
    k = endError bs.srcEnd ∧ bs.Moved bs' := by
  unfold readHeader at h
  cases h1 : bs.readBits 1 with
  | raise k1 bs1 =>
    rw [h1] at h; cases h
    exact BitStream.readBits_raise_moved h1
  | ok f bs1 =>
    rw [h1] at h
    dsimp only at h
    have hm1 := BitStream.readBits_moved h1
    cases h2 : bs1.readBits 2 with
    | raise k2 bs2 =>
      rw [h2] at h; cases h
      obtain ⟨hk, hm2⟩ := BitStream.readBits_raise_moved h2
      exact ⟨by rw [hk, hm1.source.2.2.1], hm1.trans hm2⟩
    | ok t bs2 => rw [h2] at h; cases h

/-- Table `t` holds symbols of `sp` only. -/
def symbolsIn (sp : Space) (t : CodeTable) : Prop := ∀ e ∈ t, e.sym < spaceSize sp

/-- The tables of the state hold symbols of their spaces. -/
theorem spaceTable_symbols {sp : Space} {s : State} {t : CodeTable} (h : spaceTable sp s = some t) :
    symbolsIn sp t := by
  intro e he
  cases sp with
  | hdr => cases h; cases he
  | clSym => simpa [spaceSize] using (mem_buildTable (show buildTable _ _ = some t from h) he).1
  | llSym => simpa [spaceSize] using (mem_buildTable (show buildTable _ _ = some t from h) he).1
  | dSym => simpa [spaceSize] using (mem_buildTable (show buildTable _ _ = some t from h) he).1

theorem readValue_ok {sp : Space} {t : CodeTable} {bs bs' : BitStream} {v : Nat} (ht : symbolsIn sp t)
    (h : readValue sp t bs = .ok v bs') : v < spaceSize sp ∧ bs.Moved bs' ∧ bs.pos < bs'.pos := by
  cases sp with
  | hdr => exact readHeader_ok h
  | clSym | llSym | dSym =>
    obtain ⟨⟨e, he, rfl⟩, hm, hlt⟩ := decodeSymbol_ok h
    exact ⟨ht e he, hm, hlt⟩

theorem readValue_raise {sp : Space} {t : CodeTable} {bs bs' : BitStream} {k : ErrKind}
    (h : readValue sp t bs = .raise k bs') : bs.Moved bs' ∧ (k = endError bs.srcEnd ∨ k = .invalidHuffmanCode) := by
  cases sp with
  | hdr => obtain ⟨hk, hm⟩ := readHeader_raise h; exact ⟨hm, .inl hk⟩
  | clSym | llSym | dSym => exact decodeSymbol_raise h

/-- Everything decoding with a table of the space can answer: an instruction of the space, or a read error. It never
rejects a value. -/
theorem decode_cases {sp : Space} {t : CodeTable} (ht : symbolsIn sp t) (bs : BitStream) :
    (∃ i bs', decode sp t bs = .ok (.ok i) bs' ∧ opSpace i = sp ∧ bs.Moved bs' ∧ bs.pos < bs'.pos) ∨
    (∃ k bs', decode sp t bs = .raise k bs' ∧ bs.Moved bs' ∧ (k = endError bs.srcEnd ∨ k = .invalidHuffmanCode)) := by
  unfold decode
  cases h1 : readValue sp t bs with
  | raise k bs1 => exact .inr ⟨k, bs1, rfl, readValue_raise h1⟩
  | ok v bs1 =>
    obtain ⟨hv, hm1, hlt⟩ := readValue_ok ht h1
    dsimp only
    cases h2 : bs1.readBits (extraWidth sp v) with
    | raise k bs2 =>
      obtain ⟨hk, hm2⟩ := BitStream.readBits_raise_moved h2
      exact .inr ⟨k, bs2, rfl, hm1.trans hm2, .inl (by rw [hk, hm1.source.2.2.1])⟩
    | ok x bs2 =>
      have hm2 := BitStream.readBits_moved h2
      obtain ⟨i, hi, hsp⟩ := decodeElement_ok hv x
      exact .inl ⟨i, bs2, by simp [hi], hsp, hm1.trans hm2, hlt.trans_le hm2.source.2.2.2⟩

/-! ## Fetching -/

/-- Everything a fetch can answer. -/
theorem fetch_cases (sp : Space) (s : State) :
    (spaceTable sp s = none ∧ fetch sp s = .fault .tableNotBuilt) ∨
    (∃ i bs, fetch sp s = .instr i { s with stream := bs } ∧ opSpace i = sp ∧ s.stream.Moved bs ∧
      s.stream.pos < bs.pos) ∨
    (∃ k bs f, fetch sp s = .raised k { s with stream := bs, bfinal := f } ∧ (sp = .hdr ∨ f = s.bfinal) ∧
      s.stream.Moved bs ∧ (k = endError s.stream.srcEnd ∨ k = .invalidHuffmanCode)) := by
  unfold fetch
  cases ht : spaceTable sp s with
  | none => exact .inl ⟨rfl, rfl⟩
  | some t =>
    dsimp only
    rcases decode_cases (spaceTable_symbols ht) s.stream with ⟨i, bs, hd, hsp, hm, hlt⟩ | ⟨k, bs, hd, hm, hk⟩
    · exact .inr (.inl ⟨i, bs, by rw [hd], hsp, hm, hlt⟩)
    · refine .inr (.inr ⟨k, bs, (headerReadSoFar sp s).bfinal, ?_, ?_, hm, hk⟩)
      · rw [hd]
        cases sp with
        | hdr => dsimp only [headerReadSoFar]; split <;> rfl
        | clSym | llSym | dSym => rfl
      · cases sp with
        | hdr => exact .inl rfl
        | clSym | llSym | dSym => exact .inr rfl

/-! ## Executing -/

theorem endLensStep_stream (s : State) :
    (endLensStep s).stream = s.stream ∧ (endLensStep s).outCap = s.outCap ∧ (endLensStep s).freeTick = s.freeTick := by
  unfold endLensStep
  split
  · rcases finishHeader_cases s with ⟨-, -, h⟩ | ⟨-, h⟩ <;> rw [h] <;> exact ⟨rfl, rfl, rfl⟩
  · exact ⟨rfl, rfl, rfl⟩

theorem lensRun_stream (n : Nat) (v : CodeLen) (s : State) :
    (lensRun n v s).stream = s.stream ∧ (lensRun n v s).outCap = s.outCap ∧ (lensRun n v s).freeTick = s.freeTick := by
  rcases lensRun_cases n v s with ⟨-, h⟩ | ⟨-, h⟩ <;> rw [h]
  · exact ⟨rfl, rfl, rfl⟩
  · exact endLensStep_stream _

theorem distanceSymbol_stream (d x : Nat) (s : State) :
    (distanceSymbol d x s).stream = s.stream ∧ (distanceSymbol d x s).outCap = s.outCap ∧
      (distanceSymbol d x s).freeTick = s.freeTick := by
  rcases distanceSymbol_cases d x s with ⟨-, h⟩ | ⟨-, h⟩ <;> rw [h] <;> exact ⟨rfl, rfl, rfl⟩

theorem execLit_cases (b : Byte) (s : State) :
    (s.outCap = some s.outLen ∧ execLit b s = .next (raiseError .outputOverflow s)) ∨
    (s.outCap ≠ some s.outLen ∧
      execLit b s = .next { s with out := s.out.write s.outLen b, outLen := s.outLen + 1 }) := by
  unfold execLit
  cases h : outWrite b s with
  | error k => obtain ⟨hc, rfl⟩ := outWrite_error h; exact .inl ⟨hc, rfl⟩
  | ok s' => obtain ⟨hc, rfl⟩ := outWrite_ok h; exact .inr ⟨hc, rfl⟩

/-- A meaning answers a next state with the same stream, the same capacity and the same tick, but for `CL_LEN` at an
index no session reaches. -/
theorem exec_cases (i : Instr) (s : State) :
    (∃ t, exec i s = .next t ∧ t.stream = s.stream ∧ t.outCap = s.outCap ∧ t.freeTick = s.freeTick) ∨
    (∃ n, i = .clLen n ∧ total s ≤ s.lenIdx.toNat ∧ exec i s = .fault .lensIndexPastTotal) := by
  cases i
  case clLen n =>
    by_cases h : s.lenIdx.toNat < total s
    · exact .inl ⟨endLensStep (appendLens 1 n s), by simp [exec, execClLen, h], endLensStep_stream _⟩
    · exact .inr ⟨n, rfl, by omega, by simp [exec, execClLen, h]⟩
  case clRep16 x =>
    left
    simp only [exec, execClRep16]
    split
    · exact ⟨_, rfl, rfl, rfl, rfl⟩
    · exact ⟨_, rfl, lensRun_stream _ _ _⟩
  case clZero17 x => exact .inl ⟨_, rfl, lensRun_stream _ _ _⟩
  case clZero18 x => exact .inl ⟨_, rfl, lensRun_stream _ _ _⟩
  case lit b =>
    rcases execLit_cases b s with ⟨-, h⟩ | ⟨-, h⟩ <;> exact .inl ⟨_, h, rfl, rfl, rfl⟩
  all_goals first
    | exact .inl ⟨_, rfl, distanceSymbol_stream _ _ _⟩
    | exact .inl ⟨_, rfl, rfl, rfl, rfl⟩

/-! ## Stepping -/

/-- A step of an instruction phase that decodes an instruction runs it. -/
theorem stepInstr_of_fetch {sp : Space} {s s' : State} {i : Instr} (h : fetch sp s = .instr i s') :
    stepInstr sp s = exec i s' := by rw [stepInstr, h]

/-- Everything a step of an instruction phase can do. -/
theorem stepInstr_cases (sp : Space) (s : State) :
    (spaceTable sp s = none ∧ stepInstr sp s = .fault .tableNotBuilt) ∨
    (∃ i bs, stepInstr sp s = exec i { s with stream := bs } ∧ opSpace i = sp ∧ s.stream.Moved bs ∧
      s.stream.pos < bs.pos) ∨
    (∃ k bs f, stepInstr sp s = .next (raiseError k { s with stream := bs, bfinal := f }) ∧
      (sp = .hdr ∨ f = s.bfinal) ∧ s.stream.Moved bs ∧ (k = endError s.stream.srcEnd ∨ k = .invalidHuffmanCode)) := by
  rcases fetch_cases sp s with ⟨ht, h⟩ | ⟨i, bs, h, hr⟩ | ⟨k, bs, f, h, hr⟩
  · exact .inl ⟨ht, by rw [stepInstr, h]⟩
  · exact .inr (.inl ⟨i, bs, by rw [stepInstr, h], hr⟩)
  · exact .inr (.inr ⟨k, bs, f, by rw [stepInstr, h], hr⟩)

end Sys2Proof.Machine
end

