-- ==== Sys2Proof/Tests/Slice0.lean ====
section
/-! SUPPORT. The model's own tests: every constructor's decoding from a word written out bit by bit, the
well-formedness smoke test, single steps whose results come from spec/95_test_vectors.md or from the rules, and for
every obligation with hypotheses a concrete state that meets them. Bits are written first-read bit left. -/

namespace Sys2Proof.Tests

open Sys2Proof Sys2Proof.Machine

set_option Elab.async false

/-! ## Small streams and states -/

/-- The stream of these bits, the cursor at its first bit; pad bits of the last byte are 0. -/
def bitStream (e : SrcEnd) (bits : List Nat) : BitStream :=
  BitStream.place (bits.map fun b => b == 1) { bytes := [], len := 0, srcEnd := e, inPos := 0, bitOff := 0 }

/-- The stream of these bytes, the cursor at byte `pos`, bit `off`. -/
def byteStream (e : SrcEnd) (bytes : List Byte) (pos : Nat) (off : BitVec 3) : BitStream :=
  { bytes := Memory.ofBytes bytes, len := bytes.length, srcEnd := e, inPos := pos, bitOff := off }

/-- The reset state in phase `p` with these bits before it. -/
def stateAt (p : Phase) (bits : List Nat) : State := { State.reset with phase := p, stream := bitStream .eof bits }

/-- The table of a length array that builds. -/
def tableOf (lens : List Nat) (maxbits : Nat) : CodeTable := (buildTable lens maxbits).getD []

def litT : CodeTable := tableOf (natLens (padLens 288 fixedLit)) 15
def distT : CodeTable := tableOf (natLens (padLens 32 fixedDist)) 15
def dist32T : CodeTable := tableOf (List.replicate 32 5) 15
def clT : CodeTable := tableOf (List.replicate 19 5) 7

/-- The bits decode to the instruction and all of them are consumed. -/
def decodesTo (sp : Space) (t : CodeTable) (bits : List Nat) (i : Instr) : Bool :=
  match decode sp t (bitStream .eof bits) with
  | .ok (.ok j) bs => decide (j = i) && bs.pos == bits.length
  | _ => false

def allDecode (sp : Space) (t : CodeTable) (words : List (List Nat × Instr)) : Bool :=
  words.all fun w => decodesTo sp t w.1 w.2

/-- A check of the next state of a step or an action. -/
def nextIs (r : Result) (check : State → Bool) : Bool :=
  match r with
  | .next s => check s
  | .fault _ => false
  | .refused _ => false

/-! ## Decoding -/

/-- Fixed codes of R104. -/
theorem test_decode_literal_length :
    allDecode .llSym litT
    [([0, 0, 1, 1, 0, 0, 0, 0], .lit 0),
     ([0, 1, 1, 1, 0, 0, 0, 1], .lit 0x41),
     ([1, 0, 1, 1, 1, 1, 1, 1], .lit 143),
     ([1, 1, 0, 0, 1, 0, 0, 0, 0], .lit 144),
     ([1, 1, 1, 1, 1, 1, 1, 1, 1], .lit 255),
     ([0, 0, 0, 0, 0, 0, 0], .eob),
     ([1, 1, 0, 0, 0, 1, 1, 0], .inv286),
     ([1, 1, 0, 0, 0, 1, 1, 1], .inv287)] = true := by
  decide +kernel

/-- Length symbols 257..271: the fixed code of R104, then the extra field, bit 0 first. -/
theorem test_decode_length_a :
    allDecode .llSym litT
    [([0, 0, 0, 0, 0, 0, 1], .len257),
     ([0, 0, 0, 0, 0, 1, 0], .len258),
     ([0, 0, 0, 0, 0, 1, 1], .len259),
     ([0, 0, 0, 0, 1, 0, 0], .len260),
     ([0, 0, 0, 0, 1, 0, 1], .len261),
     ([0, 0, 0, 0, 1, 1, 0], .len262),
     ([0, 0, 0, 0, 1, 1, 1], .len263),
     ([0, 0, 0, 1, 0, 0, 0], .len264),
     ([0, 0, 0, 1, 0, 0, 1, 1], .len265 1),
     ([0, 0, 0, 1, 0, 1, 0, 1], .len266 1),
     ([0, 0, 0, 1, 0, 1, 1, 1], .len267 1),
     ([0, 0, 0, 1, 1, 0, 0, 1], .len268 1),
     ([0, 0, 0, 1, 1, 0, 1, 0, 1], .len269 2),
     ([0, 0, 0, 1, 1, 1, 0, 0, 1], .len270 2),
     ([0, 0, 0, 1, 1, 1, 1, 0, 1], .len271 2)] = true := by
  decide +kernel

/-- Length symbols 272..285. -/
theorem test_decode_length_b :
    allDecode .llSym litT
    [([0, 0, 1, 0, 0, 0, 0, 0, 1], .len272 2),
     ([0, 0, 1, 0, 0, 0, 1, 0, 1, 1], .len273 6),
     ([0, 0, 1, 0, 0, 1, 0, 0, 1, 1], .len274 6),
     ([0, 0, 1, 0, 0, 1, 1, 0, 1, 1], .len275 6),
     ([0, 0, 1, 0, 1, 0, 0, 0, 1, 1], .len276 6),
     ([0, 0, 1, 0, 1, 0, 1, 0, 1, 0, 1], .len277 10),
     ([0, 0, 1, 0, 1, 1, 0, 0, 1, 0, 1], .len278 10),
     ([0, 0, 1, 0, 1, 1, 1, 0, 1, 0, 1], .len279 10),
     ([1, 1, 0, 0, 0, 0, 0, 0, 0, 1, 0, 1], .len280 10),
     ([1, 1, 0, 0, 0, 0, 0, 1, 0, 1, 0, 0, 1], .len281 18),
     ([1, 1, 0, 0, 0, 0, 1, 0, 0, 1, 0, 0, 1], .len282 18),
     ([1, 1, 0, 0, 0, 0, 1, 1, 0, 1, 0, 0, 1], .len283 18),
     ([1, 1, 0, 0, 0, 1, 0, 0, 0, 1, 0, 0, 1], .len284 18),
     ([1, 1, 0, 0, 0, 1, 0, 1], .len285)] = true := by
  decide +kernel

/-- Distance symbols 0..15: the fixed code of R105, then the extra field. -/
theorem test_decode_distance_a :
    allDecode .dSym distT
    [([0, 0, 0, 0, 0], .dist0),
     ([0, 0, 0, 0, 1], .dist1),
     ([0, 0, 0, 1, 0], .dist2),
     ([0, 0, 0, 1, 1], .dist3),
     ([0, 0, 1, 0, 0, 1], .dist4 1),
     ([0, 0, 1, 0, 1, 1], .dist5 1),
     ([0, 0, 1, 1, 0, 0, 1], .dist6 2),
     ([0, 0, 1, 1, 1, 0, 1], .dist7 2),
     ([0, 1, 0, 0, 0, 0, 1, 1], .dist8 6),
     ([0, 1, 0, 0, 1, 0, 1, 1], .dist9 6),
     ([0, 1, 0, 1, 0, 0, 1, 0, 1], .dist10 10),
     ([0, 1, 0, 1, 1, 0, 1, 0, 1], .dist11 10),
     ([0, 1, 1, 0, 0, 0, 1, 0, 0, 1], .dist12 18),
     ([0, 1, 1, 0, 1, 0, 1, 0, 0, 1], .dist13 18),
     ([0, 1, 1, 1, 0, 0, 1, 0, 0, 0, 1], .dist14 34),
     ([0, 1, 1, 1, 1, 0, 1, 0, 0, 0, 1], .dist15 34)] = true := by
  decide +kernel

/-- Distance symbols 16..29. -/
theorem test_decode_distance_b :
    allDecode .dSym distT
    [([1, 0, 0, 0, 0, 0, 1, 0, 0, 0, 0, 1], .dist16 66),
     ([1, 0, 0, 0, 1, 0, 1, 0, 0, 0, 0, 1], .dist17 66),
     ([1, 0, 0, 1, 0, 0, 1, 0, 0, 0, 0, 0, 1], .dist18 130),
     ([1, 0, 0, 1, 1, 0, 1, 0, 0, 0, 0, 0, 1], .dist19 130),
     ([1, 0, 1, 0, 0, 0, 1, 0, 0, 0, 0, 0, 0, 1], .dist20 258),
     ([1, 0, 1, 0, 1, 0, 1, 0, 0, 0, 0, 0, 0, 1], .dist21 258),
     ([1, 0, 1, 1, 0, 0, 1, 0, 0, 0, 0, 0, 0, 0, 1], .dist22 514),
     ([1, 0, 1, 1, 1, 0, 1, 0, 0, 0, 0, 0, 0, 0, 1], .dist23 514),
     ([1, 1, 0, 0, 0, 0, 1, 0, 0, 0, 0, 0, 0, 0, 0, 1], .dist24 1026),
     ([1, 1, 0, 0, 1, 0, 1, 0, 0, 0, 0, 0, 0, 0, 0, 1], .dist25 1026),
     ([1, 1, 0, 1, 0, 0, 1, 0, 0, 0, 0, 0, 0, 0, 0, 0, 1], .dist26 2050),
     ([1, 1, 0, 1, 1, 0, 1, 0, 0, 0, 0, 0, 0, 0, 0, 0, 1], .dist27 2050),
     ([1, 1, 1, 0, 0, 0, 1, 0, 0, 0, 0, 0, 0, 0, 0, 0, 0, 1], .dist28 4098),
     ([1, 1, 1, 0, 1, 0, 1, 0, 0, 0, 0, 0, 0, 0, 0, 0, 0, 1], .dist29 4098)] = true := by
  decide +kernel

/-- A 32-entry distance table with every length 5, as a dynamic header with HDIST = 31 can send. -/
theorem test_decode_distance_dynamic :
    allDecode .dSym dist32T
    [([1, 1, 1, 1, 0], .invD30),
     ([1, 1, 1, 1, 1], .invD31),
     ([1, 1, 1, 0, 1, 1, 0, 0, 0, 0, 0, 0, 0, 0, 0, 0, 0, 0], .dist29 1)] = true := by
  decide +kernel

/-- A code-length table with 19 lengths of 5: the code of symbol v is v in 5 bits (R92, R93). -/
theorem test_decode_code_length :
    allDecode .clSym clT
    [([0, 0, 0, 0, 0], .clLen 0),
     ([0, 0, 0, 0, 1], .clLen 1),
     ([0, 1, 0, 0, 0], .clLen 8),
     ([0, 1, 1, 1, 1], .clLen 15),
     ([1, 0, 0, 0, 0, 0, 1], .clRep16 2),
     ([1, 0, 0, 0, 1, 0, 1, 1], .clZero17 6),
     ([1, 0, 0, 1, 0, 0, 1, 0, 0, 0, 0, 1], .clZero18 66)] = true := by
  decide +kernel

/-- BFINAL, then BTYPE bit 0 first (R70). -/
theorem test_decode_header :
    allDecode .hdr []
    [([1, 0, 0], .blkStored true),
     ([0, 1, 0], .blkFixed false),
     ([1, 0, 1], .blkDynamic true),
     ([1, 1, 1], .blkReserved true),
     ([0, 0, 1], .blkDynamic false),
     ([1, 1, 0], .blkFixed true),
     ([0, 0, 0], .blkStored false),
     ([0, 1, 1], .blkReserved false)] = true := by
  decide +kernel

/-- The words the fixed distance code leaves unused are rejected after 4 bits (95_test_vectors.md section 2.3). -/
theorem test_decode_fixed_distance_hole :
    decode .dSym distT (bitStream .eof [1, 1, 1, 1, 0]) =
      .raise .invalidHuffmanCode ((bitStream .eof [1, 1, 1, 1, 0]).seek 4) := by decide +kernel

/-- A truncated extra field raises at the end of the input (R74, R85). -/
theorem test_decode_truncated_extra :
    decode .dSym distT (byteStream .ioError [0x07] 0 0) =
      .raise .sourceError ((byteStream .ioError [0x07] 0 0).seek 8) := by decide +kernel

/-- Table words (opcode_table.json): a match word of each space, and a literal. -/
theorem test_decode_table_words :
    decodeTableWord 8 4 = some (.blkDynamic false) ∧ decodeTableWord 8 18 = some (.clZero18 0) ∧
    decodeTableWord 16 65 = some (.lit 65) ∧ decodeTableWord 16 285 = some .len285 ∧
    decodeTableWord 8 9 = some (.dist9 0) ∧ decodeTableWord 16 29 = some (.dist29 0) ∧
    decodeTableWord 16 288 = none ∧ decodeTableWord 24 0 = none := by decide +kernel

/-- The encoder writes the code of the fixed table and the extra field (R104, R74). -/
theorem test_encode_words :
    encode litT (.len281 17) = [true, true, false, false, false, false, false, true, true, false, false, false, true] ∧
    encode [] (.blkDynamic true) = [true, false, true] := by decide +kernel

/-! ## Well-formedness -/

/-- One ill-formed term for each check: a symbol whose length is 0 in its array is refused; in the same arrays a
symbol with a length, and every header, is accepted. -/
theorem test_wellFormed_smoke :
    let c : CodeLens := { cl := [1, 0, 1], lit := natLens (padLens 288 (fixedLit.take 257)),
                          dist := natLens (padLens 32 fixedDist) }
    wellFormed c (.clLen 1) = false ∧ wellFormed c (.clLen 2) = true ∧ wellFormed c (.clZero18 3) = false ∧
    wellFormed c .len257 = false ∧ wellFormed c .eob = true ∧
    wellFormed c .invD30 = false ∧ wellFormed c (.dist29 0) = true ∧
    wellFormed c (.blkReserved true) = true := by decide +kernel

/-! ## The bit reader, the tables and the steps, on the spec's vectors -/

/-- V-BS-1, V-BS-4, V-BS-7, V-BS-9, V-BS-10, V-BS-11. -/
theorem test_bitstream_vectors :
    (byteStream .eof [0x73, 0x74] 0 3).readBits 8 = .ok 0x8E (byteStream .eof [0x73, 0x74] 1 3) ∧
    (byteStream .eof [0xc0, 0x07] 0 6).readBits 5 = .ok 0x1F (byteStream .eof [0xc0, 0x07] 1 3) ∧
    (byteStream .eof [0xff, 0x00] 0 3).align.readBits 8 = .ok 0 (byteStream .eof [0xff, 0x00] 2 0) ∧
    (byteStream .eof [0xab] 1 0).readBits 0 = .ok 0 (byteStream .eof [0xab] 1 0) ∧
    (byteStream .eof [0xab] 0 4).readBits 8 = .raise .truncatedStream (byteStream .eof [0xab] 1 0) ∧
    (byteStream .ioError [0xab] 0 4).readBits 8 = .raise .sourceError (byteStream .ioError [0xab] 1 0) := by
  decide +kernel

/-- V-HF-2, V-HF-3, V-HF-4, V-HF-8, V-HF-9. -/
theorem test_huffman_vectors :
    buildTable [1, 1, 1] 15 = none ∧ buildTable [1, 1, 2] 15 = none ∧ buildTable [0, 0, 0] 15 = some [] ∧
    buildTable [2, 1, 0, 2] 15 = some [⟨2, 2, 0⟩, ⟨1, 0, 1⟩, ⟨2, 3, 3⟩] ∧
    decodeSymbol (tableOf [0, 3, 0, 3, 2, 2] 15) 15 (bitStream .eof [1, 1, 0]) =
      .raise .invalidHuffmanCode ((bitStream .eof [1, 1, 0]).seek 2) ∧
    decodeSymbol (tableOf [0, 3, 0, 3, 2, 2] 15) 15 (bitStream .eof [1, 0, 1]) =
      .ok 3 ((bitStream .eof [1, 0, 1]).seek 3) := by decide +kernel

/-- Example of R195: the bits `1, 1, 0` select a final Fixed block. -/
theorem test_step_header :
    nextIs (step (stateAt .hdr [1, 1, 0])) (fun t => t.phase == .sym && t.bfinal && t.btype == 1 &&
      t.stream.pos == 3 && t.litLens.toList.getD 256 0 == 7 && t.distLens.toList.getD 30 9 == 0) = true := by
  decide +kernel

/-- L1.6: header bits `1, 1, 1` end with STATUS 0x24. -/
theorem test_step_reserved :
    nextIs (step (stateAt .hdr [1, 1, 1])) (fun t => statusReg t == 0x24 && t.stream.pos == 3) = true := by
  decide +kernel

/-- Example of R200: after the header at `{0,3}`, bytes `05 00 FA FF` give `stored_rem = 5`. -/
theorem test_step_stored_length :
    nextIs (step { State.reset with phase := .storedLen, stream := byteStream .eof [0x01, 0x05, 0x00, 0xfa, 0xff] 0 3 })
      (fun t => t.phase == .storedCopy && t.storedRem == 5 && t.stream.inPos == 5) = true := by decide +kernel

/-- Example of R111: `HCLEN = 0` and the fourth value 1 give `cl_len[0] = 1` only. -/
theorem test_step_code_length_value :
    nextIs (step { stateAt .dynClLen [1, 0, 0] with clIdx := 3 })
      (fun t => t.phase == .dynLens && t.clLen.toList == 1 :: List.replicate 18 0) = true := by decide +kernel

/-- R113: symbol 16 repeats the previous entry `3 + 2` times and the run that reaches `total` completes the header. -/
theorem test_exec_repeat :
    nextIs (exec (.clRep16 2) { State.reset with lenIdx := 253, lens := (State.reset.lens).setIfInBounds 252 9 })
      (fun t => t.phase == .sym && t.litLens.toList.drop 251 == 0 :: List.replicate 5 9 ++ List.replicate 31 0 &&
        t.distLens.toList.getD 0 0 == 9) = true := by decide +kernel

/-- R154, R153: the longest length symbol 284 sends, and 285. -/
theorem test_exec_length_ends :
    nextIs (exec (.len284 31) State.reset) (fun t => t.matchLen == 258 && t.phase == .dist) = true ∧
    nextIs (exec .len285 State.reset) (fun t => t.matchLen == 258 && t.phase == .dist) = true := by decide +kernel

/-- R189, R159: the largest distance is legal at exactly 32768 bytes and raises one byte earlier. -/
theorem test_exec_distance_end :
    nextIs (exec (.dist29 8191) { State.reset with outLen := 32768, matchLen := 3 })
      (fun t => t.phase == .copy && t.matchDist.toNat == 32768 && t.copyRem == 3) = true ∧
    nextIs (exec (.dist29 8191) { State.reset with outLen := 32767, matchLen := 3 })
      (fun t => statusReg t == 0x74) = true := by decide +kernel

/-- Example of R190: `out = "abc"`, `match_dist = 3`: the first step appends `a`. -/
theorem test_step_copy :
    nextIs (step { State.reset with phase := .copy, out := Memory.ofBytes [0x61, 0x62, 0x63], outLen := 3,
                                    matchDist := 3, copyRem := 6 })
      (fun t => outBytes t == [0x61, 0x62, 0x63, 0x61] && t.copyRem == 5 && t.phase == .copy) = true := by
  decide +kernel

/-- Example of R203: a final block that ends at bit 26 gives `IN_CONSUMED = 4`. -/
theorem test_step_check_final :
    nextIs (step { State.reset with phase := .checkFinal, bfinal := true,
                                    stream := byteStream .eof [0x73, 0x74, 0x02, 0x00] 3 2 })
      (fun t => t.phase == .done && t.inConsumed == 4 && statusReg t == 0x02) = true := by decide +kernel

/-- A word placed by `withFetchWord` is the one the next step runs: EOB, and symbol 30 in a 32-entry table. -/
theorem test_withFetchWord :
    nextIs (step (State.reset.withFetchWord 16 256)) (fun t => t.phase == .checkFinal && t.stream.pos == 7) = true ∧
    nextIs (step (State.reset.withFetchWord 8 30)) (fun t => t.errCode == 6 && t.stream.pos == 5) = true := by
  decide +kernel

/-- R224, R54: the output port in DONE, and the write port over an append. -/
theorem test_host_ports :
    (hostReadOut 1 { State.reset with phase := .done, out := [(1, 0x42)], outLen := 2 }).1 = 0x42 ∧
    outWritePort State.reset { State.reset with out := [(0, 0x41)], outLen := 1 } = some (0, 0x41) ∧
    hostReadReg 1 (startSession State.reset) = 1 := by decide +kernel

/-! ## Witnesses: for each obligation with hypotheses, concrete inputs that meet them, clause by clause -/

theorem witness_StartActsOnlyWhenNotBusy :
    (0xFF#8).getLsbD 0 = true ∧ (0xFE#8).getLsbD 0 = false ∧ busy State.reset = false ∧
    busy (startSession State.reset) = true ∧ (1 : Nat) ≠ 0 := by decide +kernel

/-- A session's result: two bytes in DONE. -/
def doneState : State :=
  { State.reset with phase := .done, out := [(0, 0x41), (1, 0x42)], outLen := 2, inConsumed := 4,
                     stream := byteStream .eof [0x73, 0x74, 0x02, 0x00] 4 0 }

theorem witness_OutputPortShowsTheResultInDone : doneState.phase = .done ∧ 1 < doneState.outLen := by decide

/-- A Stored copy of the last byte: with room, at OUT_CAP, and past the end of the input. -/
def storedState (cap : Option Nat) (pos : Nat) : State :=
  { State.reset with phase := .storedCopy, storedRem := 1, outCap := cap, stream := byteStream .eof [0xff] pos 0 }

/-- A host that presents to a busy core: the same two bytes again, and one byte changed. -/
theorem witness_PresentedInputIsTheStream :
    busy doneState = false ∧ busy (storedState none 0) = true ∧
    (storedState none 0).stream.bytes.wf = true ∧
    (storedState none 0).stream.bytes.below (storedState none 0).stream.len = true ∧
    inputUnchanged [0xff] .eof none (storedState none 0) = true ∧
    (storedState none 0).stream.memRead 0 ≠ ([0xfe] : List Byte)[0]? := by decide

/-- R49, R225: presenting the same input again leaves a running session as it is. -/
theorem test_present_again_while_busy :
    nextIs (hostAct (.present [0xff] .eof none) (storedState none 0)) (fun t => t == storedState none 0) = true := by
  decide +kernel

theorem witness_ReadBitReadsTheCursorBit :
    (byteStream .eof [0x80] 0 7).inPos < (byteStream .eof [0x80] 0 7).len ∧
    (byteStream .eof [0x80] 1 0).len ≤ (byteStream .eof [0x80] 1 0).inPos ∧
    (byteStream .ioError [] 0 0).len ≤ (byteStream .ioError [] 0 0).inPos ∧
    (byteStream .eof [0x80] 1 0).srcEnd = .eof ∧ (byteStream .ioError [] 0 0).srcEnd = .ioError := by decide

theorem witness_ReadBitsAssemblesLowBitFirst :
    (byteStream .eof [0x34, 0x12] 0 0).pos + 16 ≤ 8 * (byteStream .eof [0x34, 0x12] 0 0).len ∧
    ((byteStream .eof [0xab] 0 4).pos ≤ 8 * (byteStream .eof [0xab] 0 4).len ∧
      8 * (byteStream .eof [0xab] 0 4).len < (byteStream .eof [0xab] 0 4).pos + 5) ∧
    (byteStream .eof [0xab] 1 0).pos ≤ 8 * (byteStream .eof [0xab] 1 0).len := by decide

theorem witness_AlignGoesToTheNextByteBoundary :
    (byteStream .eof [0xff] 0 7).bitOff ≠ 0 ∧ (byteStream .eof [0xff] 1 0).bitOff = 0 := by decide

/-- The source's example lengths; also an array that over-subscribes and one that just fits. -/
theorem witness_tables :
    (∀ l ∈ [3, 3, 3, 3, 3, 2, 4, 4], l ≤ 15) ∧ (buildTable [3, 3, 3, 3, 3, 2, 4, 4] 15).isSome = true ∧
    (∀ l ∈ [1, 1, 15], l ≤ 15) ∧ buildTable [1, 1, 15] 15 = none ∧
    2 ^ 15 < (([1, 1, 15].filter fun l => l != 0).map fun l => 2 ^ (15 - l)).sum ∧
    (buildTable [1, 1] 15).isSome = true := by decide +kernel

theorem witness_BuildRejectsExactlyOverSubscription : ∀ l ∈ [1, 1, 15], l ≤ 15 := witness_tables.2.2.1

theorem witness_CodesFollowTheCanonicalAssignment :
    (∀ l ∈ [3, 3, 3, 3, 3, 2, 4, 4], l ≤ 15) ∧
    buildTable [3, 3, 3, 3, 3, 2, 4, 4] 15 = some (tableOf [3, 3, 3, 3, 3, 2, 4, 4] 15) := by decide +kernel

theorem witness_CanonicalCodesArePrefixFree :
    buildTable [3, 3, 3, 3, 3, 2, 4, 4] 15 = some (tableOf [3, 3, 3, 3, 3, 2, 4, 4] 15) ∧
    (⟨2, 0, 5⟩ : CodeEntry) ∈ tableOf [3, 3, 3, 3, 3, 2, 4, 4] 15 ∧
    (⟨4, 15, 7⟩ : CodeEntry) ∈ tableOf [3, 3, 3, 3, 3, 2, 4, 4] 15 := by decide +kernel

/-- Symbol 6 of the example, on its own code and on another string of 4 bits. -/
theorem witness_DecodeSymbolReadsBackEveryCode :
    [3, 3, 3, 3, 3, 2, 4, 4].getD 6 0 ≠ 0 ∧
    (bitStream .eof [1, 1, 1, 0, 0, 0, 0, 0]).remaining = codeBits 4 14 ++ List.replicate 4 false ∧
    (bitStream .eof [1, 1, 1, 1, 0, 0, 0, 0]).remaining = [true, true, true, true] ++ List.replicate 4 false ∧
    [true, true, true, true] ≠ codeBits 4 14 := by decide +kernel

theorem witness_HeaderStepReadsThreeBits :
    (stateAt .hdr [1, 0, 1]).phase = .hdr ∧
    (stateAt .hdr [1, 0, 1]).stream.remaining = true :: false :: true :: List.replicate 5 false ∧
    ({ stateAt .hdr [] with stream := byteStream .eof [0xff] 0 6 }).stream.remaining.length = 2 := by decide +kernel

/-- LEN 0 and 0xFFFF with their complements, LEN 5 without, and a stream one bit short. -/
theorem witness_StoredLengthStep :
    (byteStream .eof [0x01, 0, 0, 0xff, 0xff] 0 3).align.remaining =
      List.replicate 16 false ++ List.replicate 16 true ++ [] ∧
    bitsValue (List.replicate 16 true) = bitsValue (List.replicate 16 false) ^^^ 0xFFFF ∧
    (byteStream .eof [0xff, 0xff, 0, 0] 0 0).align.remaining =
      List.replicate 16 true ++ List.replicate 16 false ++ [] ∧
    bitsValue (List.replicate 16 false) = bitsValue (List.replicate 16 true) ^^^ 0xFFFF ∧
    (byteStream .eof [0, 0, 0, 0] 0 0).align.remaining =
      List.replicate 16 false ++ List.replicate 16 false ++ [] ∧
    bitsValue (List.replicate 16 false) ≠ bitsValue (List.replicate 16 false) ^^^ 0xFFFF ∧
    (byteStream .eof [0, 0, 0, 0xff] 0 1).align.remaining.length < 32 := by decide +kernel

theorem witness_StoredCopyStepCopiesOneByte :
    (∀ s ∈ [storedState none 0, storedState (some 0) 0, storedState none 1],
      s.phase = .storedCopy ∧ s.storedRem ≠ 0 ∧ s.stream.bitOff = 0) ∧
    (storedState none 0).stream.inPos < (storedState none 0).stream.len ∧
    (storedState none 0).outCap ≠ some (storedState none 0).outLen ∧
    (storedState (some 0) 0).outCap = some (storedState (some 0) 0).outLen ∧
    (storedState none 1).stream.len ≤ (storedState none 1).stream.inPos := by decide +kernel

theorem witness_StoredBlockRoundTrip :
    ([0x00, 0xff] : List Byte).length ≤ 65535 ∧ (0xF9#8).toNat % 8 = 1 ∧
    (∀ c, some 2 = some c → ([0x00, 0xff] : List Byte).length ≤ c) ∧ busy State.reset = false := by
  refine ⟨by decide, by decide, fun c h => ?_, by decide⟩
  cases h
  decide

theorem witness_DynamicCountsStep :
    (stateAt .dynCounts []).phase = .dynCounts ∧
    (byteStream .eof [0xff, 0x03] 0 0).remaining =
      List.replicate 5 true ++ List.replicate 5 true ++ List.replicate 4 false ++ List.replicate 2 false ∧
    (byteStream .eof [0xff, 0x03] 0 3).remaining.length < 14 := by decide +kernel

/-- The last code-length value, the one before it, a value that over-subscribes, and a stream 1 bit short. -/
def clState (idx : BitVec 5) (lens : List (BitVec 3)) : State :=
  { stateAt .dynClLen [1, 0, 0] with
    clIdx := idx, hclen := 15, clLen := ⟨((lens ++ List.replicate 19 0).take 19).toArray, by simp⟩ }

theorem witness_CodeLengthValueStep :
    (clState 18 []).phase = .dynClLen ∧ (clState 18 []).clIdx.toNat < 19 ∧
    (clState 18 []).stream.remaining = true :: false :: false :: List.replicate 5 false ∧
    (clState 18 []).clIdx.toNat + 1 = (clState 18 []).hclen.toNat + 4 ∧
    (clState 17 []).clIdx.toNat + 1 ≠ (clState 17 []).hclen.toNat + 4 ∧
    (buildTable (natLens ((clState 18 []).clLen.setIfInBounds 15 1)) 7).isSome = true ∧
    buildTable (natLens ((clState 18 [1, 1]).clLen.setIfInBounds 15 1)) 7 = none ∧
    ({ clState 18 [] with stream := byteStream .eof [0xff] 0 6 }).stream.remaining.length < 3 := by decide +kernel

/-- `len_idx` at 0 and at `total - 1`. -/
theorem witness_CodeLengthSymbolAppendsItself :
    State.reset.lenIdx.toNat < total State.reset ∧
    ({ State.reset with lenIdx := 257 }).lenIdx.toNat + 1 = total { State.reset with lenIdx := 257 } ∧
    ({ State.reset with lenIdx := 319, hlit := 31, hdist := 31 }).lenIdx.toNat + 1 =
      total { State.reset with lenIdx := 319, hlit := 31, hdist := 31 } := by decide +kernel

/-- Runs that end exactly at `total = 258`. -/
theorem witness_RepeatAndZeroRunsWriteTheirRun :
    ({ State.reset with lenIdx := 252 }).lenIdx ≠ 0 ∧
    ({ State.reset with lenIdx := 252 }).lenIdx.toNat + (3 + (3 : BitVec 2).toNat) ≤ total { State.reset with lenIdx := 252 } ∧
    ({ State.reset with lenIdx := 248 }).lenIdx.toNat + (3 + (7 : BitVec 3).toNat) ≤ total { State.reset with lenIdx := 248 } ∧
    ({ State.reset with lenIdx := 120 }).lenIdx.toNat + (11 + (127 : BitVec 7).toNat) ≤
      total { State.reset with lenIdx := 120 } := by decide +kernel

/-- Runs one entry too long, and a repeat with nothing to repeat. -/
theorem witness_RunsPastTheEndRaise :
    State.reset.lenIdx = 0 ∧
    total { State.reset with lenIdx := 253 } < ({ State.reset with lenIdx := 253 }).lenIdx.toNat + (3 + (3 : BitVec 2).toNat) ∧
    total { State.reset with lenIdx := 249 } < ({ State.reset with lenIdx := 249 }).lenIdx.toNat + (3 + (7 : BitVec 3).toNat) ∧
    total { State.reset with lenIdx := 121 } <
      ({ State.reset with lenIdx := 121 }).lenIdx.toNat + (11 + (127 : BitVec 7).toNat) := by decide +kernel

/-- Both ends of header completion: all lengths 0 build, three lengths of 1 do not. -/
theorem witness_HeaderCompletionSplitsAndBuilds :
    (litTable (splitLens State.reset)).isSome = true ∧ (distTable (splitLens State.reset)).isSome = true ∧
    (litTable (splitLens { State.reset with lens := writeRun 1 3 0 State.reset.lens })).isSome = false := by
  decide +kernel

theorem witness_LiteralAppendsItsByte :
    State.reset.out.wf = true ∧ State.reset.outCap ≠ some State.reset.outLen ∧
    ({ State.reset with outCap := some 0 }).outCap = some ({ State.reset with outCap := some 0 }).outLen := by decide +kernel

/-- A Fixed block at symbol 287, and a dynamic block at distance symbol 31. -/
def fixedAt (p : Phase) (bits : List Nat) : State := loadFixed { stateAt p bits with btype := 1 }

theorem witness_EndOfBlockAndInvalidSymbols :
    (fixedAt .sym []).phase = .sym ∧ litTable (fixedAt .sym []) = some litT ∧
    decodeSymbol litT 15 (bitStream .eof [1, 1, 0, 0, 0, 1, 1, 0]) =
      .ok 286 ((bitStream .eof [1, 1, 0, 0, 0, 1, 1, 0]).seek 8) ∧
    decodeSymbol litT 15 (bitStream .eof [1, 1, 0, 0, 0, 1, 1, 1]) =
      .ok 287 ((bitStream .eof [1, 1, 0, 0, 0, 1, 1, 1]).seek 8) ∧
    (stateAt .dist []).phase = .dist ∧
    distTable { stateAt .dist [] with distLens := Vector.replicate 32 5 } = some dist32T ∧
    decodeSymbol dist32T 15 (bitStream .eof [1, 1, 1, 1, 0]) = .ok 30 ((bitStream .eof [1, 1, 1, 1, 0]).seek 5) ∧
    decodeSymbol dist32T 15 (bitStream .eof [1, 1, 1, 1, 1]) = .ok 31 ((bitStream .eof [1, 1, 1, 1, 1]).seek 5) := by
  decide +kernel

/-- Distance 2 with 2 bytes and with 1 byte in the output (the two clauses of `EntersCopy`). -/
theorem witness_DistanceSymbolsSetTheMatchDistance :
    2 ≤ ({ State.reset with outLen := 2 }).outLen ∧ ({ State.reset with outLen := 1 }).outLen < 2 := by decide

/-- Three bytes to copy at distance 1 in a Fixed block. -/
def copyState (cap : Option Nat) (rem : BitVec 9) : State :=
  { fixedAt .copy [] with
    out := [(0, 0x61)], outLen := 1, matchLen := 3, matchDist := 1, copyRem := rem, outCap := cap }

theorem witness_CopyStepRepeatsAnEarlierByte :
    (∀ s ∈ [copyState none 3, copyState (some 1) 1], s.phase = .copy ∧ s.copyRem ≠ 0 ∧ 1 ≤ s.matchDist.toNat ∧
      s.matchDist.toNat ≤ s.outLen ∧ s.out.wf = true) ∧
    (copyState none 3).outCap ≠ some (copyState none 3).outLen ∧
    (copyState (some 1) 1).outCap = some (copyState (some 1) 1).outLen := by decide +kernel

theorem witness_BackReferenceIsAByteByByteCopy :
    (copyState (some 4) 3).phase = .copy ∧ (copyState (some 4) 3).copyRem ≠ 0 ∧
    1 ≤ (copyState (some 4) 3).matchDist.toNat ∧ (copyState (some 4) 3).matchDist.toNat ≤ (copyState (some 4) 3).outLen ∧
    (copyState (some 4) 3).out.wf = true ∧
    (∀ c, (copyState (some 4) 3).outCap = some c →
      (copyState (some 4) 3).outLen + (copyState (some 4) 3).copyRem.toNat ≤ c) := by
  refine ⟨rfl, by decide, by decide, by decide, by decide, fun c h => ?_⟩
  cases h
  decide

/-- A state inside a back-reference meets every clause of the invariant. -/
theorem copyState_inv : Inv (copyState none 3) where
  inputWf := rfl
  inputBelow := rfl
  outputWf := by decide
  outputBelow := by decide
  errorIff := by decide
  errorLegal := by decide
  consumedZero := by decide
  consumedDone := fun h => nomatch h
  cursorInside := by decide
  outputCapped := fun _ _ h => nomatch h
  blockType := .inl rfl
  storedCopying := fun h => nomatch h
  clReading := fun h => nomatch h
  lensReading := fun h => nomatch h
  tablesBuilt := fun _ => by decide +kernel
  matchLength := fun _ => by decide
  copying := fun _ => by decide

/-- A finished session meets every clause of the invariant and is not busy. -/
theorem doneState_inv : Inv doneState where
  inputWf := by decide
  inputBelow := by decide
  outputWf := by decide
  outputBelow := by decide
  errorIff := by decide
  errorLegal := by decide
  consumedZero := fun h => absurd rfl h
  consumedDone := by decide
  cursorInside := fun h => nomatch h
  outputCapped := fun h => nomatch h
  blockType := (by decide : doneState.btype ≠ 3)
  storedCopying := fun h => nomatch h
  clReading := fun h => nomatch h
  lensReading := fun h => nomatch h
  tablesBuilt := fun h => nomatch h
  matchLength := fun h => nomatch h
  copying := fun h => nomatch h

theorem witness_CopyStaysInsideTheWindow : Inv (copyState none 3) ∧ (copyState none 3).phase = .copy :=
  ⟨copyState_inv, rfl⟩

theorem witness_FinalCheckEndsOrContinues :
    (stateAt .checkFinal []).phase = .checkFinal ∧ (stateAt .checkFinal []).bfinal = false ∧
    ({ stateAt .checkFinal [] with bfinal := true }).bfinal = true := by decide +kernel

theorem witness_QuiescentPhasesNeverChange :
    State.reset.phase = .idle ∧ doneState.phase = .done ∧ (stateAt .error []).phase = .error := by decide

/-- The steps that decode: `A` in a Fixed block, and a Fixed distance word without a symbol. -/
theorem witness_StepRunsTheDecodedInstruction :
    (fixedAt .sym [0, 1, 1, 1, 0, 0, 0, 1]).phase = spacePhase .llSym ∧
    spaceTable .llSym (fixedAt .sym [0, 1, 1, 1, 0, 0, 0, 1]) = some litT ∧
    decode .llSym litT (fixedAt .sym [0, 1, 1, 1, 0, 0, 0, 1]).stream =
      .ok (.ok (.lit 0x41)) ((fixedAt .sym [0, 1, 1, 1, 0, 0, 0, 1]).stream.seek 8) ∧
    (fixedAt .dist [1, 1, 1, 1, 0]).phase = spacePhase .dSym ∧
    spaceTable .dSym (fixedAt .dist [1, 1, 1, 1, 0]) = some distT ∧
    decode .dSym distT (fixedAt .dist [1, 1, 1, 1, 0]).stream =
      .raise .invalidHuffmanCode ((fixedAt .dist [1, 1, 1, 1, 0]).stream.seek 4) := by decide +kernel

theorem witness_DecodeReadsBackEncode :
    spaceTable (opSpace (.dist29 8191)) (fixedAt .dist (List.replicate 24 1)) = some distT ∧
    wellFormed (codeLens (fixedAt .dist [])) (.dist29 8191) = true ∧
    (fixedAt .dist [1, 1, 1, 0, 1, 1, 1, 1, 1, 1, 1, 1, 1, 1, 1, 1, 1, 1, 1, 1, 1, 1, 1, 1]).stream.remaining =
      encode distT (.dist29 8191) ++ List.replicate 6 true := by decide +kernel

/-- The state inside a back-reference takes its step. -/
theorem witness_StepKeepsTheInvariant :
    Inv (copyState none 3) ∧ ∃ s', step (copyState none 3) = .next s' ∧ s'.outLen = 2 :=
  ⟨copyState_inv, _, rfl, rfl⟩

theorem witness_HostActionsKeepTheInvariant :
    (Inv doneState ∧ hostAct (.writeReg 0 1) doneState = .next (startSession doneState)) ∧
    Inv (copyState none 3) ∧ busy (copyState none 3) = true ∧
    ∃ t, hostAct (.present [0xff] .eof none) (copyState none 3) = .next t :=
  ⟨⟨doneState_inv, rfl⟩, copyState_inv, rfl, _, rfl⟩

theorem witness_InvariantStatesAlwaysStep : Inv (copyState none 3) := copyState_inv

theorem witness_ReachableStatesMeetTheInvariant : Reachable (startSession State.reset) :=
  .host (.writeReg 0 1) .reset rfl

theorem witness_EverySessionEnds :
    (Inv (copyState none 3) ∧ busy (copyState none 3) = true ∧ ∃ s', step (copyState none 3) = .next s') ∧
    Inv doneState ∧ busy doneState = false :=
  ⟨⟨copyState_inv, rfl, _, rfl⟩, doneState_inv, rfl⟩

theorem witness_SessionsDependOnlyOnTheirArguments :
    busy doneState = false ∧ busy { doneState with phase := .error, errCode := 9, freeTick := 7 } = false ∧
    ∃ t, runSteps 1 (hostWriteReg 0 1 doneState) = .next t :=
  ⟨rfl, rfl, _, rfl⟩

/-- A step that moves the cursor and appends: the header-less Stored copy. -/
theorem witness_CursorNeverMovesBack :
    ∃ s', step (storedState none 0) = .next s' ∧ s'.stream.inPos = 1 ∧ s'.outLen = 1 := ⟨_, rfl, rfl, rfl⟩

theorem witness_OutputIsAppendOnly :
    (copyState none 3).out.wf = true ∧ ∃ s', step (copyState none 3) = .next s' := ⟨by decide, _, rfl⟩

/-- A step of the copy phase, in which every writer clause but those of `copy_rem` and the output applies. -/
theorem witness_EachRegisterHasItsWriters :
    (copyState none 3).phase = .copy ∧ ∃ s', step (copyState none 3) = .next s' ∧ s'.phase ≠ .error :=
  ⟨rfl, _, rfl, by decide⟩

/-- The invariant as a check that evaluates. -/
def invCheck (s : State) : Bool :=
  decide (s.stream.bytes.wf = true ∧ s.stream.bytes.below s.stream.len = true ∧ s.out.wf = true ∧
    s.out.below s.outLen = true ∧ (s.phase = .error ↔ s.errCode ≠ 0) ∧ s.errCode.toNat ≤ 9 ∧
    (s.phase ≠ .done → s.inConsumed = 0) ∧
    (s.phase = .done → s.inConsumed = s.stream.inPos ∧ s.stream.bitOff = 0) ∧
    (busy s = true → s.stream.pos ≤ 8 * s.stream.len) ∧
    (busy s = true → ∀ c ∈ s.outCap, s.outLen ≤ c)) &&
  decide ((s.phase = .hdr ∨ s.phase = .checkFinal ∨ s.phase = .done → s.btype ≠ 3) ∧
    (s.phase = .storedLen ∨ s.phase = .storedCopy → s.btype = 0) ∧
    (s.phase = .dynCounts ∨ s.phase = .dynClLen ∨ s.phase = .dynLens → s.btype = 2) ∧
    (s.phase = .sym ∨ s.phase = .dist ∨ s.phase = .copy → s.btype = 1 ∨ s.btype = 2) ∧
    (s.phase = .storedCopy → s.storedRem ≠ 0 ∧ s.stream.bitOff = 0) ∧
    (s.phase = .dynClLen → s.clIdx.toNat < clCount s ∧ s.lenIdx = 0) ∧
    (s.phase = .dynLens → s.lenIdx.toNat < total s ∧ (clTable s).isSome = true) ∧
    (s.phase = .sym ∨ s.phase = .dist ∨ s.phase = .copy →
      (litTable s).isSome = true ∧ (distTable s).isSome = true) ∧
    (s.phase = .dist ∨ s.phase = .copy → 3 ≤ s.matchLen.toNat ∧ s.matchLen.toNat ≤ 258) ∧
    (s.phase = .copy → 1 ≤ s.matchDist.toNat ∧ s.matchDist.toNat ≤ Config.window ∧ s.matchDist.toNat ≤ s.outLen ∧
      1 ≤ s.copyRem.toNat ∧ s.copyRem.toNat ≤ s.matchLen.toNat))

theorem inv_of_invCheck {s : State} (h : invCheck s = true) : Inv s := by
  simp only [invCheck, Bool.and_eq_true, decide_eq_true_eq] at h
  obtain ⟨⟨h1, h2, h3, h4, h5, h6, h7, h8, h9, h10⟩, b1, b2, b3, b4, h12, h13, h14, h15, h16, h17⟩ := h
  refine ⟨h1, h2, h3, h4, h5, h6, h7, h8, h9, fun hb c hc => h10 hb c hc, ?_, h12, h13, h14, h15, h16, h17⟩
  unfold blockTypeAgrees
  cases hp : s.phase <;> simp_all

/-- A dynamic header at a code-length symbol, every code-length symbol coded in 5 bits. -/
def lensAt (bits : List Nat) : State :=
  { stateAt .dynLens bits with btype := 2, clLen := Vector.replicate 19 5 }

/-- Invariant states, one or more for each error code, whose step raises it. -/
def raisingStates : List (BitVec 4 × State) :=
  [(1, stateAt .hdr []),
   (1, stateAt .storedLen [1, 1, 1]),
   (8, { stateAt .hdr [] with stream := byteStream .ioError [0x00] 0 6 }),
   (2, stateAt .hdr [0, 1, 1]),
   (3, { stateAt .storedLen [] with stream := byteStream .eof [0x01, 0, 0, 0, 0] 0 3 }),
   (4, { clState 18 [1, 1] with btype := 2 }),
   (4, { lensAt [0, 0, 0, 0, 0] with lenIdx := 257, lens := writeRun 1 3 0 State.reset.lens }),
   (4, { lensAt [0, 0, 0, 0, 1] with
           lenIdx := 259, hdist := 2, lens := writeRun 1 2 257 State.reset.lens })] ++
  [(5, lensAt [1, 0, 0, 0, 0, 0, 0]),
   (5, { lensAt [1, 0, 0, 0, 1, 0, 0, 0] with lenIdx := 256 }),
   (5, { lensAt [1, 0, 0, 1, 0, 0, 0, 0, 0, 0, 0, 0] with lenIdx := 257 }),
   (6, lensAt [1, 0, 0, 1, 1]),
   (6, fixedAt .sym [1, 1, 0, 0, 0, 1, 1, 0]),
   (6, { fixedAt .dist [1, 1, 1, 1, 1] with matchLen := 3 }),
   (6, { fixedAt .dist [1, 1, 1, 1, 1] with matchLen := 3, btype := 2, distLens := Vector.replicate 32 5 }),
   (7, { fixedAt .dist [0, 0, 0, 0, 0] with matchLen := 3 })] ++
  [(9, { fixedAt .sym [0, 1, 1, 1, 0, 0, 0, 1] with outCap := some 0 }),
   (9, storedState (some 0) 0),
   (9, copyState (some 1) 1)]

/-- Every clause: the state meets the invariant, is not in ERROR, and its step raises the code. -/
theorem witness_ErrorsComeFromTheirCauses :
    ∀ p ∈ raisingStates, Inv p.2 ∧ p.2.phase ≠ .error ∧ nextIs (step p.2) (fun t => t.errCode == p.1) = true := by
  have h : (raisingStates.all fun p => invCheck p.2 && (p.2.phase != .error &&
      nextIs (step p.2) fun t => t.errCode == p.1)) = true := by decide +kernel
  intro p hp
  have := List.all_eq_true.1 h p hp
  simp only [Bool.and_eq_true, bne_iff_ne] at this
  exact ⟨inv_of_invCheck this.1, this.2⟩

end Sys2Proof.Tests
end

section
/-! SUPPORT. What every step keeps, said once: a step of a phase writes that phase's registers, the cursor, the phase and
the error register, and nothing else (10_state.md R24). -/

namespace Sys2Proof.Machine

/-! ## The instructions of one space -/

/-- A block header writes `bfinal` and `btype`, may load the tables, and enters its phase or raises (R195 to R199). -/
theorem exec_header_cases {i : Instr} (h : opSpace i = .hdr) (s : State) :
    (∃ f t p, exec i s = .next { headerWrites f t s with phase := p }) ∨
    (∃ f, exec i s = .next { loadFixed (headerWrites f 1 s) with phase := .sym }) ∨
    (∃ f, exec i s = .next (raiseError .reservedBlockType (headerWrites f 3 s))) := by
  cases i with
  | blkStored f => exact .inl ⟨f, 0, .storedLen, rfl⟩
  | blkDynamic f => exact .inl ⟨f, 2, .dynCounts, rfl⟩
  | blkFixed f => exact .inr (.inl ⟨f, rfl⟩)
  | blkReserved f => exact .inr (.inr ⟨f, rfl⟩)
  | _ => cases h

/-- A code-length symbol appends one entry, appends a run, raises, or faults at an index no session reaches
(R112 to R115). -/
theorem exec_codeLength_cases {i : Instr} (h : opSpace i = .clSym) (s : State) :
    (∃ n, exec i s = .next (endLensStep (appendLens 1 n s))) ∨
    (∃ n v, exec i s = .next (lensRun n v s)) ∨
    exec i s = .next (raiseError .malformedDynamicHeader s) ∨
    exec i s = .fault .lensIndexPastTotal := by
  cases i with
  | clLen n =>
    simp only [exec, execClLen]
    split
    · exact .inl ⟨n, rfl⟩
    · exact .inr (.inr (.inr rfl))
  | clRep16 x =>
    simp only [exec, execClRep16]
    split
    · exact .inr (.inr (.inl rfl))
    · exact .inr (.inl ⟨repeatCount x, prevLen s, rfl⟩)
  | clZero17 x => exact .inr (.inl ⟨shortZeroRun x, 0, rfl⟩)
  | clZero18 x => exact .inr (.inl ⟨longZeroRun x, 0, rfl⟩)
  | _ => cases h

/-- A literal/length symbol is a literal, the end of the block, an invalid symbol, or a length symbol
(R122 to R155). -/
theorem exec_literalLength_cases {i : Instr} (h : opSpace i = .llSym) (s : State) :
    (∃ b, exec i s = execLit b s) ∨
    exec i s = .next { s with phase := .checkFinal } ∨
    exec i s = .next (raiseError .invalidHuffmanCode s) ∨
    exec i s = .next (lengthSymbol (opValue i) (opExtra i) s) := by
  cases i <;> simp only [opSpace, reduceCtorEq] at h
  case lit b => exact .inl ⟨b, rfl⟩
  case eob => exact .inr (.inl rfl)
  case inv286 | inv287 => exact .inr (.inr (.inl rfl))
  all_goals exact .inr (.inr (.inr rfl))

/-- A distance symbol is invalid or sets the match distance (R156 to R189). -/
theorem exec_distance_cases {i : Instr} (h : opSpace i = .dSym) (s : State) :
    exec i s = .next (raiseError .invalidHuffmanCode s) ∨
    exec i s = .next (distanceSymbol (opValue i) (opExtra i) s) := by
  cases i <;> simp only [opSpace, reduceCtorEq] at h
  case invD30 | invD31 => exact .inl rfl
  all_goals exact .inr rfl

/-! ## The effect of a step -/

/-- `s` with the registers a step of phase `p` may write taken from `t`; the cursor, the phase and the error register,
which every rule may write, are not among them. -/
def writtenIn (p : Phase) (s t : State) : State :=
  match p with
  | .idle | .done | .error => s
  | .hdr => { s with bfinal := t.bfinal, btype := t.btype, litLens := t.litLens, distLens := t.distLens }
  | .storedLen => { s with storedRem := t.storedRem }
  | .storedCopy => { s with storedRem := t.storedRem, out := t.out, outLen := t.outLen }
  | .dynCounts => { s with
      hlit := t.hlit, hdist := t.hdist, hclen := t.hclen
      clLen := t.clLen, clIdx := t.clIdx, lens := t.lens, lenIdx := t.lenIdx }
  | .dynClLen => { s with clLen := t.clLen, clIdx := t.clIdx }
  | .dynLens => { s with lens := t.lens, lenIdx := t.lenIdx, litLens := t.litLens, distLens := t.distLens }
  | .sym => { s with matchLen := t.matchLen, out := t.out, outLen := t.outLen }
  | .dist => { s with matchDist := t.matchDist, copyRem := t.copyRem }
  | .copy => { s with copyRem := t.copyRem, out := t.out, outLen := t.outLen }
  | .checkFinal => { s with inConsumed := t.inConsumed }

/-- What a step of phase `p` from `s` to `t` can have done. -/
structure StepEffect (p : Phase) (s t : State) : Prop where
  /-- Only the phase's registers, the cursor, the phase and the error register changed. -/
  frame : t = { writtenIn p s t with phase := t.phase, stream := t.stream, errCode := t.errCode }
  /-- The error register changes only on entry to `ERROR` (R37, R218). -/
  errCode : t.phase ≠ .error → t.errCode = s.errCode
  /-- At most one byte is appended (R36, R50). -/
  output : t.out = s.out ∧ t.outLen = s.outLen ∨
    ∃ b, t.out = s.out.write s.outLen b ∧ t.outLen = s.outLen + 1
  /-- The source is the same and the cursor where it was or later (R26, R49). -/
  cursor : s.stream.Moved t.stream

/-- Raising an error after a step's writes adds no other write (R218). -/
theorem StepEffect.raise {p : Phase} {s t : State} {k : ErrKind} (h : StepEffect p s t) :
    StepEffect p s (raiseError k t) where
  frame := (congrArg (raiseError k) h.frame).trans (by cases p <;> rfl)
  errCode hne := absurd rfl hne
  output := h.output
  cursor := h.cursor

/-- A step of an instruction runs from where its fetch left the cursor. -/
theorem StepEffect.of_fetched {p : Phase} {s t : State} {bs : BitStream} (hm : s.stream.Moved bs)
    (h : StepEffect p { s with stream := bs } t) : StepEffect p s t where
  frame := h.frame.trans (by cases p <;> rfl)
  errCode := h.errCode
  output := h.output
  cursor := hm.trans h.cursor

/-- Moving only the cursor, as a failing read does. -/
theorem StepEffect.of_cursor (p : Phase) {s : State} {bs : BitStream} (hm : s.stream.Moved bs) :
    StepEffect p s { s with stream := bs } :=
  ⟨by cases p <;> rfl, fun _ => rfl, .inl ⟨rfl, rfl⟩, hm⟩

theorem StepEffect.refl (p : Phase) (s : State) : StepEffect p s s := of_cursor p (.refl s.stream)

/-- A step that changes nothing but the phase. -/
theorem StepEffect.of_phase (p q : Phase) (s : State) : StepEffect p s { s with phase := q } :=
  ⟨by cases p <;> rfl, fun _ => rfl, .inl ⟨rfl, rfl⟩, .refl s.stream⟩

/-! ## Instructions -/

theorem endLensStep_appendLens_effect (n : Nat) (v : CodeLen) (s : State) :
    StepEffect .dynLens s (endLensStep (appendLens n v s)) := by
  unfold endLensStep
  split
  · rcases finishHeader_cases (appendLens n v s) with ⟨-, -, h⟩ | ⟨-, h⟩ <;> rw [h]
    · exact ⟨rfl, fun _ => rfl, .inl ⟨rfl, rfl⟩, .refl s.stream⟩
    · exact StepEffect.raise ⟨rfl, fun _ => rfl, .inl ⟨rfl, rfl⟩, .refl s.stream⟩
  · exact ⟨rfl, fun _ => rfl, .inl ⟨rfl, rfl⟩, .refl s.stream⟩

theorem lensRun_effect (n : Nat) (v : CodeLen) (s : State) : StepEffect .dynLens s (lensRun n v s) := by
  rcases lensRun_cases n v s with ⟨-, h⟩ | ⟨-, h⟩ <;> rw [h]
  · exact (StepEffect.refl .dynLens s).raise
  · exact endLensStep_appendLens_effect n v s

theorem distanceSymbol_effect (d x : Nat) (s : State) : StepEffect .dist s (distanceSymbol d x s) := by
  rcases distanceSymbol_cases d x s with ⟨-, h⟩ | ⟨-, h⟩ <;> rw [h]
  · exact StepEffect.raise ⟨rfl, fun _ => rfl, .inl ⟨rfl, rfl⟩, .refl s.stream⟩
  · exact ⟨rfl, fun _ => rfl, .inl ⟨rfl, rfl⟩, .refl s.stream⟩

/-- The effect of an instruction is that of the phase that decodes its space. -/
theorem exec_effect {i : Instr} {s t : State} (h : exec i s = .next t) :
    StepEffect (spacePhase (opSpace i)) s t := by
  cases hsp : opSpace i with
  | hdr =>
    rcases exec_header_cases hsp s with ⟨f, b, p, he⟩ | ⟨f, he⟩ | ⟨f, he⟩ <;> rw [he] at h <;> cases h
    · exact ⟨rfl, fun _ => rfl, .inl ⟨rfl, rfl⟩, .refl s.stream⟩
    · exact ⟨rfl, fun _ => rfl, .inl ⟨rfl, rfl⟩, .refl s.stream⟩
    · exact StepEffect.raise ⟨rfl, fun _ => rfl, .inl ⟨rfl, rfl⟩, .refl s.stream⟩
  | clSym =>
    rcases exec_codeLength_cases hsp s with ⟨n, he⟩ | ⟨n, v, he⟩ | he | he <;> rw [he] at h <;> cases h
    · exact endLensStep_appendLens_effect 1 n s
    · exact lensRun_effect n v s
    · exact (StepEffect.refl .dynLens s).raise
  | llSym =>
    rcases exec_literalLength_cases hsp s with ⟨b, he⟩ | he | he | he <;> rw [he] at h
    · rcases execLit_cases b s with ⟨-, hl⟩ | ⟨-, hl⟩ <;> rw [hl] at h <;> cases h
      · exact (StepEffect.refl .sym s).raise
      · exact ⟨rfl, fun _ => rfl, .inr ⟨b, rfl, rfl⟩, .refl s.stream⟩
    · cases h; exact .of_phase .sym .checkFinal s
    · cases h; exact (StepEffect.refl .sym s).raise
    · cases h; exact ⟨rfl, fun _ => rfl, .inl ⟨rfl, rfl⟩, .refl s.stream⟩
  | dSym =>
    rcases exec_distance_cases hsp s with he | he <;> rw [he] at h <;> cases h
    · exact (StepEffect.refl .dist s).raise
    · exact distanceSymbol_effect _ _ s

/-! ## Steps, phase by phase -/

theorem stepInstr_effect {sp : Space} {s t : State} (h : stepInstr sp s = .next t) :
    StepEffect (spacePhase sp) s t := by
  rcases stepInstr_cases sp s with ⟨-, he⟩ | ⟨i, bs, he, rfl, hm, -⟩ | ⟨k, bs, f, he, hf, hm, -⟩ <;> rw [he] at h
  · cases h
  · exact .of_fetched hm (exec_effect h)
  · cases h
    rcases hf with rfl | rfl
    · exact StepEffect.raise ⟨rfl, fun _ => rfl, .inl ⟨rfl, rfl⟩, hm⟩
    · exact (StepEffect.of_cursor _ hm).raise

theorem stepStoredLen_effect {s t : State} (h : stepStoredLen s = .next t) : StepEffect .storedLen s t := by
  rcases stepStoredLen_cases s with ⟨k, bs, he, hm, -⟩ | ⟨len, -, he, hm⟩ <;> rw [he] at h <;> cases h
  · exact (StepEffect.of_cursor _ hm).raise
  · exact ⟨rfl, fun _ => rfl, .inl ⟨rfl, rfl⟩, hm⟩

theorem stepStoredCopy_effect {s t : State} (h : stepStoredCopy s = .next t) : StepEffect .storedCopy s t := by
  rcases stepStoredCopy_cases s with ⟨-, he⟩ | ⟨k, bs, -, he, hm, -⟩ | ⟨b, -, -, he, hm⟩ <;> rw [he] at h <;> cases h
  · exact (StepEffect.of_cursor _ hm).raise
  · exact ⟨rfl, fun _ => rfl, .inr ⟨b, rfl, rfl⟩, hm⟩

theorem stepDynCounts_effect {s t : State} (h : stepDynCounts s = .next t) : StepEffect .dynCounts s t := by
  rcases stepDynCounts_cases s with ⟨hl, hd, bs, he, hm⟩ | ⟨hl, hd, hc, he, hm⟩ <;> rw [he] at h <;> cases h
  · exact StepEffect.raise ⟨rfl, fun _ => rfl, .inl ⟨rfl, rfl⟩, hm⟩
  · exact ⟨rfl, fun _ => rfl, .inl ⟨rfl, rfl⟩, hm⟩

theorem endClLenStep_writeClLen_effect (v : Nat) (s : State) :
    StepEffect .dynClLen s (endClLenStep (writeClLen v s)) := by
  have hw : StepEffect .dynClLen s (writeClLen v s) := ⟨rfl, fun _ => rfl, .inl ⟨rfl, rfl⟩, .refl s.stream⟩
  rcases endClLenStep_cases (writeClLen v s) with ⟨-, h⟩ | ⟨-, -, h⟩ | ⟨-, -, h⟩ <;> rw [h]
  · exact hw
  · exact ⟨rfl, fun _ => rfl, .inl ⟨rfl, rfl⟩, .refl s.stream⟩
  · exact hw.raise

theorem stepDynClLen_effect {s t : State} (h : stepDynClLen s = .next t) : StepEffect .dynClLen s t := by
  rcases stepDynClLen_cases s with ⟨-, he⟩ | ⟨bs, -, he, hm⟩ | ⟨v, -, -, he, hm⟩ <;> rw [he] at h <;> cases h
  · exact (StepEffect.of_cursor _ hm).raise
  · exact .of_fetched hm (endClLenStep_writeClLen_effect v _)

theorem stepCopy_effect {s t : State} (h : stepCopy s = .next t) : StepEffect .copy s t := by
  rcases stepCopy_cases s with ⟨-, he⟩ | ⟨-, -, he⟩ | ⟨-, -, -, ⟨-, he⟩ | ⟨-, he⟩⟩ <;> rw [he] at h <;> cases h
  · exact (StepEffect.refl .copy s).raise
  · exact ⟨rfl, fun _ => rfl, .inr ⟨_, rfl, rfl⟩, .refl s.stream⟩

theorem stepCheckFinal_effect {s t : State} (h : stepCheckFinal s = .next t) : StepEffect .checkFinal s t := by
  unfold stepCheckFinal at h
  split at h <;> cases h
  · exact ⟨rfl, fun _ => rfl, .inl ⟨rfl, rfl⟩, s.stream.align_moved⟩
  · exact .of_phase .checkFinal .hdr s

/-- Every step has the effect of its phase. -/
theorem step_effect {s t : State} (h : step s = .next t) : StepEffect s.phase s t := by
  unfold step at h
  cases hp : s.phase <;> rw [hp] at h
  case idle | done | error => cases h; exact .refl _ s
  case hdr | dynLens | sym | dist => exact stepInstr_effect h
  case storedLen => exact stepStoredLen_effect h
  case storedCopy => exact stepStoredCopy_effect h
  case dynCounts => exact stepDynCounts_effect h
  case dynClLen => exact stepDynClLen_effect h
  case copy => exact stepCopy_effect h
  case checkFinal => exact stepCheckFinal_effect h

end Sys2Proof.Machine
end

section
/-! PROOFS. The statements about the elements of the state (10_state.md): who writes a register, what reset and start
leave in it, and what the host reads and writes. -/

namespace Sys2Proof.Machine

/-! ## What a step keeps -/

/-- Whatever the phase, a step keeps the capacity and the model's tick. -/
theorem StepEffect.config {p : Phase} {s t : State} (h : StepEffect p s t) :
    t.outCap = s.outCap ∧ t.freeTick = s.freeTick := by
  rw [h.frame]
  cases p <;> exact ⟨rfl, rfl⟩

/-- Settles O51: the effect of every step moves the cursor forward on the same source. -/
theorem cursorNeverMovesBack : Obligations.CursorNeverMovesBack := by
  intro s s' h
  have he := step_effect h
  obtain ⟨hbytes, hlen, hend, hpos⟩ := he.cursor.source
  exact ⟨hpos, hbytes, hlen, hend, he.config.1⟩

/-- Settles O52: an append writes at `out_len`, above every byte already there. -/
theorem outputIsAppendOnly : Obligations.OutputIsAppendOnly := by
  refine ⟨fun s s' hwf h => ?_, rfl, rfl⟩
  rcases (step_effect h).output with ⟨hout, hlen⟩ | ⟨b, hout, hlen⟩
  · exact ⟨.inl ⟨hout, hlen⟩, fun a _ => by rw [hout]⟩
  · refine ⟨.inr hlen, fun a ha => ?_⟩
    rw [hout, Memory.read_write hwf, if_neg ha.ne]

/-- Settles O53: each clause names every phase whose `writtenIn` takes the register from the next state. -/
theorem eachRegisterHasItsWriters : Obligations.EachRegisterHasItsWriters := by
  intro s s' h
  obtain ⟨hframe, herr, -, -⟩ := step_effect h
  rw [hframe]
  clear hframe
  cases s.phase <;> simpa [writtenIn] using herr

/-! ## The control register -/

/-- The other half of R39: a write that is not a start is ignored (R225). -/
theorem hostWriteReg_of_not_start {n : Nat} {v : BitVec 8} {s : State}
    (h : ¬ (n = 0 ∧ v.getLsbD 0 = true ∧ busy s = false)) : hostWriteReg n v s = s := if_neg h

/-- Settles O3: each ignored write fails one of the three conditions of a start. -/
theorem startActsOnlyWhenNotBusy : Obligations.StartActsOnlyWhenNotBusy := by
  intro n v s
  refine ⟨fun hv hb => if_pos ⟨rfl, hv, hb⟩, fun hv => hostWriteReg_of_not_start ?_,
    fun hb => hostWriteReg_of_not_start ?_, fun hn => hostWriteReg_of_not_start fun h => hn h.1, rfl⟩
  · rintro ⟨-, hv', -⟩
    exact absurd (hv.symm.trans hv') Bool.false_ne_true
  · rintro ⟨-, -, hb'⟩
    exact absurd (hb'.symm.trans hb) Bool.false_ne_true

/-! ## The status register -/

/-- The three flags of `STATUS` as bits 2:0 (R38). -/
def statusFlags (p : Phase) : Nat :=
  match p with
  | .idle => 0
  | .done => 2
  | .error => 4
  | _ => 1

theorem statusFlags_lt (p : Phase) : statusFlags p < 2 ^ 4 := by cases p <;> decide

/-- `STATUS` is the error code above the flags. -/
theorem statusReg_toNat (s : State) : (statusReg s).toNat = 2 ^ 4 * s.errCode.toNat + statusFlags s.phase := by
  have hconcat : statusReg s =
      (((s.errCode.concat false).concat (isError s)).concat (isDone s)).concat (busy s) := rfl
  have hflags : 4 * (isError s).toNat + 2 * (isDone s).toNat + (busy s).toNat = statusFlags s.phase := by
    unfold isError isDone busy
    cases s.phase <;> rfl
  simp only [hconcat, BitVec.toNat_concat, Bool.toNat_false]
  omega

/-- Settles O4: below bit 4 `STATUS` is its flags, from bit 4 on the error code. -/
theorem statusRegisterFields : Obligations.StatusRegisterFields := by
  intro s
  have hreg : hostReadReg 1 s = 2 ^ 4 * s.errCode.toNat + statusFlags s.phase := statusReg_toNat s
  have hcode : s.errCode.toNat < 16 := s.errCode.isLt
  have hflags : statusFlags s.phase < 2 ^ 4 := statusFlags_lt s.phase
  have hbit : ∀ j < 4, (hostReadReg 1 s).testBit j = (statusFlags s.phase).testBit j := fun j hj => by
    rw [hreg, Nat.testBit_two_pow_mul_add _ hflags, if_pos hj]
  have hmod : hostReadReg 1 s % 16 = statusFlags s.phase := by omega
  rw [hbit 0 (by decide), hbit 1 (by decide), hbit 2 (by decide), hbit 3 (by decide), hmod]
  refine ⟨by omega, ?_, ?_, ?_, ?_, by omega, ?_, ?_,
    fun v => hostWriteReg_of_not_start fun h => absurd h.1 (by decide)⟩
  all_goals cases s.phase <;> decide

/-! ## Reset and start -/

theorem mem_replicate_zero {n w : Nat} {l : BitVec w} (h : l ∈ (Vector.replicate n (0 : BitVec w)).toList) : l = 0 :=
  List.eq_of_mem_replicate (Vector.toList_replicate ▸ h)

/-- The reset values say nothing of the phase, the host's input, the capacity or the tick. -/
theorem resetValues_of_reset (p : Phase) (bs : BitStream) (cap : Option Nat) (tick : Nat) :
    ResetValues { State.reset with
      phase := p, stream := { bs with inPos := 0, bitOff := 0 }, outCap := cap, freeTick := tick } where
  cursor := ⟨rfl, rfl⟩
  block := ⟨rfl, rfl, rfl⟩
  counts := ⟨rfl, rfl, rfl⟩
  codeLengths := ⟨fun _ => mem_replicate_zero, rfl, fun _ => mem_replicate_zero, rfl⟩
  tables := ⟨fun _ => mem_replicate_zero, fun _ => mem_replicate_zero⟩
  backReference := ⟨rfl, rfl, rfl⟩
  output := ⟨rfl, rfl⟩
  errorCode := rfl
  consumed := rfl

/-- Settles O1: `hostReset` and `startSession` are the reset state with the host's own fields put back. -/
theorem resetAndStartValues : Obligations.ResetAndStartValues := fun s =>
  ⟨rfl, resetValues_of_reset .idle s.stream s.outCap s.freeTick,
   BitVec.eq_of_toNat_eq (statusReg_toNat (hostReset s)), rfl,
   rfl, resetValues_of_reset .hdr s.stream s.outCap s.freeTick,
   BitVec.eq_of_toNat_eq (statusReg_toNat (startSession s)), rfl,
   rfl, resetValues_of_reset .idle State.reset.stream none 0⟩

end Sys2Proof.Machine
end

section
/-! PROOFS. The statements about the two byte spaces (20_memory.md): what the host presents as `IN`, what it reads of
`OUT`, where a copy reads, and that no read of `OUT` outside it, nor any other stop, is reachable. -/

namespace Sys2Proof.Machine

/-! ## The input the host presents -/

/-- A lost session's result is free, but what the host drives stays as driven: of the stream only the cursor moves
(log entry 3). -/
theorem loseSession_driven (s : State) :
    (∃ p, (loseSession s).stream = { s.stream with inPos := p, bitOff := 0 }) ∧ (loseSession s).outCap = s.outCap := by
  unfold loseSession
  split <;> exact ⟨⟨_, rfl⟩, rfl⟩

/-- A lost session still ends (U12, R225). -/
theorem loseSession_ends (s : State) : (loseSession s).phase = .done ∨ (loseSession s).phase = .error := by
  unfold loseSession
  split
  · exact .inl rfl
  · exact .inr rfl

/-- Whether or not a session runs, and whether or not it goes on, what was presented is what the core is driven with. -/
theorem hostPresent_driven (bytes : List Byte) (e : SrcEnd) (cap : Option Nat) (s : State) :
    (∃ p o, (hostPresent bytes e cap s).stream = ⟨Memory.ofBytes bytes, bytes.length, e, p, o⟩) ∧
      (hostPresent bytes e cap s).outCap = cap := by
  rcases hostPresent_cases bytes e cap s with ⟨-, h⟩ | ⟨-, hu, h⟩ | ⟨-, -, h⟩
  · rw [h]; exact ⟨⟨_, _, rfl⟩, rfl⟩
  · rw [h, ← presentInput_of_unchanged hu]; exact ⟨⟨_, _, rfl⟩, rfl⟩
  · obtain ⟨⟨p, hs⟩, hc⟩ := loseSession_driven (presentInput bytes e cap s)
    rw [h, hs, hc]; exact ⟨⟨p, 0, rfl⟩, rfl⟩

/-- Reading the input space gives the presented bytes, and nothing at or past their end (R46, R47). -/
theorem BitStream.memRead_ofBytes (bytes : List Byte) (e : SrcEnd) (p : Nat) (o : BitVec 3) (a : Nat) :
    BitStream.memRead ⟨Memory.ofBytes bytes, bytes.length, e, p, o⟩ a = bytes[a]? := by
  rw [BitStream.memRead]
  split
  case isTrue ha => rw [Memory.read_ofBytes, List.getD_eq_getElem _ _ ha, List.getElem?_eq_getElem ha]
  case isFalse ha => rw [List.getElem?_eq_none (Nat.le_of_not_lt ha)]

/-- Settles O7: the three things presenting can do, with the bytes of `IN` the same in each. -/
theorem presentedInputIsTheStream : Obligations.PresentedInputIsTheStream := by
  intro bytes e cap s
  obtain ⟨⟨p, o, hs⟩, hcap⟩ := hostPresent_driven bytes e cap s
  refine ⟨hostPresent bytes e cap s, rfl, ?_, ?_, fun a => ?_, ?_, hcap, fun hidle => ?_, fun hbusy hwf hbelow => ?_⟩
  · rw [hs]; exact Memory.ofBytes_wf bytes
  · rw [hs]
  · rw [hs]; exact BitStream.memRead_ofBytes bytes e p o a
  · rw [hs]
  · rcases hostPresent_cases bytes e cap s with ⟨-, h⟩ | ⟨hb, -⟩ | ⟨hb, -⟩
    · rw [h]; rfl
    all_goals exact absurd (hidle.symm.trans hb) Bool.false_ne_true
  · rw [← inputUnchanged_iff hwf hbelow]
    rcases hostPresent_cases bytes e cap s with ⟨hb, -⟩ | ⟨-, hu, h⟩ | ⟨-, hu, h⟩
    · exact absurd (hb.symm.trans hbusy) Bool.false_ne_true
    · exact ⟨fun _ => h, fun hne => absurd hu hne⟩
    · refine ⟨fun hu' => absurd (hu.symm.trans hu') Bool.false_ne_true, fun _ => ?_⟩
      rw [h]; exact loseSession_ends _

/-! ## The output port -/

theorem hostReadOut_of_done {a : Nat} {s : State} (hp : s.phase = .done) (ha : a < s.outLen) :
    hostReadOut a s = (s.out.read a, s) := by
  have hdone : isDone s = true := by rw [isDone, hp]; rfl
  have hread : outRead a s = some (s.out.read a) := if_pos ha
  rw [hostReadOut, hdone, hread]

/-- Settles O6: in `DONE` below `out_len` the port takes no free value. -/
theorem outputPortShowsTheResultInDone : Obligations.OutputPortShowsTheResultInDone := fun a s =>
  ⟨hostReadOut_of_done, hostReadOut_state a s⟩

/-! ## The window -/

/-- Settles O38: `match_dist` lies between 1 and the window and never passes `out_len`. -/
theorem copyStaysInsideTheWindow : Obligations.CopyStaysInsideTheWindow := by
  intro s hinv hp
  obtain ⟨hpos, hwindow, hout, -, -⟩ := hinv.copying hp
  rw [Config.window] at hwindow
  exact ⟨s.outLen - s.matchDist.toNat, if_pos hout, by omega, by omega⟩

/-! ## No stop is reachable -/

/-- A step of an instruction phase answers a next state when its table is built and, for a code-length symbol, an
entry is still to come (R33, R112). -/
theorem stepInstr_next {sp : Space} {s : State} (htab : (spaceTable sp s).isSome = true)
    (hidx : sp = .clSym → s.lenIdx.toNat < total s) : ∃ t, stepInstr sp s = .next t := by
  rcases stepInstr_cases sp s with ⟨hnone, -⟩ | ⟨i, bs, h, hsp, -⟩ | ⟨k, bs, f, h, -⟩
  · rw [hnone] at htab; cases htab
  · rcases exec_cases i { s with stream := bs } with ⟨t, he, -⟩ | ⟨n, rfl, hle, -⟩
    · exact ⟨t, h.trans he⟩
    · exact absurd (hidx hsp.symm) (Nat.not_lt.mpr hle)
  · exact ⟨_, h⟩

theorem stepStoredLen_next (s : State) : ∃ t, stepStoredLen s = .next t := by
  rcases stepStoredLen_cases s with ⟨k, bs, h, -⟩ | ⟨len, -, h, -⟩ <;> exact ⟨_, h⟩

theorem stepStoredCopy_next {s : State} (hrem : s.storedRem ≠ 0) : ∃ t, stepStoredCopy s = .next t := by
  rcases stepStoredCopy_cases s with ⟨h0, -⟩ | ⟨k, bs, -, h, -⟩ | ⟨b, -, -, h, -⟩
  · exact absurd h0 hrem
  all_goals exact ⟨_, h⟩

theorem stepDynCounts_next (s : State) : ∃ t, stepDynCounts s = .next t := by
  rcases stepDynCounts_cases s with ⟨hl, hd, bs, h, -⟩ | ⟨hl, hd, hc, h, -⟩ <;> exact ⟨_, h⟩

/-- `HCLEN + 4` is at most the 19 entries of the permutation (R110, R111). -/
theorem clCount_le (s : State) : clCount s ≤ 19 := by
  have : s.hclen.toNat < 16 := s.hclen.isLt
  unfold clCount
  omega

theorem stepDynClLen_next {s : State} (hidx : s.clIdx.toNat < clCount s) : ∃ t, stepDynClLen s = .next t := by
  rcases stepDynClLen_cases s with ⟨hge, -⟩ | ⟨bs, -, h, -⟩ | ⟨v, -, -, h, -⟩
  · exact absurd (hidx.trans_le (clCount_le s)) (Nat.not_lt.mpr hge)
  all_goals exact ⟨_, h⟩

theorem stepCopy_next {s : State} (hrem : 1 ≤ s.copyRem.toNat) (hdist : 1 ≤ s.matchDist.toNat)
    (hout : s.matchDist.toNat ≤ s.outLen) : ∃ t, stepCopy s = .next t := by
  rcases stepCopy_cases s with ⟨h0, -⟩ | ⟨-, h0 | hlt, -⟩ | ⟨-, -, -, ⟨-, h⟩ | ⟨-, h⟩⟩
  · rw [h0] at hrem; exact absurd hrem (by decide)
  · rw [h0] at hdist; exact absurd hdist (by decide)
  · exact absurd hout (Nat.not_le.mpr hlt)
  all_goals exact ⟨_, h⟩

theorem stepCheckFinal_next (s : State) : ∃ t, stepCheckFinal s = .next t := by
  unfold stepCheckFinal
  split <;> exact ⟨_, rfl⟩

/-- Settles O47: each phase that could stop has the clause of the invariant that excludes it. -/
theorem invariantStatesAlwaysStep : Obligations.InvariantStatesAlwaysStep := by
  intro s hinv
  unfold step
  cases hp : s.phase with
  | idle | done | error => exact ⟨s, rfl⟩
  | hdr => exact stepInstr_next rfl nofun
  | storedLen => exact stepStoredLen_next s
  | storedCopy => exact stepStoredCopy_next (hinv.storedCopying hp).1
  | dynCounts => exact stepDynCounts_next s
  | dynClLen => exact stepDynClLen_next (hinv.clReading hp).1
  | dynLens =>
    obtain ⟨hidx, htab⟩ := hinv.lensReading hp
    exact stepInstr_next htab fun _ => hidx
  | sym => exact stepInstr_next (hinv.tablesBuilt (.inl hp)).1 nofun
  | dist => exact stepInstr_next (hinv.tablesBuilt (.inr (.inl hp))).2 nofun
  | copy =>
    obtain ⟨hdist, -, hout, hrem, -⟩ := hinv.copying hp
    exact stepCopy_next hrem hdist hout
  | checkFinal => exact stepCheckFinal_next s

end Sys2Proof.Machine
end

section
/-! SUPPORT. The canonical code of a length array (41_huffman.md R89 to R98) in closed form: which entries a built
table holds, that none of its codes begins with another, and that `DecodeSymbol` reads each code back. -/

namespace Sys2Proof.Machine

/-! ## The code values of one length -/

/-- The first code value of length `l` past those given out, so that length `l + 1` starts at its double (R92). -/
def codesEnd (lens : List Nat) : Nat → Nat
  | 0 => 0
  | l + 1 => 2 * codesEnd lens l + lens.count (l + 1)

theorem nextCode_succ (lens : List Nat) (l : Nat) : nextCode lens (l + 1) = 2 * codesEnd lens l := by
  induction l with
  | zero => rfl
  | succ l ih => rw [nextCode, ih, codesEnd]

theorem countLens_eq (lens : List Nat) (maxbits : Nat) :
    countLens lens maxbits = (List.range' 1 maxbits).map fun l => lens.count l := by
  simp [countLens, List.range'_eq_map_range, Nat.add_comm]

/-- From level `k` on, step (b) gives the first code value of every length (R92). -/
theorem firstCodesFrom_eq {lens : List Nat} {code prev k : Nat} (n : Nat) (h : code + prev = codesEnd lens k) :
    firstCodesFrom code prev ((List.range' (k + 1) n).map fun l => lens.count l) =
      (List.range' (k + 1) n).map (nextCode lens) := by
  induction n generalizing code prev k with
  | zero => rfl
  | succ n ih =>
    rw [List.range'_succ, List.map_cons, List.map_cons, firstCodesFrom, h, ← nextCode_succ, ih]
    rw [nextCode_succ, codesEnd]

/-- The entry of length `l` in the list step (b) gives. -/
theorem getD_map_nextCode {lens : List Nat} {maxbits l : Nat} (h0 : l ≠ 0) (hl : l ≤ maxbits) :
    ((List.range' 1 maxbits).map (nextCode lens)).getD (l - 1) 0 = nextCode lens l := by
  have hindex : l - 1 < maxbits := by omega
  rw [List.getD_eq_getElem _ _ (by simpa using hindex), List.getElem_map, List.getElem_range', Nat.one_mul,
    Nat.add_sub_cancel' (Nat.pos_of_ne_zero h0)]

/-- `left` is the room at level `k` (R91): where the loop never runs short, every length's codes fit. -/
theorem codesEnd_le_of_fitsFrom {lens : List Nat} {left k n l : Nat} (h : left + codesEnd lens k = 2 ^ k)
    (hfits : fitsFrom left ((List.range' (k + 1) n).map fun l => lens.count l) = true)
    (hl : k < l) (hln : l ≤ k + n) : codesEnd lens l ≤ 2 ^ l := by
  induction n generalizing left k with
  | zero => omega
  | succ n ih =>
    rw [List.range'_succ, List.map_cons, fitsFrom] at hfits
    split at hfits
    · cases hfits
    · next hroom =>
      have hnext : 2 * left - lens.count (k + 1) + codesEnd lens (k + 1) = 2 ^ (k + 1) := by
        rw [codesEnd, Nat.pow_succ]; omega
      by_cases hk : l = k + 1
      · rw [hk]; omega
      · exact ih hnext hfits (by omega) (by omega)

/-- `d` bits longer, the codes given out up to length `l` lie inside those given out up to length `l + d`. -/
theorem two_pow_mul_codesEnd_le (lens : List Nat) (l d : Nat) :
    2 ^ d * codesEnd lens l ≤ codesEnd lens (l + d) := by
  induction d with
  | zero => simp
  | succ d ih =>
    rw [← Nat.add_assoc, codesEnd, Nat.pow_succ]
    linarith

/-! ## The entries of a table -/

/-- A symbol counts itself among the symbols of its length, so a later symbol's rank is greater (R93). -/
theorem count_take_lt_count_take {lens : List Nat} {s u : Nat} (hs : s < lens.length) (hsu : s < u) :
    (lens.take s).count (lens.getD s 0) < (lens.take u).count (lens.getD s 0) := by
  have hself : (lens.take (s + 1)).count (lens.getD s 0) = (lens.take s).count (lens.getD s 0) + 1 := by
    rw [List.take_succ_eq_append_getElem hs, List.count_append, List.getD_eq_getElem _ _ hs, List.count_singleton_self]
  have hle := (List.take_sublist_take_left (l := lens) (show s + 1 ≤ u from hsu)).count_le (lens.getD s 0)
  omega

/-- The entry of symbol `s`: the first code of its length plus its rank among the symbols of that length (R93). -/
def canonicalEntry (lens : List Nat) (s : Nat) : CodeEntry where
  len := lens.getD s 0
  code := nextCode lens (lens.getD s 0) + (lens.take s).count (lens.getD s 0)
  sym := s

/-- Giving out a code of length `l` raises the running value of that length by one and no other (R93). -/
theorem getD_set_add_count {next : List Nat} {l x : Nat} (done : List Nat) (hl : l ≠ 0) (hx : x ≠ 0)
    (hlen : l ≤ next.length) :
    (next.set (l - 1) (next.getD (l - 1) 0 + 1)).getD (x - 1) 0 + done.count x =
      next.getD (x - 1) 0 + (l :: done).count x := by
  by_cases hlx : l = x
  · subst hlx
    rw [List.getD_eq_getElem?_getD, List.getElem?_set_self (by omega), List.count_cons_self, Option.getD_some]
    omega
  · rw [List.getD_eq_getElem?_getD, List.getElem?_set_ne (by omega), ← List.getD_eq_getElem?_getD,
      List.count_cons_of_ne hlx]

/-- Step (c) from symbol `s` on with running code values `next`, in closed form (R93). -/
theorem assignFrom_eq {s : Nat} {next lens : List Nat} (h : ∀ l ∈ lens, l ≤ next.length) :
    assignFrom s next lens = ((List.range lens.length).filter fun i => lens.getD i 0 != 0).map fun i =>
      { len := lens.getD i 0
        code := next.getD (lens.getD i 0 - 1) 0 + (lens.take i).count (lens.getD i 0)
        sym := s + i } := by
  induction lens generalizing s next with
  | nil => rfl
  | cons l rest ih =>
    obtain ⟨hl, hrest⟩ := List.forall_mem_cons.mp h
    have hsymbols : (List.range (l :: rest).length).filter (fun i => (l :: rest).getD i 0 != 0) =
        (if l = 0 then [] else [0]) ++
          ((List.range rest.length).filter fun i => rest.getD i 0 != 0).map Nat.succ := by
      rw [List.length_cons, List.range_succ_eq_map, List.filter_cons, List.filter_map]
      by_cases h0 : l = 0 <;> simp [h0, Function.comp_def]
    rw [assignFrom, hsymbols, List.map_append, List.map_map]
    by_cases h0 : l = 0
    · rw [if_pos h0, if_pos h0, List.map_nil, List.nil_append, ih hrest]
      refine List.map_congr_left fun i hi => ?_
      have hi : rest.getD i 0 ≠ 0 := by simpa using (List.mem_filter.mp hi).2
      simp only [Function.comp_apply, Nat.succ_eq_add_one, List.getD_cons_succ, List.take_succ_cons,
        List.count_cons_of_ne (show l ≠ rest.getD i 0 from fun h => hi (h.symm.trans h0)), Nat.add_assoc, Nat.add_comm 1]
    · rw [if_neg h0, if_neg h0, ih (by simpa using hrest)]
      refine congrArg (List.cons _) (List.map_congr_left fun i hi => ?_)
      have hi : rest.getD i 0 ≠ 0 := by simpa using (List.mem_filter.mp hi).2
      simp only [Function.comp_apply, Nat.succ_eq_add_one, List.getD_cons_succ, List.take_succ_cons,
        getD_set_add_count _ h0 hi hl, Nat.add_assoc, Nat.add_comm 1]

theorem getD_le {lens : List Nat} {maxbits : Nat} (hmax : ∀ l ∈ lens, l ≤ maxbits) (s : Nat) :
    lens.getD s 0 ≤ maxbits := by
  by_cases hs : s < lens.length
  · rw [List.getD_eq_getElem _ _ hs]
    exact hmax _ (List.getElem_mem hs)
  · rw [List.getD_eq_default _ _ (Nat.le_of_not_lt hs)]
    exact Nat.zero_le _

/-- What a successful `Build` says (R91 to R93): every length's codes fit it, and the table holds the canonical entry of
each symbol with a code. -/
theorem buildTable_some {lens : List Nat} {maxbits : Nat} {t : CodeTable} (hmax : ∀ l ∈ lens, l ≤ maxbits)
    (ht : buildTable lens maxbits = some t) :
    (∀ l ≤ maxbits, codesEnd lens l ≤ 2 ^ l) ∧
    t = ((List.range lens.length).filter fun s => lens.getD s 0 != 0).map (canonicalEntry lens) := by
  rw [buildTable, countLens_eq] at ht
  split at ht
  · next hfits =>
    cases ht
    refine ⟨fun l hl => ?_, ?_⟩
    · by_cases h0 : l = 0
      · simp [h0, codesEnd]
      · exact codesEnd_le_of_fitsFrom rfl hfits (by omega) (by omega)
    · rw [firstCodesFrom_eq maxbits rfl, assignFrom_eq (by simpa using hmax)]
      refine List.map_congr_left fun s hs => ?_
      have hs0 : lens.getD s 0 ≠ 0 := by simpa using (List.mem_filter.mp hs).2
      rw [getD_map_nextCode hs0 (getD_le hmax s), canonicalEntry, Nat.zero_add]
  · cases ht

/-! ## No code begins with another -/

section
variable {lens : List Nat} {maxbits : Nat} {t : CodeTable}

theorem mem_buildTable_iff (hmax : ∀ l ∈ lens, l ≤ maxbits) (ht : buildTable lens maxbits = some t) {e : CodeEntry} :
    e ∈ t ↔ lens.getD e.sym 0 ≠ 0 ∧ e = canonicalEntry lens e.sym := by
  rw [(buildTable_some hmax ht).2, List.mem_map]
  constructor
  · rintro ⟨s, hs, rfl⟩
    exact ⟨bne_iff_ne.mp (List.mem_filter.mp hs).2, rfl⟩
  · rintro ⟨h0, he⟩
    refine ⟨e.sym, List.mem_filter.mpr ⟨?_, by simpa using h0⟩, he.symm⟩
    by_contra hlen
    exact h0 (List.getD_eq_default _ _ (by simpa using hlen))

/-- A symbol with a code has its canonical entry (R93, R94). -/
theorem entryOf_eq_canonicalEntry (hmax : ∀ l ∈ lens, l ≤ maxbits) (ht : buildTable lens maxbits = some t) {s : Nat}
    (h0 : lens.getD s 0 ≠ 0) : t.entryOf s = some (canonicalEntry lens s) := by
  have hmem : canonicalEntry lens s ∈ t := (mem_buildTable_iff hmax ht).mpr ⟨h0, rfl⟩
  cases hfind : t.entryOf s with
  | none => simpa [canonicalEntry] using List.find?_eq_none.mp hfind _ hmem
  | some e =>
    have hsym : e.sym = s := by simpa using List.find?_some hfind
    rw [((mem_buildTable_iff hmax ht).mp (List.mem_of_find?_eq_some hfind)).2, hsym]

/-- What an entry of a built table is (R92, R93): the canonical entry of a symbol of its length. -/
theorem entry_fields (hmax : ∀ l ∈ lens, l ≤ maxbits) (ht : buildTable lens maxbits = some t) {e : CodeEntry}
    (he : e ∈ t) : e.len = lens.getD e.sym 0 ∧ e.code = nextCode lens e.len + (lens.take e.sym).count e.len := by
  obtain ⟨-, heq⟩ := (mem_buildTable_iff hmax ht).mp he
  rw [heq]
  exact ⟨rfl, rfl⟩

/-- The codes of a length lie at or past the extensions of all shorter codes, below the end of their length, and fit
their length (R91 to R93). -/
theorem code_bounds (hmax : ∀ l ∈ lens, l ≤ maxbits) (ht : buildTable lens maxbits = some t) {e : CodeEntry}
    (he : e ∈ t) : 2 * codesEnd lens (e.len - 1) ≤ e.code ∧ e.code < codesEnd lens e.len ∧ e.code < 2 ^ e.len := by
  obtain ⟨hs, h0, -⟩ := mem_buildTable ht he
  obtain ⟨hlen, hcode⟩ := entry_fields hmax ht he
  have hrank : (lens.take e.sym).count e.len < lens.count e.len := by
    simpa [hlen] using count_take_lt_count_take hs hs
  have hfit := (buildTable_some hmax ht).1 e.len (hlen ▸ getD_le hmax e.sym)
  obtain ⟨l, hl⟩ : ∃ l, e.len = l + 1 := Nat.exists_eq_succ_of_ne_zero h0
  rw [hl] at hcode hrank hfit ⊢
  rw [nextCode_succ] at hcode
  rw [codesEnd] at hfit
  rw [codesEnd, Nat.add_sub_cancel]
  omega

/-- Codes of one length are distinct, because their ranks are (R93, R95). -/
theorem eq_of_code_eq (hmax : ∀ l ∈ lens, l ≤ maxbits) (ht : buildTable lens maxbits = some t) {e f : CodeEntry}
    (he : e ∈ t) (hf : f ∈ t) (hlen : e.len = f.len) (hcode : e.code = f.code) : e = f := by
  wlog hle : e.sym ≤ f.sym generalizing e f
  · exact (this hf he hlen.symm hcode.symm (by omega)).symm
  obtain ⟨helen, hecode⟩ := entry_fields hmax ht he
  obtain ⟨-, hfcode⟩ := entry_fields hmax ht hf
  have hsym : e.sym = f.sym := by
    by_contra hne
    have hrank := count_take_lt_count_take (mem_buildTable ht he).1 (lt_of_le_of_ne hle hne)
    rw [← helen] at hrank
    rw [← hlen] at hfcode
    omega
  rw [((mem_buildTable_iff hmax ht).mp he).2, hsym]
  exact ((mem_buildTable_iff hmax ht).mp hf).2.symm

/-- No code begins with another (R95): past a shorter code's length all code values lie above its extensions. -/
theorem eq_of_shiftRight_eq (hmax : ∀ l ∈ lens, l ≤ maxbits) (ht : buildTable lens maxbits = some t)
    {e f : CodeEntry} (he : e ∈ t) (hf : f ∈ t) (hlen : f.len ≤ e.len)
    (hcode : e.code >>> (e.len - f.len) = f.code) : f = e := by
  by_cases heq : f.len = e.len
  · exact eq_of_code_eq hmax ht hf he heq (by simpa [heq] using hcode.symm)
  · exfalso
    obtain ⟨d, hd⟩ : ∃ d, e.len = f.len + d + 1 := ⟨e.len - f.len - 1, by omega⟩
    have hlow := (code_bounds hmax ht he).1
    have hhigh := (code_bounds hmax ht hf).2.1
    have hbetween := two_pow_mul_codesEnd_le lens f.len d
    rw [hd, Nat.shiftRight_eq_div_pow] at hcode
    rw [hd, Nat.add_sub_cancel] at hlow
    have hbegin : codesEnd lens f.len ≤ e.code / 2 ^ (d + 1) := by
      rw [Nat.le_div_iff_mul_le (by positivity), Nat.pow_succ]
      linarith
    rw [show f.len + d + 1 - f.len = d + 1 by omega] at hcode
    omega

end

/-! ## Decoding -/

theorem fieldBits_succ_last (n v : Nat) : fieldBits (n + 1) v = fieldBits n v ++ [v.testBit n] := by
  induction n generalizing v with
  | zero => rfl
  | succ n ih => rw [fieldBits, ih, ← Nat.testBit_succ, fieldBits, List.cons_append]

/-- The first bit read of a code is its most significant (R96). -/
theorem codeBits_succ (l c : Nat) : codeBits (l + 1) c = c.testBit l :: codeBits l c := by
  rw [codeBits, fieldBits_succ_last, List.reverse_append, codeBits, List.reverse_singleton, List.singleton_append]

/-- Reading one more bit of a code gives its next longer beginning (R97). -/
theorem shiftRight_succ_add_testBit (c l : Nat) : 2 * c >>> (l + 1) + (c.testBit l).toNat = c >>> l := by
  rw [Nat.toNat_testBit, Nat.shiftRight_succ, Nat.shiftRight_eq_div_pow]
  omega

/-- The walk along the code bits of `e` from a node on its path reaches the leaf of `e` (R97, R98): the only entry of
the node whose code `e`'s code begins with is `e` itself. -/
theorem decodeWalk_of_prefixFree {e : CodeEntry} (fuel len : Nat) (node : CodeTable) {bs : BitStream}
    {rest : List Bool} (he : e ∈ node) (hlen : len < e.len) (hfuel : e.len ≤ len + fuel)
    (hfree : ∀ f ∈ node, f.len ≤ e.len → e.code >>> (e.len - f.len) = f.code → f = e)
    (hbits : bs.remaining = codeBits (e.len - len) e.code ++ rest) :
    decodeWalk fuel len (e.code >>> (e.len - len)) node bs = .ok e.sym (bs.seek (bs.pos + (e.len - len))) := by
  induction fuel generalizing len node bs with
  | zero => omega
  | succ fuel ih =>
    obtain ⟨m, hm⟩ : ∃ m, e.len - len = m + 1 := ⟨e.len - len - 1, by omega⟩
    have hm' : e.len - (len + 1) = m := by omega
    rw [hm, codeBits_succ] at hbits
    have hrest := (BitStream.remaining_eq_cons hbits).2.2
    rw [decodeWalk, BitStream.readBit_of_remaining hbits, hm]
    dsimp only
    rw [shiftRight_succ_add_testBit]
    have hmem : ∀ f, f ∈ (node.filter fun f => f.beginsWith (len + 1) (e.code >>> m)) ↔
        f ∈ node ∧ len + 1 ≤ f.len ∧ f.code >>> (f.len - (len + 1)) = e.code >>> m := by
      simp [CodeEntry.beginsWith]
    have he' := (hmem e).mpr ⟨he, hlen, by rw [hm']⟩
    cases hchild : node.filter fun f => f.beginsWith (len + 1) (e.code >>> m) with
    | nil => rw [hchild] at he'; cases he'
    | cons g tl =>
      rw [hchild] at hmem he'
      dsimp only
      cases hleaf : (g :: tl).find? fun f => f.len == len + 1 with
      | some f =>
        have hflen : f.len = len + 1 := by simpa using List.find?_some hleaf
        obtain ⟨hfnode, -, hfcode⟩ := (hmem f).mp (List.mem_of_find?_eq_some hleaf)
        rw [hflen, Nat.sub_self, Nat.shiftRight_zero] at hfcode
        obtain rfl : f = e := hfree f hfnode (by omega) (by rw [hflen, hm', hfcode])
        dsimp only
        congr 2
        omega
      | none =>
        have hdeeper : e.len ≠ len + 1 := by simpa using List.find?_eq_none.mp hleaf e he'
        have hwalk := ih (len + 1) (g :: tl) he' (by omega) (by omega)
          (fun f hf => hfree f ((hmem f).mp hf).1) (by rwa [hm'])
        rw [hm', BitStream.seek_seek, BitStream.seek_pos] at hwalk
        rw [hwalk, Nat.add_assoc, Nat.add_comm 1]

/-- `DecodeSymbol` reads back the code of every entry of a built table (R100). -/
theorem decodeSymbol_of_mem {lens : List Nat} {maxbits : Nat} {t : CodeTable} (hmax : ∀ l ∈ lens, l ≤ maxbits)
    (ht : buildTable lens maxbits = some t) {e : CodeEntry} (he : e ∈ t) {bs : BitStream} {rest : List Bool}
    (hbits : bs.remaining = codeBits e.len e.code ++ rest) :
    decodeSymbol t maxbits bs = .ok e.sym (bs.seek (bs.pos + e.len)) := by
  obtain ⟨-, h0, hlen⟩ := mem_buildTable ht he
  have hwalk := decodeWalk_of_prefixFree maxbits 0 t he (Nat.pos_of_ne_zero h0)
    (by rw [Nat.zero_add, ← hlen]; exact getD_le hmax e.sym) (fun f hf => eq_of_shiftRight_eq hmax ht he hf) hbits
  rwa [Nat.sub_zero, Nat.shiftRight_eq_zero _ _ (code_bounds hmax ht he).2.2] at hwalk

end Sys2Proof.Machine
end

section
/-! PROOFS. The statements about the encoding of the instructions (30_encoding.md): decoding reads back what `encode`
writes. -/

namespace Sys2Proof.Machine

/-! ## The selecting value -/

/-- The bits that select value `v` of a space (R70, R96): a header's field, or its symbol's code. -/
def valueBits (sp : Space) (t : CodeTable) (v : Nat) : List Bool :=
  match sp with
  | .hdr => fieldBits 3 v
  | _ =>
    match t.entryOf v with
    | some e => codeBits e.len e.code
    | none => []

theorem valueBits_of_entryOf {sp : Space} (hsp : sp ≠ .hdr) {t : CodeTable} {v : Nat} {e : CodeEntry}
    (he : t.entryOf v = some e) : valueBits sp t v = codeBits e.len e.code := by
  cases sp with
  | hdr => exact absurd rfl hsp
  | clSym | llSym | dSym => simp only [valueBits, he]

/-- An instruction's encoding is its selecting value's bits and then its extra-bit field (R74). -/
theorem encode_eq (t : CodeTable) (i : Instr) :
    encode t i = valueBits (opSpace i) t (opValue i) ++ fieldBits (extraWidth (opSpace i) (opValue i)) (opExtra i) := by
  unfold encode
  cases opSpace i with
  | hdr => exact (List.append_nil _).symm
  | clSym | llSym | dSym => rfl

/-- A header instruction's value has three bits (R70): the decoder rejects every other. -/
theorem opValue_lt_of_header {i : Instr} (h : opSpace i = .hdr) : opValue i < 2 ^ 3 := by
  have hdecode := (Laws.RoundTrip.all i).1
  rw [h, decodeElement, decodeHeader] at hdecode
  split at hdecode
  case h_5 => cases hdecode
  all_goals omega

/-- The header's two reads are one read of its three bits (R86, R195). -/
theorem readHeader_of_remaining {v : Nat} (hv : v < 2 ^ 3) {bs : BitStream} {rest : List Bool}
    (hbits : bs.remaining = fieldBits 3 v ++ rest) : readHeader bs = .ok v (bs.seek (bs.pos + 3)) := by
  have hvalue := bitsValue_fieldBits hv
  have hfirst : bs.readBits 1 = _ := BitStream.readBits_of_remaining (bits := (fieldBits 3 v).take 1) hbits
  have htail : (bs.seek (bs.pos + 1)).remaining = (fieldBits 3 v).drop 1 ++ rest :=
    (BitStream.remaining_eq_cons hbits).2.2
  have hsecond : (bs.seek (bs.pos + 1)).readBits 2 = _ := BitStream.readBits_of_remaining htail
  simp only [fieldBits, List.take, List.drop, bitsValue, List.length_cons, List.length_nil, BitStream.seek_pos,
    BitStream.seek_seek] at hfirst hsecond hvalue
  simp only [readHeader, hfirst, hsecond]
  exact congrArg (Read.ok · _) hvalue

/-- The table of a Huffman-coded space is built from the state's array for it (R33). -/
theorem spaceTable_eq_buildTable {sp : Space} (hsp : sp ≠ .hdr) (s : State) :
    spaceTable sp s = buildTable ((codeLens s).of sp) (spaceMaxBits sp) := by
  cases sp with
  | hdr => exact absurd rfl hsp
  | clSym | llSym | dSym => rfl

/-- The widths of the code-length arrays hold no length above the space's limit (R10, R31, R33). -/
theorem codeLens_of_le (sp : Space) (s : State) : ∀ l ∈ (codeLens s).of sp, l ≤ spaceMaxBits sp := by
  intro l hl
  cases sp with
  | hdr => cases hl
  | clSym | llSym | dSym => exact Nat.le_of_lt_succ (natLens_lt _ l hl)

/-- A symbol with a code is read back from its bits (R100). -/
theorem decodeSymbol_valueBits {sp : Space} (hsp : sp ≠ .hdr) {s : State} {t : CodeTable} {v : Nat}
    (ht : spaceTable sp s = some t) (hv : ((codeLens s).of sp).getD v 0 ≠ 0) {bs : BitStream} {rest : List Bool}
    (hbits : bs.remaining = valueBits sp t v ++ rest) :
    decodeSymbol t (spaceMaxBits sp) bs = .ok v (bs.seek (bs.pos + (valueBits sp t v).length)) := by
  rw [spaceTable_eq_buildTable hsp] at ht
  have hmax := codeLens_of_le sp s
  have hcode : valueBits sp t v = codeBits (canonicalEntry ((codeLens s).of sp) v).len
      (canonicalEntry ((codeLens s).of sp) v).code :=
    valueBits_of_entryOf hsp (entryOf_eq_canonicalEntry hmax ht hv)
  rw [hcode] at hbits ⊢
  rw [codeBits_length]
  exact decodeSymbol_of_mem hmax ht ((mem_buildTable_iff hmax ht).mpr ⟨hv, rfl⟩) hbits

theorem readValue_of_symbol {sp : Space} (hsp : sp ≠ .hdr) (t : CodeTable) (bs : BitStream) :
    readValue sp t bs = decodeSymbol t (spaceMaxBits sp) bs := by
  cases sp with
  | hdr => exact absurd rfl hsp
  | clSym | llSym | dSym => rfl

/-- The symbol of a well-formed Huffman-coded instruction has a code (R93). -/
theorem length_ne_zero_of_wellFormed {c : CodeLens} {i : Instr} (h : wellFormed c i = true) (hsp : opSpace i ≠ .hdr) :
    (c.of (opSpace i)).getD (opValue i) 0 ≠ 0 := by
  unfold wellFormed at h
  generalize opSpace i = sp at h hsp ⊢
  cases sp with
  | hdr => exact absurd rfl hsp
  | clSym | llSym | dSym => exact bne_iff_ne.mp h

/-- The selecting value of a well-formed instruction is read back from its bits (R70, R77). -/
theorem readValue_of_wellFormed {s : State} {i : Instr} {t : CodeTable} (ht : spaceTable (opSpace i) s = some t)
    (hwf : wellFormed (codeLens s) i = true) {bs : BitStream} {rest : List Bool}
    (hbits : bs.remaining = valueBits (opSpace i) t (opValue i) ++ rest) :
    readValue (opSpace i) t bs =
      .ok (opValue i) (bs.seek (bs.pos + (valueBits (opSpace i) t (opValue i)).length)) := by
  by_cases hsp : opSpace i = .hdr
  · rw [hsp] at hbits ⊢
    exact readHeader_of_remaining (opValue_lt_of_header hsp) hbits
  · rw [readValue_of_symbol hsp]
    exact decodeSymbol_valueBits hsp ht (length_ne_zero_of_wellFormed hwf hsp) hbits

/-- Settles O42: the value's bits give the value, the field's bits the field, and the two give the instruction. -/
theorem decodeReadsBackEncode : Obligations.DecodeReadsBackEncode := by
  intro s i t rest ht hwf hbits
  obtain ⟨hdecode, hextra⟩ := Laws.RoundTrip.all i
  rw [encode_eq, List.append_assoc] at hbits
  have hfield := BitStream.readBits_of_remaining (BitStream.remaining_seek_append hbits)
  rw [fieldBits_length, bitsValue_fieldBits hextra, BitStream.seek_seek, BitStream.seek_pos] at hfield
  rw [decode, readValue_of_wellFormed ht hwf hbits]
  dsimp only
  rw [hfield]
  dsimp only
  rw [hdecode, encode_eq, List.length_append, fieldBits_length, Nat.add_assoc]

end Sys2Proof.Machine
end

section
/-! PROOFS. The statements about the bit reader (40_bitstream.md): `ReadBit`, `ReadBits` and `AlignToByte`. -/

namespace Sys2Proof.Machine

/-! ## The value of a field -/

/-- A bit list's value is the sum of its bits, bit `i` at weight `2 ^ i` (R56). -/
theorem bitsValue_map_range (f : Nat → Bool) (n : Nat) :
    bitsValue ((List.range n).map f) = ((List.range n).map fun i => (f i).toNat <<< i).sum := by
  induction n generalizing f with
  | zero => rfl
  | succ n ih =>
    have hdouble : ∀ i, (f (i + 1)).toNat <<< (i + 1) = 2 * (f (i + 1)).toNat <<< i := fun i => by
      rw [Nat.shiftLeft_succ]
    rw [List.range_succ_eq_map, List.map_cons, List.map_map, bitsValue, ih]
    simp only [List.map_cons, List.map_map, List.sum_cons, Function.comp_def, Nat.succ_eq_add_one, hdouble,
      List.sum_map_mul_left, Nat.shiftLeft_zero]

/-- The next `n` bits, where the input holds them, come first among the bits still to read. -/
theorem BitStream.remaining_eq_append {n : Nat} {bs : BitStream} (h : bs.pos + n ≤ 8 * bs.len) :
    bs.remaining = ((List.range n).map fun i => bs.bitAt (bs.pos + i)) ++ (bs.seek (bs.pos + n)).remaining := by
  have hsplit : 8 * bs.len - bs.pos = n + (8 * bs.len - (bs.pos + n)) := by omega
  simp only [remaining, hsplit, List.range_add, List.map_append, List.map_map, Function.comp_def, seek_len, seek_pos,
    seek_bitAt, Nat.add_assoc]

/-- `ReadBits(n)` on an input that holds `n` more bits (R85). -/
theorem BitStream.readBits_of_le {n : Nat} {bs : BitStream} (h : bs.pos + n ≤ 8 * bs.len) :
    bs.readBits n =
      .ok (((List.range n).map fun i => (bs.bitAt (bs.pos + i)).toNat <<< i).sum) (bs.seek (bs.pos + n)) := by
  have hread := readBits_of_remaining (remaining_eq_append h)
  rwa [List.length_map, List.length_range, bitsValue_map_range] at hread

/-- `ReadBits(n)` on an input that ends within the field consumes the bits there are (R85). -/
theorem BitStream.readBits_of_lt {n : Nat} {bs : BitStream} (hpos : bs.pos ≤ 8 * bs.len)
    (hend : 8 * bs.len < bs.pos + n) : bs.readBits n = .raise (endError bs.srcEnd) (bs.seek (8 * bs.len)) := by
  rcases bs.readBits_cases n with ⟨v, -, hfits, -⟩ | ⟨p, -, hle, -, hp, hread⟩
  · omega
  · obtain rfl : p = 8 * bs.len := by omega
    exact hread

/-- Settles O9: the bits read are the next bits of the input, and where it ends the cursor stops. -/
theorem readBitsAssemblesLowBitFirst : Obligations.ReadBitsAssemblesLowBitFirst := by
  intro n bs
  exact ⟨BitStream.readBits_of_le, BitStream.readBits_of_lt, rfl⟩

/-! ## Fields read in parts -/

/-- `ReadBits(a)` then `ReadBits(b)` is `ReadBits(a + b)`, failures included (R86). -/
theorem BitStream.readBits_add (a b : Nat) (bs : BitStream) :
    bs.readBits (a + b) =
      match bs.readBits a with
      | .raise k bs' => .raise k bs'
      | .ok va bs' =>
        match bs'.readBits b with
        | .raise k bs'' => .raise k bs''
        | .ok vb bs'' => .ok (va + vb <<< a) bs'' := by
  induction a generalizing bs with
  | zero =>
    rw [Nat.zero_add, readBits]
    dsimp only
    cases bs.readBits b with
    | raise k bs' => rfl
    | ok vb bs' => exact congrArg (Read.ok · bs') (Nat.zero_add vb).symm
  | succ a ih =>
    rw [Nat.add_right_comm, readBits, readBits]
    cases bs.readBit with
    | raise k bs1 => rfl
    | ok bit bs1 =>
      dsimp only
      rw [ih]
      cases bs1.readBits a with
      | raise k bs' => rfl
      | ok va bs' =>
        dsimp only
        cases bs'.readBits b with
        | raise k bs'' => rfl
        | ok vb bs'' =>
          have hvalue : bit.toNat + 2 * (va + vb <<< a) = bit.toNat + 2 * va + vb <<< (a + 1) := by
            rw [Nat.shiftLeft_succ]; omega
          exact congrArg (Read.ok · bs'') hvalue

/-- The header's two reads are one read of its three bits (R86, R195): `t <<< 1` computes to `2 * t`. -/
theorem readHeader_eq_readBits (bs : BitStream) : readHeader bs = bs.readBits 3 := by
  rw [show 3 = 1 + 2 from rfl, BitStream.readBits_add, readHeader]
  rfl

/-- Settles O10: the split of a field anywhere, and the header's split into one bit and two. -/
theorem readBitsSplitsAnywhere : Obligations.ReadBitsSplitsAnywhere := fun a b bs =>
  ⟨bs.readBits_add a b, readHeader_eq_readBits bs⟩

/-! ## One bit, and alignment -/

/-- Settles O8: `in_pos` is inside the input exactly when the bit position is (R84). -/
theorem readBitReadsTheCursorBit : Obligations.ReadBitReadsTheCursorBit := by
  intro bs
  have hat_end (h : bs.len ≤ bs.inPos) : bs.readBit = .raise (endError bs.srcEnd) bs :=
    BitStream.readBit_of_le (Nat.le_of_not_lt fun hlt => Nat.not_lt.mpr h (bs.pos_lt_iff.mp hlt))
  refine ⟨fun h => ?_, fun h hsrc => ?_, fun h hsrc => ?_⟩
  · rw [BitStream.readBit_of_lt (bs.pos_lt_iff.mpr h), ← BitStream.advance_eq_seek, BitStream.bitAt,
      BitStream.pos_div, BitStream.pos_mod, BitStream.advance]
  · rw [hat_end h, hsrc, endError]
  · rw [hat_end h, hsrc, endError]

/-- Settles O11: the two branches of `AlignToByte`, and the position rounded up to a multiple of 8. -/
theorem alignGoesToTheNextByteBoundary : Obligations.AlignGoesToTheNextByteBoundary := by
  intro bs
  refine ⟨fun hoff => if_neg hoff, fun hon => if_pos hon, ?_⟩
  rw [BitStream.align_eq_seek, BitStream.seek_pos]

end Sys2Proof.Machine
end

section
/-! PROOFS. The statements about canonical Huffman codes (41_huffman.md): which length arrays `Build` rejects, the code
it gives each symbol, and what `DecodeSymbol` answers. -/

namespace Sys2Proof.Machine

/-! ## Codes as bit strings -/

/-- The first `l` bits of a code are the code value without its `d` low bits (R96). -/
theorem codeBits_add (l d c : Nat) : codeBits (l + d) c = codeBits l (c >>> d) ++ codeBits d c := by
  induction l with
  | zero => rw [Nat.zero_add]; rfl
  | succ l ih =>
    rw [Nat.add_right_comm, codeBits_succ, ih, codeBits_succ, Nat.testBit_shiftRight, Nat.add_comm d,
      List.cons_append]

/-- Code values that fit a length are told apart by their bits. -/
theorem eq_of_codeBits_eq {l c c' : Nat} (hc : c < 2 ^ l) (hc' : c' < 2 ^ l) (h : codeBits l c = codeBits l c') :
    c = c' := by
  rw [← bitsValue_fieldBits hc, ← bitsValue_fieldBits hc', List.reverse_injective h]

/-- A code that begins another code, as the walk and the map see it (R97). -/
theorem shiftRight_eq_of_codeBits_prefix {l l' c c' : Nat} (hc : c < 2 ^ l) (hc' : c' < 2 ^ l')
    (h : codeBits l c <+: codeBits l' c') : l ≤ l' ∧ c' >>> (l' - l) = c := by
  have hle : l ≤ l' := by simpa using h.length_le
  refine ⟨hle, ?_⟩
  obtain ⟨d, rfl⟩ := Nat.exists_eq_add_of_le hle
  rw [Nat.add_sub_cancel_left]
  have hfit : c' >>> d < 2 ^ l := by
    rw [Nat.shiftRight_eq_div_pow]
    exact Nat.div_lt_of_lt_mul (by rwa [Nat.mul_comm, ← Nat.pow_add])
  obtain ⟨tail, htail⟩ := h
  rw [codeBits_add] at htail
  exact eq_of_codeBits_eq hfit hc (List.append_inj_left htail (by simp)).symm

/-- Settles O14: codes fit, codes of one length are distinct, and no code begins with another. -/
theorem canonicalCodesArePrefixFree : Obligations.CanonicalCodesArePrefixFree := by
  intro lens maxbits t hmax ht
  have hfit : ∀ e ∈ t, e.code < 2 ^ e.len := fun e he => (code_bounds hmax ht he).2.2
  refine ⟨hfit, fun e he f hf hne hpair => ?_, fun e he f hf hne hprefix => ?_⟩
  · obtain ⟨hlen, hcode⟩ := Prod.mk.inj hpair
    exact hne (eq_of_code_eq hmax ht he hf hlen hcode)
  · obtain ⟨hlen, hcode⟩ := shiftRight_eq_of_codeBits_prefix (hfit e he) (hfit f hf) hprefix
    exact hne (eq_of_shiftRight_eq hmax ht hf he hlen hcode)

/-! ## What a decoded symbol says about the stream -/

/-- The bit before the last `m` of a code whose value without those `m` bits is `2 * c + b` is `b`. -/
theorem testBit_of_shiftRight_eq {code m c : Nat} {b : Bool} (h : code >>> m = 2 * c + b.toNat) :
    code.testBit m = b := by
  have hbit : (code >>> m).testBit 0 = code.testBit m := Nat.testBit_shiftRight code
  rw [← hbit, h, Nat.testBit_zero]
  cases b <;> simp

/-- The entries of a child node: those of its parent whose code begins with the bits read so far (R98). -/
theorem mem_child {node : CodeTable} {len code : Nat} {e : CodeEntry} :
    e ∈ node.filter (fun e => e.beginsWith len code) ↔ e ∈ node ∧ len ≤ e.len ∧ e.code >>> (e.len - len) = code := by
  simp [CodeEntry.beginsWith]

/-- The next bit of the code of a child's entry is the bit that leads to the child (R98). -/
theorem codeBits_of_mem_child {node : CodeTable} {len code : Nat} {b : Bool} {e : CodeEntry}
    (he : e ∈ node.filter fun e => e.beginsWith (len + 1) (2 * code + b.toNat)) :
    codeBits (e.len - len) e.code = b :: codeBits (e.len - (len + 1)) e.code := by
  obtain ⟨-, hlen, hshift⟩ := mem_child.mp he
  rw [show e.len - len = e.len - (len + 1) + 1 by omega, codeBits_succ, testBit_of_shiftRight_eq hshift]

/-- A walk that answers a symbol has read the rest of that symbol's code (R97, R98). -/
theorem remaining_of_decodeWalk_ok {fuel len code sym : Nat} {node : CodeTable} {bs bs' : BitStream}
    (h : decodeWalk fuel len code node bs = .ok sym bs') :
    ∃ e ∈ node, e.sym = sym ∧ ∃ rest, bs.remaining = codeBits (e.len - len) e.code ++ rest := by
  induction fuel generalizing len code node bs with
  | zero => cases h
  | succ fuel ih =>
    have hlt : bs.pos < 8 * bs.len := by
      by_contra hend
      rw [decodeWalk, BitStream.readBit_of_le (Nat.le_of_not_lt hend)] at h
      cases h
    rw [decodeWalk, BitStream.readBit_of_lt hlt] at h
    rw [BitStream.remaining_of_lt hlt]
    generalize bs.bitAt bs.pos = b at h ⊢
    dsimp only at h
    cases hchild : node.filter fun e => e.beginsWith (len + 1) (2 * code + b.toNat) with
    | nil => rw [hchild] at h; cases h
    | cons g tl =>
      rw [hchild] at h
      dsimp only at h
      have hfound : ∃ e ∈ g :: tl, e.sym = sym ∧
          ∃ rest, (bs.seek (bs.pos + 1)).remaining = codeBits (e.len - (len + 1)) e.code ++ rest := by
        cases hleaf : (g :: tl).find? fun e => e.len == len + 1 with
        | none =>
          rw [hleaf] at h
          exact ih h
        | some leaf =>
          rw [hleaf] at h
          cases h
          have hlen : leaf.len = len + 1 := by simpa using List.find?_some hleaf
          exact ⟨leaf, List.mem_of_find?_eq_some hleaf, rfl, _, by rw [hlen, Nat.sub_self]; rfl⟩
      obtain ⟨e, he, hsym, rest, hrest⟩ := hfound
      rw [← hchild] at he
      exact ⟨e, (mem_child.mp he).1, hsym, rest, by rw [hrest, codeBits_of_mem_child he, List.cons_append]⟩

/-- Settles O15: the code is the canonical one, and a walk that answers `s` has read the code of an entry of `s`. -/
theorem decodeSymbolReadsBackEveryCode : Obligations.DecodeSymbolReadsBackEveryCode := by
  intro lens maxbits t hmax ht s h0
  have hmem : canonicalEntry lens s ∈ t := (mem_buildTable_iff hmax ht).mpr ⟨h0, rfl⟩
  refine ⟨(canonicalEntry lens s).code, hmem, fun bs bits rest hlen hbits => ⟨?_, ?_⟩⟩
  · rintro rfl
    exact decodeSymbol_of_mem hmax ht hmem hbits
  · intro hne bs' hok
    obtain ⟨e, he, rfl, rest', hrest⟩ := remaining_of_decodeWalk_ok hok
    obtain ⟨-, heq⟩ := (mem_buildTable_iff hmax ht).mp he
    rw [Nat.sub_zero, hbits, heq] at hrest
    exact hne (List.append_inj_left hrest (hlen.trans (codeBits_length _ _).symm))

/-! ## Over-subscription -/

/-- The room at level `k` runs short by level `k + n` exactly when the codes given out by then do not fit (R91). -/
theorem fitsFrom_iff {lens : List Nat} {left k : Nat} (n : Nat) (h : left + codesEnd lens k = 2 ^ k) :
    fitsFrom left ((List.range' (k + 1) n).map fun l => lens.count l) = true ↔
      codesEnd lens (k + n) ≤ 2 ^ (k + n) := by
  induction n generalizing left k with
  | zero => exact iff_of_true rfl (by rw [Nat.add_zero]; omega)
  | succ n ih =>
    rw [List.range'_succ, List.map_cons, fitsFrom, show k + (n + 1) = k + 1 + n by omega]
    have hlevel : codesEnd lens (k + 1) = 2 * codesEnd lens k + lens.count (k + 1) := rfl
    by_cases hshort : 2 * left < lens.count (k + 1)
    · rw [if_pos hshort]
      have hover : 2 ^ (k + 1) < codesEnd lens (k + 1) := by rw [Nat.pow_succ]; omega
      have hlater : 2 ^ (k + 1 + n) < codesEnd lens (k + 1 + n) :=
        calc 2 ^ (k + 1 + n) = 2 ^ n * 2 ^ (k + 1) := by rw [Nat.pow_add, Nat.mul_comm]
          _ < 2 ^ n * codesEnd lens (k + 1) := Nat.mul_lt_mul_of_pos_left hover (Nat.two_pow_pos n)
          _ ≤ codesEnd lens (k + 1 + n) := two_pow_mul_codesEnd_le lens (k + 1) n
      exact iff_of_false Bool.false_ne_true (Nat.not_le.mpr hlater)
    · rw [if_neg hshort]
      exact ih (by rw [Nat.pow_succ]; omega)

/-- `Build` fails exactly when the codes given out up to `maxbits` do not fit it (R91). -/
theorem buildTable_eq_none_iff (lens : List Nat) (maxbits : Nat) :
    buildTable lens maxbits = none ↔ 2 ^ maxbits < codesEnd lens maxbits := by
  have hfits := fitsFrom_iff (lens := lens) (left := 1) (k := 0) maxbits rfl
  rw [Nat.zero_add, Nat.zero_add, ← countLens_eq] at hfits
  rw [buildTable, ← Nat.not_le, ← hfits]
  by_cases h : fitsFrom 1 (countLens lens maxbits) = true
  · rw [if_pos h]; simp [h]
  · rw [if_neg h]; simp [h]

theorem codesEnd_nil (n : Nat) : codesEnd [] n = 0 := by
  induction n with
  | zero => rfl
  | succ n ih => rw [codesEnd, ih, List.count_nil]

/-- A symbol of length `l` takes `2 ^ (n - l)` of the code values of length `n`. -/
theorem codesEnd_cons (l : Nat) (lens : List Nat) (n : Nat) :
    codesEnd (l :: lens) n = codesEnd lens n + if l ≠ 0 ∧ l ≤ n then 2 ^ (n - l) else 0 := by
  induction n with
  | zero => simp [codesEnd]
  | succ n ih =>
    rw [codesEnd, ih, codesEnd, List.count_cons]
    rcases Nat.lt_trichotomy l (n + 1) with hlt | rfl | hgt
    · have hdouble : n + 1 - l = n - l + 1 := by omega
      by_cases h0 : l = 0
      · simp [h0]
      · simp [h0, hlt.ne, hlt.le, Nat.le_of_lt_succ hlt, hdouble, Nat.pow_succ]; omega
    · simp; omega
    · simp [hgt.ne', Nat.not_le.mpr hgt, Nat.not_le.mpr (Nat.lt_of_succ_lt hgt)]

/-- The codes given out up to `maxbits` are the sum of R91. -/
theorem codesEnd_eq_sum {lens : List Nat} {maxbits : Nat} (hmax : ∀ l ∈ lens, l ≤ maxbits) :
    codesEnd lens maxbits = ((lens.filter fun l => l != 0).map fun l => 2 ^ (maxbits - l)).sum := by
  induction lens with
  | nil => exact codesEnd_nil maxbits
  | cons l rest ih =>
    obtain ⟨hl, hrest⟩ := List.forall_mem_cons.mp hmax
    rw [codesEnd_cons, ih hrest, List.filter_cons]
    by_cases h0 : l = 0
    · simp [h0]
    · simp [h0, hl, Nat.add_comm]

/-- Settles O12: the room runs short exactly when the code values given out do not fit `maxbits`. -/
theorem buildRejectsExactlyOverSubscription : Obligations.BuildRejectsExactlyOverSubscription := by
  intro lens maxbits hmax
  rw [buildTable_eq_none_iff, codesEnd_eq_sum hmax]

/-- Settles O13: the entries of a built table are the canonical entries. -/
theorem codesFollowTheCanonicalAssignment : Obligations.CodesFollowTheCanonicalAssignment :=
  fun _ _ _ hmax ht => (buildTable_some hmax ht).2

/-! ## The walk and the loop -/

/-- A code that begins with `len + 1` bits begins with the first `len` of them. -/
theorem beginsWith_of_succ {e : CodeEntry} {len code : Nat} {b : Bool}
    (h : e.beginsWith (len + 1) (2 * code + b.toNat) = true) : e.beginsWith len code = true := by
  simp only [CodeEntry.beginsWith, Bool.and_eq_true, decide_eq_true_eq, beq_iff_eq] at h ⊢
  obtain ⟨hlen, hcode⟩ := h
  refine ⟨by omega, ?_⟩
  rw [show e.len - len = e.len - (len + 1) + 1 by omega, Nat.shiftRight_succ, hcode]
  have := b.toNat_lt
  omega

/-- The nodes below a node are the nodes of the table: going down one bit at a time drops no entry that begins with all
the bits read (R98). -/
theorem filter_beginsWith_succ (t : CodeTable) (len code : Nat) (b : Bool) :
    (t.filter fun e => e.beginsWith len code).filter (fun e => e.beginsWith (len + 1) (2 * code + b.toNat)) =
      t.filter fun e => e.beginsWith (len + 1) (2 * code + b.toNat) := by
  rw [List.filter_filter]
  refine List.filter_congr fun e _ => ?_
  rw [Bool.and_eq_left_iff_imp]
  exact beginsWith_of_succ

/-- The leaf at a node is the entry the map holds for the bits read (R97, R98). -/
theorem lookup_eq_leaf (t : CodeTable) (len code : Nat) :
    t.lookup len code =
      ((t.filter fun e => e.beginsWith len code).find? fun e => e.len == len).map CodeEntry.sym := by
  rw [CodeTable.lookup, List.find?_filter]
  congr 2
  funext e
  by_cases hlen : e.len = len
  · simp [CodeEntry.beginsWith, hlen, Bool.beq_eq_decide_eq]
  · simp [hlen]

/-- A longer code of the table begins with these bits exactly when their node holds an entry of another length. -/
theorem extends_iff (t : CodeTable) (len code : Nat) :
    t.extends len code = true ↔ ∃ e ∈ t.filter fun e => e.beginsWith len code, e.len ≠ len := by
  simp only [CodeTable.extends, List.any_eq_true, Bool.and_eq_true, decide_eq_true_eq, beq_iff_eq, mem_child]
  constructor
  · rintro ⟨e, he, hlen, hcode⟩
    exact ⟨e, ⟨he, hlen.le, hcode⟩, hlen.ne'⟩
  · rintro ⟨e, ⟨he, hlen, hcode⟩, hne⟩
    exact ⟨e, he, lt_of_le_of_ne hlen hne.symm, hcode⟩

/-- The walk from a node whose children are those of the table is the loop over the map (R97, R98). -/
theorem decodeWalk_eq_decodeLoop {t node : CodeTable} {len code : Nat} (fuel : Nat) (bs : BitStream)
    (hnode : ∀ b : Bool, (node.filter fun e => e.beginsWith (len + 1) (2 * code + b.toNat)) =
      t.filter fun e => e.beginsWith (len + 1) (2 * code + b.toNat)) :
    decodeWalk fuel len code node bs = decodeLoop t fuel len code bs := by
  induction fuel generalizing len code node bs with
  | zero => rfl
  | succ fuel ih =>
    rw [decodeWalk, decodeLoop]
    cases bs.readBit with
    | raise k bs' => rfl
    | ok b bs' =>
      dsimp only
      have hextends := extends_iff t (len + 1) (2 * code + b.toNat)
      have hbelow := filter_beginsWith_succ t (len + 1) (2 * code + b.toNat)
      rw [hnode b, lookup_eq_leaf]
      cases hchild : t.filter fun e => e.beginsWith (len + 1) (2 * code + b.toNat) with
      | nil =>
        rw [hchild] at hextends
        have hnone : t.extends (len + 1) (2 * code + b.toNat) = false := by simpa using hextends
        simp [hnone]
      | cons g tl =>
        rw [hchild] at hextends hbelow
        dsimp only
        cases hleaf : (g :: tl).find? fun e => e.len == len + 1 with
        | some leaf => rfl
        | none =>
          have hlonger : g.len ≠ len + 1 := by simpa using List.find?_eq_none.mp hleaf g List.mem_cons_self
          have hsome := hextends.mpr ⟨g, List.mem_cons_self, hlonger⟩
          simp only [Option.map_none, hsome, if_true]
          exact ih bs' hbelow

/-- Settles O16: at the root the node is the whole table. -/
theorem treeWalkIsTheMapLoop : Obligations.TreeWalkIsTheMapLoop := fun _ maxbits bs =>
  decodeWalk_eq_decodeLoop maxbits bs fun _ => rfl

/-! ## The empty table, and the source's example -/

/-- No length but 0 gives the empty table (R94, R99). -/
theorem buildTable_replicate_zero (n maxbits : Nat) : buildTable (List.replicate n 0) maxbits = some [] := by
  have hmax : ∀ l ∈ List.replicate n 0, l ≤ maxbits := fun l hl => by simp [List.eq_of_mem_replicate hl]
  have hnone : buildTable (List.replicate n 0) maxbits ≠ none := by
    rw [Ne, buildTable_eq_none_iff, codesEnd_eq_sum hmax]
    simp
  obtain ⟨t, ht⟩ := Option.ne_none_iff_exists'.mp hnone
  have hempty : t = [] := List.eq_nil_iff_forall_not_mem.mpr fun e he => by
    have h0 := ((mem_buildTable_iff hmax ht).mp he).1
    simp at h0
  rw [ht, hempty]

/-- Settles O17: with no code to give out `Build` cannot run short, and the root of the empty table has no child. -/
theorem emptyTableFailsAfterOneBit : Obligations.EmptyTableFailsAfterOneBit := by
  intro n maxbits bs
  refine ⟨buildTable_replicate_zero n maxbits, fun h => ?_, fun h => ?_⟩
  · rw [decodeSymbol, decodeWalk, BitStream.readBit_of_lt (bs.pos_lt_iff.mpr h)]
    rfl
  · have hend : 8 * bs.len ≤ bs.pos := Nat.le_of_not_lt fun hlt => Nat.not_lt.mpr h (bs.pos_lt_iff.mp hlt)
    rw [decodeSymbol, decodeWalk, BitStream.readBit_of_le hend]

/-- Settles O18: `Build` runs on the eight lengths. -/
theorem canonicalExampleOfTheSource : Obligations.CanonicalExampleOfTheSource := by
  unfold Obligations.CanonicalExampleOfTheSource
  decide

end Sys2Proof.Machine
end

section
/-! PROOFS. The statements about the fixed tables (42_fixed_tables.md): the codes their arrays build, and words in those
codes decoded. -/

namespace Sys2Proof.Machine

/-! ## Arrays made of runs -/

/-- Where the codes given out fit `maxbits`, `Build` succeeds and the table holds the canonical entries (R91 to R94). -/
theorem buildTable_eq_some {lens : List Nat} {maxbits : Nat} (hmax : ∀ l ∈ lens, l ≤ maxbits)
    (hfits : codesEnd lens maxbits ≤ 2 ^ maxbits) :
    buildTable lens maxbits =
      some (((List.range lens.length).filter fun s => lens.getD s 0 != 0).map (canonicalEntry lens)) := by
  have hsome : buildTable lens maxbits ≠ none := by
    rw [Ne, buildTable_eq_none_iff]
    exact Nat.not_lt.mpr hfits
  obtain ⟨t, ht⟩ := Option.ne_none_iff_exists'.mp hsome
  rw [ht, (buildTable_some hmax ht).2]

/-- In a run of `n` symbols of length `l` from symbol `p` on, code values go up by one from the run's first (R93). -/
theorem canonicalEntry_of_run {lens pre post : List Nat} {n l s p c : Nat}
    (hlens : lens = pre ++ (List.replicate n l ++ post)) (hp : pre.length = p)
    (hc : nextCode lens l + pre.count l = c) (hps : p ≤ s) (hs : s < p + n) :
    canonicalEntry lens s = ⟨l, c + (s - p), s⟩ := by
  subst hp
  obtain ⟨i, rfl⟩ := Nat.exists_eq_add_of_le hps
  have hi : i < n := Nat.add_lt_add_iff_left.mp hs
  have hlen : lens.getD (pre.length + i) 0 = l := by
    simp [hlens, List.getD_eq_getElem?_getD, List.getElem?_append, hi]
  have hrank : (lens.take (pre.length + i)).count l = pre.count l + i := by
    rw [hlens, List.take_length_add_append,
      List.take_append_of_le_length (by simpa using hi.le), List.take_replicate, List.count_append,
      List.count_replicate_self, Nat.min_eq_left hi.le]
  rw [canonicalEntry, hlen, hrank, Nat.add_sub_cancel_left, ← hc, Nat.add_assoc]

/-! ## The two fixed tables -/

/-- The row of R104 for literal/length symbol `s`. -/
def fixedLitEntry (s : Nat) : CodeEntry :=
  if s < 144 then ⟨8, 0x30 + s, s⟩ else if s < 256 then ⟨9, 0x190 + (s - 144), s⟩
  else if s < 280 then ⟨7, s - 256, s⟩ else ⟨8, 0xC0 + (s - 280), s⟩

theorem fixedLitEntry_len_ne_zero (s : Nat) : (fixedLitEntry s).len ≠ 0 := by
  unfold fixedLitEntry
  split_ifs <;> exact Nat.succ_ne_zero _

/-- The row of R105 for distance symbol `d`. -/
def fixedDistEntry (d : Nat) : CodeEntry := ⟨5, d, d⟩

/-- The fixed literal/length array (R102) as four runs. -/
theorem natLens_fixedLit : natLens (padLens 288 fixedLit) =
    List.replicate 144 8 ++ (List.replicate 112 9 ++ (List.replicate 24 7 ++ List.replicate 8 8)) := by
  have hlen : fixedLit.length = 288 := by
    simp only [fixedLit, List.length_append, List.length_replicate]
  rw [natLens, padLens_toList, List.take_left' hlen, fixedLit]
  simp only [List.map_append, List.map_replicate, List.append_assoc]
  rfl

/-- The fixed distance array (R103) as one run, padded with zeros. -/
theorem natLens_fixedDist : natLens (padLens 32 fixedDist) = List.replicate 30 5 ++ List.replicate 2 0 := by
  decide

theorem count_fixedLit (l : Nat) : (natLens (padLens 288 fixedLit)).count l =
    if l = 7 then 24 else if l = 8 then 152 else if l = 9 then 112 else 0 := by
  rw [natLens_fixedLit]
  simp only [List.count_append, List.count_replicate, beq_iff_eq]
  split_ifs <;> omega

/-- The first codes of the three lengths in use (R92). -/
theorem nextCode_fixedLit :
    nextCode (natLens (padLens 288 fixedLit)) 7 = 0 ∧ nextCode (natLens (padLens 288 fixedLit)) 8 = 0x30 ∧
    nextCode (natLens (padLens 288 fixedLit)) 9 = 0x190 := by
  simp [nextCode, count_fixedLit]

/-- Each symbol's canonical entry is its row of R104: the four runs are the four rows. The last run's codes of length
8 follow the 144 of the first run. -/
theorem canonicalEntry_fixedLit {s : Nat} (hs : s < 288) :
    canonicalEntry (natLens (padLens 288 fixedLit)) s = fixedLitEntry s := by
  obtain ⟨h7, h8, h9⟩ := nextCode_fixedLit
  have hlens := natLens_fixedLit
  rw [fixedLitEntry]
  split_ifs with h144 h256 h280
  · rw [← List.nil_append (List.replicate 144 8 ++ _)] at hlens
    exact canonicalEntry_of_run hlens List.length_nil (by rw [h8, List.count_nil]) (Nat.zero_le s) (by omega)
  · exact canonicalEntry_of_run hlens List.length_replicate (by rw [h9, List.count_replicate]; rfl) (by omega)
      (by omega)
  · rw [← List.append_assoc] at hlens
    rw [canonicalEntry_of_run (p := 256) (c := 0) hlens (by simp only [List.length_append, List.length_replicate])
      (by simp only [h7, List.count_append, List.count_replicate]; rfl) (by omega) (by omega), Nat.zero_add]
  · rw [← List.append_assoc, ← List.append_assoc, ← List.append_nil (List.replicate 8 8)] at hlens
    exact canonicalEntry_of_run hlens (by simp only [List.length_append, List.length_replicate])
      (by simp only [h8, List.count_append, List.count_replicate]; rfl) (by omega) (by omega)

/-- Each symbol's canonical entry is its row of R105: the one run starts at code 0. -/
theorem canonicalEntry_fixedDist {d : Nat} (hd : d < 30) :
    canonicalEntry (natLens (padLens 32 fixedDist)) d = fixedDistEntry d := by
  have h5 : nextCode (natLens (padLens 32 fixedDist)) 5 = 0 := by decide
  have hlens := natLens_fixedDist
  rw [← List.nil_append (_ ++ _)] at hlens
  rw [canonicalEntry_of_run (c := 0) hlens List.length_nil (by rw [h5, List.count_nil]) (Nat.zero_le d) (by omega),
    Nat.zero_add, Nat.sub_zero, fixedDistEntry]

/-- `Build` accepts the fixed literal/length array, and every symbol has a code (R104, R106). -/
theorem buildTable_fixedLit :
    buildTable (natLens (padLens 288 fixedLit)) 15 = some ((List.range 288).map fixedLitEntry) := by
  have hfits : codesEnd (natLens (padLens 288 fixedLit)) 15 ≤ 2 ^ 15 := by
    simp [codesEnd, count_fixedLit]
  rw [buildTable_eq_some (fun l hl => Nat.le_of_lt_succ (natLens_lt _ l hl)) hfits, natLens_length]
  have hcoded : ∀ s ∈ List.range 288, ((natLens (padLens 288 fixedLit)).getD s 0 != 0) = true := fun s hs => by
    have hlen : (natLens (padLens 288 fixedLit)).getD s 0 = (fixedLitEntry s).len :=
      congrArg CodeEntry.len (canonicalEntry_fixedLit (List.mem_range.mp hs))
    rw [hlen]
    exact bne_iff_ne.mpr (fixedLitEntry_len_ne_zero s)
  rw [List.filter_eq_self.mpr hcoded]
  exact congrArg some (List.map_congr_left fun s hs => canonicalEntry_fixedLit (List.mem_range.mp hs))

/-- `Build` accepts the fixed distance array, and the padding symbols 30 and 31 have no code (R105, R106). -/
theorem buildTable_fixedDist :
    buildTable (natLens (padLens 32 fixedDist)) 15 = some ((List.range 30).map fixedDistEntry) := by
  have hfits : codesEnd (natLens (padLens 32 fixedDist)) 15 ≤ 2 ^ 15 := by decide
  rw [buildTable_eq_some (fun l hl => Nat.le_of_lt_succ (natLens_lt _ l hl)) hfits, natLens_length]
  have hcoded : (List.range 32).filter (fun d => (natLens (padLens 32 fixedDist)).getD d 0 != 0) = List.range 30 := by
    decide
  rw [hcoded]
  exact congrArg some (List.map_congr_left fun d hd => canonicalEntry_fixedDist (List.mem_range.mp hd))

/-- Settles O19: both arrays are made of runs, and along a run the canonical code values count up. -/
theorem fixedTablesAreTheTabulatedCodes : Obligations.FixedTablesAreTheTabulatedCodes :=
  ⟨buildTable_fixedLit, buildTable_fixedDist⟩

/-! ## Words in the fixed codes -/

theorem wellFormed_of_length_ne_zero {c : CodeLens} {i : Instr} (h : (c.of (opSpace i)).getD (opValue i) 0 ≠ 0) :
    wellFormed c i = true := by
  unfold wellFormed
  generalize opSpace i = sp at h ⊢
  cases sp with
  | hdr => rfl
  | clSym | llSym | dSym => exact bne_iff_ne.mpr h

/-- A stream that begins with a symbol's canonical code and an extra-bit field decodes to that instruction (R74, R100). -/
theorem decode_of_canonicalEntry {s : State} {i : Instr} {t : CodeTable} {e : CodeEntry} (hsp : opSpace i ≠ .hdr)
    (ht : spaceTable (opSpace i) s = some t) (he : canonicalEntry ((codeLens s).of (opSpace i)) (opValue i) = e)
    (h0 : e.len ≠ 0)
    (hbits : codeBits e.len e.code ++ fieldBits (extraWidth (opSpace i) (opValue i)) (opExtra i) <+: s.stream.remaining) :
    decode (opSpace i) t s.stream =
      .ok (.ok i) (s.stream.seek (s.stream.pos + (e.len + extraWidth (opSpace i) (opValue i)))) := by
  obtain ⟨rest, hrest⟩ := hbits
  have hcoded : ((codeLens s).of (opSpace i)).getD (opValue i) 0 ≠ 0 := by rwa [← he] at h0
  have hentry := entryOf_eq_canonicalEntry (codeLens_of_le (opSpace i) s)
    ((spaceTable_eq_buildTable hsp s).symm.trans ht) hcoded
  rw [he] at hentry
  have hencode := encode_eq t i
  rw [valueBits_of_entryOf hsp hentry] at hencode
  rw [← hencode] at hrest
  rw [decodeReadsBackEncode s i t rest ht (wellFormed_of_length_ne_zero hcoded) hrest.symm, hencode,
    List.length_append, codeBits_length, fieldBits_length]

/-- With the fixed literal/length table the code to look for is the row of R104. -/
theorem decode_fixedLit {i : Instr} {bs : BitStream} (hsp : opSpace i = .llSym) (hv : opValue i < 288)
    (hbits : codeBits (fixedLitEntry (opValue i)).len (fixedLitEntry (opValue i)).code ++
      fieldBits (lengthExtra (opValue i)) (opExtra i) <+: bs.remaining) :
    decode .llSym ((List.range 288).map fixedLitEntry) bs =
      .ok (.ok i) (bs.seek (bs.pos + ((fixedLitEntry (opValue i)).len + lengthExtra (opValue i)))) := by
  have h := decode_of_canonicalEntry (s := loadFixed { State.reset with stream := bs }) (i := i)
    (e := fixedLitEntry (opValue i)) (t := (List.range 288).map fixedLitEntry)
  rw [hsp] at h
  exact h nofun buildTable_fixedLit (canonicalEntry_fixedLit hv) (fixedLitEntry_len_ne_zero _) hbits

/-- With the fixed distance table the code to look for is the row of R105. -/
theorem decode_fixedDist {i : Instr} {bs : BitStream} (hsp : opSpace i = .dSym) (hv : opValue i < 30)
    (hbits : codeBits 5 (opValue i) ++ fieldBits (distExtra (opValue i)) (opExtra i) <+: bs.remaining) :
    decode .dSym ((List.range 30).map fixedDistEntry) bs =
      .ok (.ok i) (bs.seek (bs.pos + (5 + distExtra (opValue i)))) := by
  have h := decode_of_canonicalEntry (s := loadFixed { State.reset with stream := bs }) (i := i)
    (e := fixedDistEntry (opValue i)) (t := (List.range 30).map fixedDistEntry)
  rw [hsp] at h
  exact h nofun buildTable_fixedDist (canonicalEntry_fixedDist hv) (Nat.succ_ne_zero 4) hbits

/-- Settles O43: each stream begins with the encoding of its instruction. -/
theorem decodeOfWrittenOutWords : Obligations.DecodeOfWrittenOutWords := by
  unfold Obligations.DecodeOfWrittenOutWords
  rw [buildTable_fixedLit, buildTable_fixedDist]
  refine ⟨?_, ?_, ?_, ?_, ?_⟩
  · exact decode_fixedLit (i := .lit 0x41) rfl (by decide) (by decide)
  · exact decode_fixedLit (i := .eob) rfl (by decide) (by decide)
  · exact decode_fixedLit (i := .len284 31) rfl (by decide) (by decide)
  · exact decode_fixedDist (i := .dist29 8191) rfl (by decide) (by decide)
  · exact decodeReadsBackEncode { State.reset with stream := ⟨[(0, 0x05)], 1, .eof, 0, 0⟩ } (.blkDynamic true) []
      (List.replicate 5 false) rfl rfl (by decide)

end Sys2Proof.Machine
end

section
/-! PROOFS. The statements about the dynamic header (43_dynamic_header.md): its counts, its code-length lengths, the
code-length symbols with their runs, and its completion. -/

namespace Sys2Proof.Machine

/-! ## Reads that end the step -/

/-- `ReadBits(n)` succeeds only where `n` bits are left, and takes them. -/
theorem BitStream.remaining_length_of_readBits {n v : Nat} {bs bs' : BitStream} (h : bs.readBits n = .ok v bs') :
    bs.remaining.length = n + bs'.remaining.length := by
  obtain ⟨-, rfl, hfits⟩ := readBits_ok h
  simp only [remaining, List.length_map, List.length_range, seek_len, seek_pos]
  omega

/-- A read that fails ends the step in `ERROR` with the end error of the source (R47, R218), whatever the step has
written before. -/
theorem readFailed_entersError {n : Nat} {bs bs' : BitStream} {k : ErrKind} (h : bs.readBits n = .raise k bs')
    (s : State) : EntersError (readFailed k bs' s) (endError bs.srcEnd) :=
  ⟨_, rfl, rfl, congrArg errorCode (BitStream.readBits_raise h).1⟩

/-! ## The counts -/

/-- The counts step on a stream that holds its three fields (R109). -/
theorem stepDynCounts_of_remaining {s : State} {a b c rest : List Bool} (ha : a.length = 5) (hb : b.length = 5)
    (hc : c.length = 4) (h : s.stream.remaining = a ++ b ++ c ++ rest) :
    stepDynCounts s = .next { s with
      stream := s.stream.seek (s.stream.pos + 14)
      hlit := BitVec.ofNat 5 (bitsValue a)
      hdist := BitVec.ofNat 5 (bitsValue b)
      hclen := BitVec.ofNat 4 (bitsValue c)
      clLen := Vector.replicate 19 0
      lens := Vector.replicate 320 0
      clIdx := 0
      lenIdx := 0
      phase := .dynClLen } := by
  rw [List.append_assoc, List.append_assoc] at h
  have hrest1 := BitStream.remaining_seek_append h
  have hrest2 := BitStream.remaining_seek_append hrest1
  have hread1 := BitStream.readBits_of_remaining h
  have hread2 := BitStream.readBits_of_remaining hrest1
  have hread3 := BitStream.readBits_of_remaining hrest2
  simp only [ha, hb, hc, BitStream.seek_pos, BitStream.seek_seek, Nat.add_assoc] at hread1 hread2 hread3
  simp only [stepDynCounts, hread1, hread2, hread3]

/-- The counts step on a stream that ends within its 14 bits: one of the three reads fails. -/
theorem stepDynCounts_of_short {s : State} (h : s.stream.remaining.length < 14) :
    EntersError (stepDynCounts s) (endError s.stream.srcEnd) := by
  unfold stepDynCounts
  cases h1 : s.stream.readBits 5 with
  | raise k bs1 => exact readFailed_entersError h1 s
  | ok hlit bs1 =>
    have hlen1 := BitStream.remaining_length_of_readBits h1
    have hend1 : bs1.srcEnd = s.stream.srcEnd := (BitStream.readBits_moved h1).source.2.2.1
    dsimp only
    cases h2 : bs1.readBits 5 with
    | raise k bs2 => exact hend1 ▸ readFailed_entersError h2 _
    | ok hdist bs2 =>
      have hlen2 := BitStream.remaining_length_of_readBits h2
      have hend2 : bs2.srcEnd = bs1.srcEnd := (BitStream.readBits_moved h2).source.2.2.1
      dsimp only
      cases h3 : bs2.readBits 4 with
      | raise k bs3 => exact hend1 ▸ hend2 ▸ readFailed_entersError h3 _
      | ok hclen bs3 =>
        have hlen3 := BitStream.remaining_length_of_readBits h3
        omega

/-- Settles O26: the three reads succeed on 14 bits, and one of them fails on fewer. -/
theorem dynamicCountsStep : Obligations.DynamicCountsStep := by
  intro s hp
  have hstep : step s = stepDynCounts s := by rw [step, hp]
  rw [hstep]
  exact ⟨fun a b c rest ha hb hc h => ⟨Vector.replicate 19 0, Vector.replicate 320 0, fun _ => mem_replicate_zero,
    fun _ => mem_replicate_zero, stepDynCounts_of_remaining ha hb hc h⟩, stepDynCounts_of_short⟩

/-! ## The code-length lengths -/

/-- A write of one entry of a code-length array leaves the others. -/
theorem setIfInBounds_getD {n w : Nat} (v : Vector (BitVec w) n) (i : Nat) (x : BitVec w) {j : Nat} (hj : j < n) :
    (v.setIfInBounds i x).toList.getD j 0 = if j = i then x else v.toList.getD j 0 := by
  rw [Vector.toList_setIfInBounds, List.getD_eq_getElem?_getD, List.getElem?_set]
  by_cases hij : i = j
  · rw [if_pos hij, if_pos hij.symm, if_pos (by rw [Vector.length_toList]; omega), Option.getD_some]
  · rw [if_neg hij, if_neg (Ne.symm hij), List.getD_eq_getElem?_getD]

/-- A code-length value step on a stream that holds its three bits (R111). -/
theorem stepDynClLen_of_remaining {s : State} {bits rest : List Bool} (hidx : s.clIdx.toNat < 19)
    (hbits : bits.length = 3) (h : s.stream.remaining = bits ++ rest) :
    stepDynClLen s = .next (endClLenStep
      (writeClLen (bitsValue bits) { s with stream := s.stream.seek (s.stream.pos + 3) })) := by
  have hread := BitStream.readBits_of_remaining h
  rw [hbits] at hread
  rw [stepDynClLen, if_pos (show s.clIdx.toNat < Config.clSize from hidx), hread]

/-- A code-length value step on a stream that ends within its three bits. -/
theorem stepDynClLen_of_short {s : State} (hidx : s.clIdx.toNat < 19) (h : s.stream.remaining.length < 3) :
    EntersError (stepDynClLen s) (endError s.stream.srcEnd) := by
  rw [stepDynClLen, if_pos (show s.clIdx.toNat < Config.clSize from hidx)]
  cases hread : s.stream.readBits 3 with
  | raise k bs => exact readFailed_entersError hread s
  | ok v bs =>
    have hlen := BitStream.remaining_length_of_readBits hread
    omega

/-- The index counts up without wrapping: the permutation has 19 entries, `cl_idx` 5 bits (R31). -/
theorem writeClLen_index {s : State} (h : s.clIdx.toNat < 19) (v : Nat) :
    (writeClLen v s).clIdx.toNat = s.clIdx.toNat + 1 := by
  have hidx : (writeClLen v s).clIdx = s.clIdx + 1 := rfl
  bv_omega

/-- Settles O27: the value is written at the permuted index, and the end of the step takes one of its three cases. -/
theorem codeLengthValueStep : Obligations.CodeLengthValueStep := by
  intro s hp hidx
  have hstep : step s = stepDynClLen s := by rw [step, hp]
  rw [hstep]
  refine ⟨fun b0 b1 b2 rest h => ?_, stepDynClLen_of_short hidx⟩
  rw [stepDynClLen_of_remaining (bits := [b0, b1, b2]) hidx rfl h]
  refine ⟨_, fun j hj => setIfInBounds_getD s.clLen _ _ hj, ?_⟩
  have hnext (v : Nat) (bs : BitStream) : (writeClLen v { s with stream := bs }).clIdx.toNat = s.clIdx.toNat + 1 :=
    writeClLen_index (s := { s with stream := bs }) hidx v
  rcases endClLenStep_cases (writeClLen (bitsValue [b0, b1, b2])
    { s with stream := s.stream.seek (s.stream.pos + 3) }) with ⟨hmore, he⟩ | ⟨hlast, hbuilt, he⟩ | ⟨hlast, hnone, he⟩
  · rw [hnext] at hmore
    rw [he]
    exact ⟨fun _ => rfl, fun hlast => absurd hlast hmore, fun hlast => absurd hlast hmore⟩
  · rw [hnext] at hlast
    rw [he]
    exact ⟨fun hmore => absurd hlast hmore, fun _ _ => rfl,
      fun _ hnone => absurd hnone (Option.isSome_iff_ne_none.mp hbuilt)⟩
  · rw [hnext] at hlast
    rw [he]
    exact ⟨fun hmore => absurd hlast hmore,
      fun _ hbuilt => absurd hnone (Option.isSome_iff_ne_none.mp hbuilt), fun _ _ => rfl⟩

/-! ## The code-length symbols -/

/-- A run that would pass `total` raises and writes nothing (R116). -/
theorem lensRun_of_lt {n : Nat} {v : CodeLen} {s : State} (h : total s < s.lenIdx.toNat + n) :
    lensRun n v s = raiseError .malformedDynamicHeader s := if_pos h

/-- A run that ends at or before `total` is appended (R113 to R115). -/
theorem lensRun_of_le {n : Nat} {v : CodeLen} {s : State} (h : s.lenIdx.toNat + n ≤ total s) :
    lensRun n v s = endLensStep (appendLens n v s) := if_neg (Nat.not_lt.mpr h)

/-- A run that ends at or before `total` writes exactly its entries, and completes the header when it reaches it. -/
theorem lensRun_writes {n : Nat} (v : CodeLen) {s : State} (h : s.lenIdx.toNat + n ≤ total s) :
    ∃ ls : Vector CodeLen 320,
      (∀ j < 320, ls.toList.getD j 0 =
        if s.lenIdx.toNat ≤ j ∧ j < s.lenIdx.toNat + n then v else s.lens.toList.getD j 0) ∧
      lensRun n v s =
        if s.lenIdx.toNat + n = total s then
          finishHeader { s with lens := ls, lenIdx := s.lenIdx + BitVec.ofNat 9 n }
        else { s with lens := ls, lenIdx := s.lenIdx + BitVec.ofNat 9 n } := by
  refine ⟨_, fun j _ => writeRun_getD v s.lens (h.trans (total_pos s).2) j, ?_⟩
  rw [lensRun_of_le h, endLensStep, appendLens_index h, appendLens_total]
  rfl

/-- A symbol 0 to 15 below `total` is a run of one entry (R112). -/
theorem exec_clLen_of_lt {s : State} (h : s.lenIdx.toNat < total s) (n : BitVec 4) :
    exec (.clLen n) s = .next (lensRun 1 n s) := by
  rw [lensRun_of_le h]
  exact if_pos h

/-- Symbol 16 with an entry to repeat is a run of that entry (R113). -/
theorem exec_clRep16_of_ne {s : State} (h : s.lenIdx ≠ 0) (x : BitVec 2) :
    exec (.clRep16 x) s = .next (lensRun (repeatCount x) (prevLen s) s) := if_neg h

/-- Settles O28: a run of one entry has one index. -/
theorem codeLengthSymbolAppendsItself : Obligations.CodeLengthSymbolAppendsItself := by
  intro n s h
  obtain ⟨ls, hls, hrun⟩ := lensRun_writes (n := 1) n h
  refine ⟨ls, fun j hj => (hls j hj).trans (if_congr (by omega) rfl rfl), ?_⟩
  rw [exec_clLen_of_lt h, hrun]
  rfl

/-- Settles O29: each symbol is a run of its count, written whole. -/
theorem repeatAndZeroRunsWriteTheirRun : Obligations.RepeatAndZeroRunsWriteTheirRun := by
  intro s
  refine ⟨fun x hprev h => ?_, fun x h => ?_, fun x h => ?_⟩
  · obtain ⟨ls, hls, hrun⟩ := lensRun_writes (prevLen s) h
    exact ⟨ls, hls, (exec_clRep16_of_ne hprev x).trans (congrArg Host.Outcome.next hrun)⟩
  · obtain ⟨ls, hls, hrun⟩ := lensRun_writes 0 h
    exact ⟨ls, hls, congrArg Host.Outcome.next hrun⟩
  · obtain ⟨ls, hls, hrun⟩ := lensRun_writes 0 h
    exact ⟨ls, hls, congrArg Host.Outcome.next hrun⟩

/-- Settles O30: symbol 16 has two ways to raise, 17 and 18 one. -/
theorem runsPastTheEndRaise : Obligations.RunsPastTheEndRaise := by
  intro s
  refine ⟨fun x h => ?_, fun x h => congrArg Host.Outcome.next (lensRun_of_lt h),
    fun x h => congrArg Host.Outcome.next (lensRun_of_lt h)⟩
  by_cases hprev : s.lenIdx = 0
  · exact if_pos hprev
  · exact (exec_clRep16_of_ne hprev x).trans (congrArg Host.Outcome.next (lensRun_of_lt (h.resolve_left hprev)))

/-! ## The completion of the header -/

/-- The first `n` entries of a code-length array; past them it reads 0. -/
theorem take_getD (l : List CodeLen) (n i : Nat) : (l.take n).getD i 0 = if i < n then l.getD i 0 else 0 := by
  rw [List.getD_eq_getElem?_getD, List.getElem?_take, List.getD_eq_getElem?_getD]
  split <;> rfl

/-- Settles O31: `splitLens` loads the two parts, and completion takes one of its two cases. -/
theorem headerCompletionSplitsAndBuilds : Obligations.HeaderCompletionSplitsAndBuilds := by
  intro s
  refine ⟨(splitLens s).litLens, (splitLens s).distLens, fun i hi => ?_, fun d hd => ?_, ?_⟩
  · rw [splitLens_litLens, padLens_getD _ hi, take_getD]
    rfl
  · rw [splitLens_distLens, padLens_getD _ hd, take_getD, List.getD_eq_getElem?_getD (l := List.drop _ _),
      List.getElem?_drop, ← List.getD_eq_getElem?_getD]
    rfl
  · rcases finishHeader_cases s with ⟨hlit, hdist, he⟩ | ⟨hnone, he⟩ <;> rw [he]
    · exact ⟨fun _ => rfl, fun h => h.elim (fun h => absurd hlit (Bool.eq_false_iff.mp h))
        fun h => absurd hdist (Bool.eq_false_iff.mp h)⟩
    · exact ⟨fun h => hnone.elim (fun hlit => absurd hlit (Option.isSome_iff_ne_none.mp h.1))
        fun hdist => absurd hdist (Option.isSome_iff_ne_none.mp h.2), fun _ => rfl⟩

end Sys2Proof.Machine
end

section
/-! PROOFS. The statements about the symbol decoder (44_symbol_decoder.md): literals, the end of a block, the invalid
symbols, length and distance symbols, and the copy of a back-reference, one byte and whole. -/

namespace Sys2Proof.Machine

/-! ## The copy of a back-reference -/

/-- `s` after a copy step that has room (R190). -/
def copyByte (s : State) : State :=
  { s with
    out := s.out.write s.outLen (s.out.read (s.outLen - s.matchDist.toNat))
    outLen := s.outLen + 1
    copyRem := s.copyRem - 1
    phase := if s.copyRem = 1 then .sym else .copy }

/-- A copy step whose source byte exists appends it, or raises at `OUT_CAP` (R190, R50). -/
theorem step_copy_cases {s : State} (hp : s.phase = .copy) (hrem : s.copyRem ≠ 0) (hpos : 1 ≤ s.matchDist.toNat)
    (hout : s.matchDist.toNat ≤ s.outLen) :
    (s.outCap = some s.outLen ∧ step s = .next (raiseError .outputOverflow s)) ∨
    (s.outCap ≠ some s.outLen ∧ step s = .next (copyByte s)) := by
  have hstep : step s = stepCopy s := by rw [step, hp]
  rw [hstep]
  rcases stepCopy_cases s with ⟨h0, -⟩ | ⟨-, h0 | hlt, -⟩ | ⟨-, -, -, h⟩
  · exact absurd h0 hrem
  · rw [h0] at hpos
    exact absurd hpos (by decide)
  · exact absurd hout (Nat.not_le.mpr hlt)
  · exact h

/-- Below `OUT_CAP` a copy step appends its byte. -/
theorem step_copy_of_room {s : State} (hp : s.phase = .copy) (hrem : s.copyRem ≠ 0) (hpos : 1 ≤ s.matchDist.toNat)
    (hout : s.matchDist.toNat ≤ s.outLen) (hroom : s.outCap ≠ some s.outLen) : step s = .next (copyByte s) :=
  (step_copy_cases hp hrem hpos hout).resolve_left (fun h => hroom h.1) |>.2

/-- Settles O36: the byte is read before it is written at `out_len`. -/
theorem copyStepRepeatsAnEarlierByte : Obligations.CopyStepRepeatsAnEarlierByte := by
  intro s hp hrem hpos hout hwf
  rcases step_copy_cases hp hrem hpos hout with ⟨hfull, h⟩ | ⟨hroom, h⟩
  · exact ⟨fun hroom => absurd hfull hroom, fun _ => h⟩
  · exact ⟨fun _ => ⟨_, h, Memory.read_write hwf _ _⟩, fun hfull => absurd hfull hroom⟩

/-- `m` holds `n` bytes from address `start` on, each equal to the byte `d` before it in `m` itself, and below `start`
what `m₀` holds (R191). -/
def RepeatsFrom (d start n : Nat) (m₀ m : Memory) : Prop :=
  (∀ a < start, m.read a = m₀.read a) ∧ ∀ i < n, m.read (start + i) = m.read (start + i - d)

theorem RepeatsFrom.zero (d start : Nat) (m : Memory) : RepeatsFrom d start 0 m m := ⟨fun _ _ => rfl, nofun⟩

/-- One byte copied and then `n` more are `n + 1` bytes copied: the later ones leave the first byte and its source. -/
theorem RepeatsFrom.of_write {d start n : Nat} {m₀ m : Memory} (hwf : m₀.wf = true) (hpos : 1 ≤ d) (hd : d ≤ start)
    (h : RepeatsFrom d (start + 1) n (m₀.write start (m₀.read (start - d))) m) :
    RepeatsFrom d start (n + 1) m₀ m := by
  obtain ⟨hbelow, hrest⟩ := h
  have hkeep : ∀ a < start, m.read a = m₀.read a := fun a ha => by
    rw [hbelow a (by omega), Memory.read_write hwf, if_neg ha.ne]
  have hfirst : m.read start = m₀.read (start - d) := by
    rw [hbelow start (by omega), Memory.read_write hwf, if_pos rfl]
  refine ⟨hkeep, fun i hi => ?_⟩
  cases i with
  | zero => exact hfirst.trans (hkeep (start - d) (by omega)).symm
  | succ j =>
    have hj := hrest j (by omega)
    rwa [Nat.add_right_comm] at hj

theorem runSteps_succ_of_step {s s' : State} (h : step s = .next s') (n : Nat) :
    runSteps (n + 1) s = runSteps n s' := by rw [runSteps, h]

/-- The last copy step returns to `SYM`; every earlier one leaves a shorter copy. -/
theorem runSteps_copy (n : Nat) {s : State} (hp : s.phase = .copy) (hrem : s.copyRem.toNat = n + 1)
    (hpos : 1 ≤ s.matchDist.toNat) (hout : s.matchDist.toNat ≤ s.outLen) (hwf : s.out.wf = true)
    (hcap : ∀ c, s.outCap = some c → s.outLen + (n + 1) ≤ c) :
    ∃ m, runSteps (n + 1) s = .next { s with
        out := m, outLen := s.outLen + (n + 1), copyRem := 0, phase := .sym } ∧
      RepeatsFrom s.matchDist.toNat s.outLen (n + 1) s.out m := by
  induction n generalizing s with
  | zero =>
    have hone : s.copyRem = 1 := BitVec.eq_of_toNat_eq hrem
    have hstep := step_copy_of_room hp (by rw [hone]; decide) hpos hout fun h => absurd (hcap _ h) (by omega)
    refine ⟨_, ?_, .of_write hwf hpos hout (.zero _ _ _)⟩
    rw [runSteps_succ_of_step hstep, runSteps, copyByte, hone]
    rfl
  | succ n ih =>
    have hzero : s.copyRem ≠ 0 := by bv_omega
    have hmore : s.copyRem ≠ 1 := by bv_omega
    have hstep := step_copy_of_room hp hzero hpos hout fun h => absurd (hcap _ h) (by omega)
    have hlen : (copyByte s).outLen + (n + 1) = s.outLen + (n + 1 + 1) := Nat.add_right_comm s.outLen 1 (n + 1)
    obtain ⟨m, hrun, hm⟩ := ih (s := copyByte s) (if_neg hmore)
      (show (s.copyRem - 1).toNat = n + 1 by bv_omega) hpos (Nat.le_succ_of_le hout) (Memory.write_wf hwf _ _)
      (fun c h => hlen.trans_le (hcap c h))
    refine ⟨m, ?_, hm.of_write hwf hpos hout⟩
    rw [runSteps_succ_of_step hstep, hrun, hlen]
    rfl

/-- Settles O37, by induction on the bytes still to copy. -/
theorem backReferenceIsAByteByByteCopy : Obligations.BackReferenceIsAByteByByteCopy := by
  intro s hp hrem hpos hout hwf hcap
  obtain ⟨n, hn⟩ := Nat.exists_eq_succ_of_ne_zero fun h0 => hrem (BitVec.eq_of_toNat_eq h0)
  rw [hn] at hcap ⊢
  exact runSteps_copy n hp hn hpos hout hwf hcap

/-! ## Literals -/

/-- Settles O32: the byte is written at `out_len` and nowhere else. -/
theorem literalAppendsItsByte : Obligations.LiteralAppendsItsByte := by
  intro b s hwf
  rcases execLit_cases b s with ⟨hfull, h⟩ | ⟨hroom, h⟩
  · exact ⟨fun hroom => absurd hfull hroom, fun _ => h⟩
  · exact ⟨fun _ => ⟨_, h, Memory.read_write hwf _ _⟩, fun hfull => absurd hfull hroom⟩

/-! ## The end of a block and the invalid symbols -/

theorem stepInstr_of_decode {sp : Space} {s : State} {t : CodeTable} {i : Instr} {bs : BitStream}
    (ht : spaceTable sp s = some t) (hd : decode sp t s.stream = .ok (.ok i) bs) :
    stepInstr sp s = exec i { s with stream := bs } :=
  stepInstr_of_fetch (by rw [fetch, ht]; dsimp only; rw [hd])

/-- A symbol without an extra-bit field is run where its code ends (R74). -/
theorem stepInstr_of_no_extra {sp : Space} {s : State} {t : CodeTable} {v : Nat} {i : Instr} {bs : BitStream}
    (ht : spaceTable sp s = some t) (hv : readValue sp t s.stream = .ok v bs) (hw : extraWidth sp v = 0)
    (hi : decodeElement sp v 0 = .ok i) : stepInstr sp s = exec i { s with stream := bs } := by
  refine stepInstr_of_decode ht ?_
  rw [decode, hv]
  dsimp only
  rw [hw, BitStream.readBits]
  dsimp only
  rw [hi]

/-- Settles O33: none of the four invalid symbols has an extra-bit field, so its step ends after its code. -/
theorem endOfBlockAndInvalidSymbols : Obligations.EndOfBlockAndInvalidSymbols := by
  intro s
  refine ⟨rfl, ?_, fun t bs hp ht hv => ?_, fun t bs hp ht hv => ?_⟩
  · simp only [List.forall_mem_cons]
    exact ⟨rfl, rfl, rfl, rfl, nofun⟩
  · have hstep : step s = stepInstr .llSym s := by rw [step, hp]
    rw [hstep]
    rcases hv with hv | hv
    · exact stepInstr_of_no_extra (sp := .llSym) (i := .inv286) ht hv rfl rfl
    · exact stepInstr_of_no_extra (sp := .llSym) (i := .inv287) ht hv rfl rfl
  · have hstep : step s = stepInstr .dSym s := by rw [step, hp]
    rw [hstep]
    rcases hv with hv | hv
    · exact stepInstr_of_no_extra (sp := .dSym) (i := .invD30) ht hv rfl rfl
    · exact stepInstr_of_no_extra (sp := .dSym) (i := .invD31) ht hv rfl rfl

/-! ## Length symbols -/

/-- The instructions of symbols 257 to 285 run `lengthSymbol` on their symbol and extra field. -/
theorem exec_eq_lengthSymbol {i : Instr} (hsp : opSpace i = .llSym) (hlo : 257 ≤ opValue i) (hhi : opValue i ≤ 285)
    (s : State) : exec i s = .next (lengthSymbol (opValue i) (opExtra i) s) := by
  cases i <;> simp only [opSpace, reduceCtorEq] at hsp
  case lit b => exact absurd hlo (Nat.not_le.mpr (b.isLt.trans (by decide)))
  case eob => exact absurd hlo (by decide)
  case inv286 | inv287 => exact absurd hhi (by decide)
  all_goals rfl

/-- Every match length fits `match_len` (R35, R124). -/
theorem matchLength_lt {v x : Nat} (hlo : 257 ≤ v) (hhi : v ≤ 285) (hx : x < 2 ^ lengthExtra v) :
    matchLength v x < 2 ^ 9 := by
  have hrow : ∀ k < 29, lengthBase (257 + k) + 2 ^ lengthExtra (257 + k) ≤ 2 ^ 9 := by decide
  obtain ⟨k, rfl⟩ := Nat.exists_eq_add_of_le hlo
  exact (Nat.add_lt_add_left hx _).trans_le (hrow k (by omega))

theorem exec_entersDist {i : Instr} {n : Nat} (hsp : opSpace i = .llSym) (hlo : 257 ≤ opValue i)
    (hhi : opValue i ≤ 285) (hn : matchLength (opValue i) (opExtra i) = n) (s : State) :
    EntersDist (exec i s) s n := by
  have hextra := (Laws.RoundTrip.all i).2
  rw [hsp] at hextra
  subst hn
  exact ⟨_, (BitVec.toNat_ofNat _ _).trans (Nat.mod_eq_of_lt (matchLength_lt hlo hhi hextra)),
    exec_eq_lengthSymbol hsp hlo hhi s⟩

/-- Settles O34: each value written out is the table's base of the symbol and its extra field. -/
theorem lengthSymbolsSetTheMatchLength : Obligations.LengthSymbolsSetTheMatchLength := by
  intro s
  and_intros
  all_goals
    intros
    exact exec_entersDist rfl (by simp [opValue]) (by simp [opValue])
      (by simp [matchLength, lengthBase, lengthRows, opValue, opExtra]) s

/-! ## Distance symbols -/

/-- The instructions of symbols 0 to 29 run `distanceSymbol` on their symbol and extra field. -/
theorem exec_eq_distanceSymbol {i : Instr} (hsp : opSpace i = .dSym) (hv : opValue i ≤ 29) (s : State) :
    exec i s = .next (distanceSymbol (opValue i) (opExtra i) s) := by
  cases i <;> simp only [opSpace, reduceCtorEq] at hsp
  case invD30 | invD31 => exact absurd hv (by decide)
  all_goals rfl

/-- Every match distance fits `match_dist` (R35, R157). -/
theorem matchDistance_lt {v x : Nat} (hv : v ≤ 29) (hx : x < 2 ^ distExtra v) : matchDistance v x < 2 ^ 16 := by
  have hrow : ∀ v ≤ 29, distBase v + 2 ^ distExtra v ≤ 2 ^ 16 := by decide
  exact (Nat.add_lt_add_left hx _).trans_le (hrow v hv)

theorem exec_entersCopy {i : Instr} {n : Nat} (hsp : opSpace i = .dSym) (hv : opValue i ≤ 29)
    (hn : matchDistance (opValue i) (opExtra i) = n) (s : State) : EntersCopy (exec i s) s n := by
  have hextra := (Laws.RoundTrip.all i).2
  rw [hsp] at hextra
  subst hn
  rw [exec_eq_distanceSymbol hsp hv]
  refine ⟨_, (BitVec.toNat_ofNat _ _).trans (Nat.mod_eq_of_lt (matchDistance_lt hv hextra)), ?_⟩
  rcases distanceSymbol_cases (opValue i) (opExtra i) s with ⟨hlt, h⟩ | ⟨hle, h⟩ <;> rw [h]
  · exact ⟨fun hle => absurd hlt (Nat.not_lt.mpr hle), fun _ => rfl⟩
  · exact ⟨fun _ => rfl, fun hlt => absurd hle (Nat.not_le.mpr hlt)⟩

/-- Settles O35: each value written out is the table's base of the symbol and its extra field. -/
theorem distanceSymbolsSetTheMatchDistance : Obligations.DistanceSymbolsSetTheMatchDistance := by
  intro s
  and_intros
  all_goals
    intros
    exact exec_entersCopy rfl (by simp [opValue]) (by simp [matchDistance, distBase, distRows, opValue, opExtra]) s

end Sys2Proof.Machine
end

section
/-! SUPPORT. What a step of a running session leads to (45_block_dispatcher.md R193, R194), said once per phase: the
phases it can end in and what holds on entry to each. -/

namespace Sys2Proof.Machine

/-! ## The invariant, phase by phase -/

/-- The tables of the current block are built, and it is a Fixed or a Dynamic one (R28, R33). -/
def blockTables (s : State) : Prop :=
  (s.btype = 1 ∨ s.btype = 2) ∧ (litTable s).isSome = true ∧ (distTable s).isSome = true

/-- The clauses of `Inv` that speak of one phase each, by the phase they speak of. -/
def phaseClauses (s : State) : Prop :=
  match s.phase with
  | .idle => True
  | .error => s.errCode ≠ 0 ∧ s.errCode.toNat ≤ 9
  | .hdr | .checkFinal | .done => s.btype ≠ 3
  | .storedLen => s.btype = 0
  | .storedCopy => s.btype = 0 ∧ s.storedRem ≠ 0 ∧ s.stream.bitOff = 0
  | .dynCounts => s.btype = 2
  | .dynClLen => s.btype = 2 ∧ s.clIdx.toNat < clCount s ∧ s.lenIdx = 0
  | .dynLens => s.btype = 2 ∧ s.lenIdx.toNat < total s ∧ (clTable s).isSome = true
  | .sym => blockTables s
  | .dist => blockTables s ∧ 3 ≤ s.matchLen.toNat ∧ s.matchLen.toNat ≤ 258
  | .copy => blockTables s ∧ (3 ≤ s.matchLen.toNat ∧ s.matchLen.toNat ≤ 258) ∧
      1 ≤ s.matchDist.toNat ∧ s.matchDist.toNat ≤ Config.window ∧ s.matchDist.toNat ≤ s.outLen ∧
      1 ≤ s.copyRem.toNat ∧ s.copyRem.toNat ≤ s.matchLen.toNat

theorem Inv.clauses {s : State} (h : Inv s) : phaseClauses s := by
  have hblock := h.blockType
  unfold blockTypeAgrees at hblock
  unfold phaseClauses
  cases hp : s.phase <;> rw [hp] at hblock
  case idle => trivial
  case error => exact ⟨h.errorIff.mp hp, h.errorLegal⟩
  case storedCopy => exact ⟨hblock, h.storedCopying hp⟩
  case dynClLen => exact ⟨hblock, h.clReading hp⟩
  case dynLens => exact ⟨hblock, h.lensReading hp⟩
  case sym => exact ⟨hblock, h.tablesBuilt (.inl hp)⟩
  case dist => exact ⟨⟨hblock, h.tablesBuilt (.inr (.inl hp))⟩, h.matchLength (.inl hp)⟩
  case copy => exact ⟨⟨hblock, h.tablesBuilt (.inr (.inr hp))⟩, h.matchLength (.inr hp), h.copying hp⟩
  all_goals exact hblock

/-- The invariant from the clauses of the phase and those every phase shares. `at_phase` puts a phase's name into
`phaseClauses`, which then reads as that phase's clause. -/
theorem Inv.of_phaseClauses {s : State} (hin : s.stream.bytes.wf = true ∧ s.stream.bytes.below s.stream.len = true)
    (hout : s.out.wf = true ∧ s.out.below s.outLen = true) (herr : s.phase ≠ .error → s.errCode = 0)
    (hzero : s.phase ≠ .done → s.inConsumed = 0)
    (hdone : s.phase = .done → s.inConsumed = s.stream.inPos ∧ s.stream.bitOff = 0)
    (hcursor : busy s = true → s.stream.pos ≤ 8 * s.stream.len)
    (hcap : busy s = true → ∀ c, s.outCap = some c → s.outLen ≤ c) (hp : phaseClauses s) : Inv s := by
  have at_phase {p : Phase} (h : s.phase = p) : phaseClauses { s with phase := p } := h ▸ hp
  have hcode : s.phase = .error → s.errCode ≠ 0 ∧ s.errCode.toNat ≤ 9 := at_phase
  refine ⟨hin.1, hin.2, hout.1, hout.2, ⟨fun h => (hcode h).1, fun h => by_contra fun hne => h (herr hne)⟩,
    ?_, hzero, hdone, hcursor, hcap, ?_, fun h => (at_phase h).2, fun h => (at_phase h).2, fun h => (at_phase h).2,
    ?_, ?_, fun h => (at_phase h).2.2⟩
  · by_cases h : s.phase = .error
    · exact (hcode h).2
    · rw [herr h]; decide
  · unfold blockTypeAgrees
    cases h : s.phase
    case idle | error => trivial
    case storedCopy | dynClLen | dynLens | sym => exact (at_phase h).1
    case dist | copy => exact (at_phase h).1.1
    all_goals exact at_phase h
  · rintro (h | h | h)
    · exact (at_phase h).2
    · exact (at_phase h).1.2
    · exact (at_phase h).1.2
  · rintro (h | h)
    · exact (at_phase h).2
    · exact (at_phase h).2.1

/-! ## The phases a step can end in -/

/-- The phases a step of phase `p` can end in (R193). -/
def successors (p : Phase) : List Phase :=
  match p with
  | .idle => [.idle]
  | .hdr => [.storedLen, .dynCounts, .sym, .error]
  | .storedLen => [.storedCopy, .checkFinal, .error]
  | .storedCopy => [.storedCopy, .checkFinal, .error]
  | .dynCounts => [.dynClLen, .error]
  | .dynClLen => [.dynClLen, .dynLens, .error]
  | .dynLens => [.dynLens, .sym, .error]
  | .sym => [.sym, .dist, .checkFinal, .error]
  | .dist => [.copy, .error]
  | .copy => [.copy, .sym, .error]
  | .checkFinal => [.hdr, .done]
  | .done => [.done]
  | .error => [.error]

/-- Where a step of phase `p` from `s` can land. -/
structure Lands (p : Phase) (s t : State) : Prop where
  /-- The next phase is one the rule of `p` names. -/
  phase : t.phase ∈ successors p
  /-- The clauses of the next phase hold. -/
  clauses : phaseClauses t
  /-- A byte is appended only below `OUT_CAP` (R50). -/
  room : t.outLen = s.outLen ∨ s.outCap ≠ some s.outLen

/-- Landing in phase `q`, from what its clauses say. -/
theorem Lands.enter {p : Phase} {s t : State} (q : Phase) (hq : q ∈ successors p) (ht : t.phase = q)
    (hc : phaseClauses { t with phase := q }) (hroom : t.outLen = s.outLen ∨ s.outCap ≠ some s.outLen) :
    Lands p s t := by
  subst ht
  exact ⟨hq, hc, hroom⟩

theorem errorCode_legal (k : ErrKind) : errorCode k ≠ 0 ∧ (errorCode k).toNat ≤ 9 := by cases k <;> decide

/-- Raising an error lands in `ERROR` with a legal code (R218). -/
theorem Lands.raise {p : Phase} {s t : State} (k : ErrKind) (hp : .error ∈ successors p) (hout : t.outLen = s.outLen) :
    Lands p s (raiseError k t) := .enter .error hp rfl (errorCode_legal k) (.inl hout)

/-! ## Instructions -/

theorem exec_header_lands {i : Instr} {s t : State} (hsp : opSpace i = .hdr) (h : exec i s = .next t) :
    Lands .hdr s t := by
  cases i <;> simp only [opSpace, reduceCtorEq] at hsp <;> cases h
  case blkStored f => exact .enter .storedLen (by decide) rfl rfl (.inl rfl)
  case blkDynamic f => exact .enter .dynCounts (by decide) rfl rfl (.inl rfl)
  case blkFixed f =>
    exact .enter .sym (by decide) rfl ⟨.inl rfl, Option.isSome_of_eq_some buildTable_fixedLit,
      Option.isSome_of_eq_some buildTable_fixedDist⟩ (.inl rfl)
  case blkReserved f => exact .raise _ (by decide) rfl

section
variable {s : State} (hp : s.phase = .dynLens) (hbtype : s.btype = 2) (htable : (clTable s).isSome = true)
include hp hbtype htable

/-- The end of a code-length symbol's step: another symbol, the first symbol of the block, or an error (R112, R118). -/
theorem endLensStep_appendLens_lands {n : Nat} (hn : s.lenIdx.toNat + n ≤ total s) (v : CodeLen) :
    Lands .dynLens s (endLensStep (appendLens n v s)) := by
  have hidx := appendLens_index (v := v) hn
  unfold endLensStep
  split
  case isTrue =>
    rcases finishHeader_cases (appendLens n v s) with ⟨hlit, hdist, h⟩ | ⟨-, h⟩ <;> rw [h]
    · exact .enter .sym (by decide) rfl ⟨.inr hbtype, hlit, hdist⟩ (.inl rfl)
    · exact .raise _ (by decide) rfl
  case isFalse hne =>
    have hmore : (appendLens n v s).lenIdx.toNat < total (appendLens n v s) :=
      Nat.lt_of_le_of_ne (hidx.trans_le hn) hne
    exact .enter .dynLens (by decide) hp ⟨hbtype, hmore, htable⟩ (.inl rfl)

theorem lensRun_lands (n : Nat) (v : CodeLen) : Lands .dynLens s (lensRun n v s) := by
  rcases lensRun_cases n v s with ⟨-, h⟩ | ⟨hn, h⟩ <;> rw [h]
  · exact .raise _ (by decide) rfl
  · exact endLensStep_appendLens_lands hp hbtype htable hn v

theorem exec_codeLength_lands {i : Instr} {t : State} (hsp : opSpace i = .clSym) (hidx : s.lenIdx.toNat < total s)
    (h : exec i s = .next t) : Lands .dynLens s t := by
  rcases exec_codeLength_cases hsp s with ⟨n, he⟩ | ⟨n, v, he⟩ | he | he <;> rw [he] at h <;> cases h
  · exact endLensStep_appendLens_lands hp hbtype htable hidx n
  · exact lensRun_lands hp hbtype htable n v
  · exact .raise _ (by decide) rfl

end

/-- The block of a symbol is not of the reserved type. -/
theorem blockTables.btype_ne {s : State} (h : blockTables s) : s.btype ≠ 3 := by
  rcases h.1 with h1 | h2
  · rw [h1]; decide
  · rw [h2]; decide

/-- The literal/length instructions by symbol (R78): a length instruction has a symbol from 257 to 285. -/
theorem literalLength_kinds {i : Instr} (hsp : opSpace i = .llSym) :
    (∃ b, i = .lit b) ∨ i = .eob ∨ (i = .inv286 ∨ i = .inv287) ∨ 257 ≤ opValue i ∧ opValue i ≤ 285 := by
  cases i <;> simp only [opSpace, reduceCtorEq] at hsp
  case lit b => exact .inl ⟨b, rfl⟩
  case eob => exact .inr (.inl rfl)
  case inv286 => exact .inr (.inr (.inl (.inl rfl)))
  case inv287 => exact .inr (.inr (.inl (.inr rfl)))
  all_goals exact .inr (.inr (.inr (by simp [opValue])))

/-- A match is 3 to 258 bytes long (R35, R124). -/
theorem matchLength_bounds {v x : Nat} (hlo : 257 ≤ v) (hhi : v ≤ 285) (hx : x < 2 ^ lengthExtra v) :
    3 ≤ matchLength v x ∧ matchLength v x ≤ 258 := by
  have hrow : ∀ k < 29, 3 ≤ lengthBase (257 + k) ∧ lengthBase (257 + k) + 2 ^ lengthExtra (257 + k) ≤ 259 := by decide
  obtain ⟨k, rfl⟩ := Nat.exists_eq_add_of_le hlo
  obtain ⟨hmin, hmax⟩ := hrow k (by omega)
  unfold matchLength
  omega

theorem exec_literalLength_lands {i : Instr} {s t : State} (hsp : opSpace i = .llSym) (hp : s.phase = .sym)
    (hblock : blockTables s) (h : exec i s = .next t) : Lands .sym s t := by
  rcases literalLength_kinds hsp with ⟨b, rfl⟩ | rfl | hinv | ⟨hlo, hhi⟩
  · rcases execLit_cases b s with ⟨-, he⟩ | ⟨hroom, he⟩ <;> rw [exec, he] at h <;> cases h
    · exact .raise _ (by decide) rfl
    · exact .enter .sym (by decide) hp hblock (.inr hroom)
  · cases h
    exact .enter .checkFinal (by decide) rfl hblock.btype_ne (.inl rfl)
  · rcases hinv with rfl | rfl <;> cases h <;> exact .raise _ (by decide) rfl
  · obtain ⟨v, hv, he⟩ := exec_entersDist hsp hlo hhi rfl s
    have hextra := (Laws.RoundTrip.all i).2
    rw [hsp] at hextra
    rw [he] at h
    cases h
    exact .enter .dist (by decide) rfl ⟨hblock, hv ▸ matchLength_bounds hlo hhi hextra⟩ (.inl rfl)

/-- A distance instruction has a symbol up to 29 or is invalid (R78). -/
theorem distance_kinds {i : Instr} (hsp : opSpace i = .dSym) :
    (i = .invD30 ∨ i = .invD31) ∨ opValue i ≤ 29 := by
  cases i <;> simp only [opSpace, reduceCtorEq] at hsp
  case invD30 => exact .inl (.inl rfl)
  case invD31 => exact .inl (.inr rfl)
  all_goals exact .inr (by simp [opValue])

/-- A distance lies between 1 and the window (R11, R157). -/
theorem matchDistance_bounds {v x : Nat} (hv : v ≤ 29) (hx : x < 2 ^ distExtra v) :
    1 ≤ matchDistance v x ∧ matchDistance v x ≤ Config.window := by
  have hrow : ∀ v ≤ 29, 1 ≤ distBase v ∧ distBase v + 2 ^ distExtra v ≤ Config.window + 1 := by decide
  obtain ⟨hmin, hmax⟩ := hrow v hv
  unfold matchDistance
  omega

theorem exec_distance_lands {i : Instr} {s t : State} (hsp : opSpace i = .dSym) (hblock : blockTables s)
    (hlen : 3 ≤ s.matchLen.toNat ∧ s.matchLen.toNat ≤ 258) (h : exec i s = .next t) : Lands .dist s t := by
  rcases distance_kinds hsp with hinv | hv
  · rcases hinv with rfl | rfl <;> cases h <;> exact .raise _ (by decide) rfl
  · obtain ⟨d, hd, hnear, hfar⟩ := exec_entersCopy hsp hv rfl s
    have hextra := (Laws.RoundTrip.all i).2
    rw [hsp] at hextra
    rcases Nat.lt_or_ge s.outLen (matchDistance (opValue i) (opExtra i)) with hlt | hle
    · rw [hfar hlt] at h
      cases h
      exact .enter .error (by decide) rfl (errorCode_legal .invalidBackReference) (.inl rfl)
    · rw [hnear hle] at h
      cases h
      obtain ⟨hpos, hwindow⟩ := matchDistance_bounds hv hextra
      rw [← hd] at hpos hwindow hle
      exact .enter .copy (by decide) rfl
        ⟨hblock, hlen, hpos, hwindow, hle, Nat.one_le_of_lt hlen.1, le_rfl⟩ (.inl rfl)

/-- A step of an instruction phase lands where its instruction lands from the state past it. -/
theorem stepInstr_lands {sp : Space} {s t : State}
    (hexec : ∀ i bs, opSpace i = sp → exec i { s with stream := bs } = .next t →
      Lands (spacePhase sp) { s with stream := bs } t)
    (h : stepInstr sp s = .next t) : Lands (spacePhase sp) s t := by
  rcases stepInstr_cases sp s with ⟨-, he⟩ | ⟨i, bs, he, hsp, -⟩ | ⟨k, bs, f, he, -⟩ <;> rw [he] at h
  · cases h
  · obtain ⟨hphase, hc, hroom⟩ := hexec i bs hsp h
    exact ⟨hphase, hc, hroom⟩
  · cases h
    exact .raise _ (by cases sp <;> decide) rfl

/-! ## Steps, phase by phase -/

/-- Past a whole number of bytes from a byte boundary the cursor is aligned. -/
theorem BitStream.seek_bitOff_of_mod {p : Nat} (h : p % 8 = 0) (bs : BitStream) : (bs.seek p).bitOff = 0 := by
  rw [seek, h]
  rfl

theorem stepStoredLen_lands {s t : State} (hbtype : s.btype = 0) (h : stepStoredLen s = .next t) :
    Lands .storedLen s t := by
  rcases stepStoredLen_cases s with ⟨k, bs, he, -⟩ | ⟨len, hlen, he, -⟩ <;> rw [he] at h <;> cases h
  · exact .raise _ (by decide) rfl
  · by_cases h0 : len = 0
    · exact .enter .checkFinal (by decide) (if_pos h0) (hbtype ▸ by decide : s.btype ≠ 3) (.inl rfl)
    · have hrem : BitVec.ofNat 16 len ≠ 0 := by bv_omega
      have haligned : (s.stream.seek (s.stream.align.pos + 32)).bitOff = 0 :=
        BitStream.seek_bitOff_of_mod (by rw [BitStream.align_eq_seek, BitStream.seek_pos]; omega) _
      exact .enter .storedCopy (by decide) (if_neg h0) ⟨hbtype, hrem, haligned⟩ (.inl rfl)

theorem stepStoredCopy_lands {s t : State} (hbtype : s.btype = 0) (hoff : s.stream.bitOff = 0)
    (h : stepStoredCopy s = .next t) : Lands .storedCopy s t := by
  rcases stepStoredCopy_cases s with ⟨-, he⟩ | ⟨k, bs, -, he, -⟩ | ⟨b, -, hroom, he, -⟩ <;> rw [he] at h <;> cases h
  · exact .raise _ (by decide) rfl
  · by_cases h1 : s.storedRem = 1
    · exact .enter .checkFinal (by decide) (if_pos h1) (hbtype ▸ by decide : s.btype ≠ 3) (.inr hroom)
    · have hrem : s.storedRem - 1 ≠ 0 := by bv_omega
      have haligned : (s.stream.seek (s.stream.pos + 8)).bitOff = 0 :=
        BitStream.seek_bitOff_of_mod (by rw [Nat.add_mod_right, BitStream.pos_mod, hoff]; rfl) _
      exact .enter .storedCopy (by decide) (if_neg h1) ⟨hbtype, hrem, haligned⟩ (.inr hroom)

theorem stepDynCounts_lands {s t : State} (hbtype : s.btype = 2) (h : stepDynCounts s = .next t) :
    Lands .dynCounts s t := by
  rcases stepDynCounts_cases s with ⟨hl, hd, bs, he, -⟩ | ⟨hl, hd, hcl, he, -⟩ <;> rw [he] at h <;> cases h
  · exact .raise _ (by decide) rfl
  · exact .enter .dynClLen (by decide) rfl ⟨hbtype, Nat.succ_pos _, rfl⟩ (.inl rfl)

/-- The end of a code-length value's step: another value, the first code-length symbol, or an error (R111). -/
theorem endClLenStep_lands {s : State} (hp : s.phase = .dynClLen) (hbtype : s.btype = 2)
    (hidx : s.clIdx.toNat ≤ clCount s) (hlen : s.lenIdx = 0) : Lands .dynClLen s (endClLenStep s) := by
  rcases endClLenStep_cases s with ⟨hmore, he⟩ | ⟨-, hbuilt, he⟩ | ⟨-, -, he⟩ <;> rw [he]
  · exact .enter .dynClLen (by decide) hp ⟨hbtype, Nat.lt_of_le_of_ne hidx hmore, hlen⟩ (.inl rfl)
  · have hstart : s.lenIdx.toNat < total s := by rw [hlen]; exact Nat.lt_of_lt_of_le (by decide) (total_pos s).1
    exact .enter .dynLens (by decide) rfl ⟨hbtype, hstart, hbuilt⟩ (.inl rfl)
  · exact .raise _ (by decide) rfl

theorem stepDynClLen_lands {s t : State} (hp : s.phase = .dynClLen) (hbtype : s.btype = 2)
    (hidx : s.clIdx.toNat < clCount s) (hlen : s.lenIdx = 0) (h : stepDynClLen s = .next t) :
    Lands .dynClLen s t := by
  rcases stepDynClLen_cases s with ⟨-, he⟩ | ⟨bs, -, he, -⟩ | ⟨v, -, hlt, he, -⟩ <;> rw [he] at h <;> cases h
  · exact .raise _ (by decide) rfl
  · obtain ⟨hphase, hc, hroom⟩ := endClLenStep_lands
      (s := writeClLen v { s with stream := s.stream.seek (s.stream.pos + 3) }) hp hbtype
      ((writeClLen_index (s := { s with stream := _ }) hlt v).trans_le hidx) hlen
    exact ⟨hphase, hc, hroom⟩

theorem stepCopy_lands {s t : State} (hblock : blockTables s)
    (hlen : 3 ≤ s.matchLen.toNat ∧ s.matchLen.toNat ≤ 258)
    (hdist : 1 ≤ s.matchDist.toNat ∧ s.matchDist.toNat ≤ Config.window) (hout : s.matchDist.toNat ≤ s.outLen)
    (hrem : 1 ≤ s.copyRem.toNat) (hle : s.copyRem.toNat ≤ s.matchLen.toNat) (h : stepCopy s = .next t) :
    Lands .copy s t := by
  rcases stepCopy_cases s with ⟨-, he⟩ | ⟨-, -, he⟩ | ⟨-, -, -, ⟨-, he⟩ | ⟨hroom, he⟩⟩ <;> rw [he] at h <;> cases h
  · exact .raise _ (by decide) rfl
  · by_cases h1 : s.copyRem = 1
    · exact .enter .sym (by decide) (if_pos h1) hblock (.inr hroom)
    · have hless : (s.copyRem - 1).toNat ≤ s.copyRem.toNat := by bv_omega
      have hmore : 1 ≤ (s.copyRem - 1).toNat := by bv_omega
      exact .enter .copy (by decide) (if_neg h1)
        ⟨hblock, hlen, hdist.1, hdist.2, Nat.le_succ_of_le hout, hmore, hless.trans hle⟩ (.inr hroom)

theorem stepCheckFinal_lands {s t : State} (hbtype : s.btype ≠ 3) (h : stepCheckFinal s = .next t) :
    Lands .checkFinal s t := by
  unfold stepCheckFinal at h
  split at h <;> cases h
  · exact .enter .done (by decide) rfl hbtype (.inl rfl)
  · exact .enter .hdr (by decide) rfl hbtype (.inl rfl)

/-- Where a step lands, from a state that meets the clauses of its phase. -/
theorem step_lands {s t : State} (hc : phaseClauses s) (h : step s = .next t) : Lands s.phase s t := by
  have hclauses := hc
  unfold step at h
  unfold phaseClauses at hclauses
  cases hp : s.phase <;> rw [hp] at h hclauses
  case idle | done | error => cases h; exact ⟨by rw [hp]; decide, hc, .inl rfl⟩
  case hdr => exact stepInstr_lands (fun _ _ hsp he => exec_header_lands hsp he) h
  case storedLen => exact stepStoredLen_lands hclauses h
  case storedCopy =>
    obtain ⟨hbtype, -, hoff⟩ := hclauses
    exact stepStoredCopy_lands hbtype hoff h
  case dynCounts => exact stepDynCounts_lands hclauses h
  case dynClLen =>
    obtain ⟨hbtype, hidx, hlen⟩ := hclauses
    exact stepDynClLen_lands hp hbtype hidx hlen h
  case dynLens =>
    obtain ⟨hbtype, hidx, htable⟩ := hclauses
    exact stepInstr_lands (fun _ bs hsp he =>
      exec_codeLength_lands (s := { s with stream := bs }) hp hbtype htable hsp hidx he) h
  case sym => exact stepInstr_lands (fun _ _ hsp he => exec_literalLength_lands hsp hp hclauses he) h
  case dist =>
    obtain ⟨hblock, hlen⟩ := hclauses
    exact stepInstr_lands (fun _ _ hsp he => exec_distance_lands hsp hblock hlen he) h
  case copy =>
    obtain ⟨hblock, hlen, hpos, hwindow, hout, hrem, hle⟩ := hclauses
    exact stepCopy_lands hblock hlen ⟨hpos, hwindow⟩ hout hrem hle h
  case checkFinal => exact stepCheckFinal_lands hclauses h

/-! ## The invariant along a step -/

/-- In the phases without a step the core holds its state (R194, R204, R219). -/
theorem step_of_quiescent {s : State} (h : busy s = false) : step s = .next s := by
  unfold busy at h
  unfold step
  cases hp : s.phase
  case idle | done | error => rfl
  all_goals rw [hp] at h; cases h

/-- A session that runs is not in `ERROR` and not in `DONE` (R38). -/
theorem phase_ne_of_busy {s : State} (h : busy s = true) : s.phase ≠ .error ∧ s.phase ≠ .done := by
  constructor <;> intro hp <;> rw [busy, hp] at h <;> cases h

/-- A session that runs has raised no error (R37). -/
theorem Inv.errCode_eq_zero {s : State} (hs : Inv s) (hb : busy s = true) : s.errCode = 0 :=
  by_contra fun hne => (phase_ne_of_busy hb).1 (hs.errorIff.mpr hne)

/-- The clause of `Inv` that bounds the output, along a step: it appends at most one byte, below `OUT_CAP` (R50). -/
theorem Lands.outputCapped {p : Phase} {s t : State} (hl : Lands p s t) (he : StepEffect p s t) {c : Nat}
    (hs : s.outLen ≤ c) (hcap : t.outCap = some c) : t.outLen ≤ c := by
  rw [he.config.1] at hcap
  rcases hl.room with hsame | hroom
  · rwa [hsame]
  · have hlt : s.outLen < c := Nat.lt_of_le_of_ne hs fun heq => hroom (heq ▸ hcap)
    rcases he.output with ⟨-, hsame⟩ | ⟨-, -, hone⟩ <;> omega

/-- Both byte spaces stay canonical along a step (R46). -/
theorem StepEffect.memories {p : Phase} {s t : State} (h : StepEffect p s t) (hs : Inv s) :
    (t.stream.bytes.wf = true ∧ t.stream.bytes.below t.stream.len = true) ∧
      t.out.wf = true ∧ t.out.below t.outLen = true := by
  obtain ⟨hbytes, hlen, -, -⟩ := h.cursor.source
  rw [hbytes, hlen]
  refine ⟨⟨hs.inputWf, hs.inputBelow⟩, ?_⟩
  rcases h.output with ⟨hout, hlen⟩ | ⟨b, hout, hlen⟩ <;> rw [hout, hlen]
  · exact ⟨hs.outputWf, hs.outputBelow⟩
  · exact ⟨Memory.write_wf hs.outputWf _ _,
      Memory.write_below (Memory.below_mono (Nat.le_succ _) hs.outputBelow) (Nat.lt_succ_self _) b⟩

/-- `IN_CONSUMED` is written on entry to `DONE` only (R41, R203). -/
theorem step_inConsumed {s t : State} (h : step s = .next t) :
    (t.phase ≠ .done → t.inConsumed = s.inConsumed) ∧
      (t.phase = .done → s.phase = .checkFinal → t.inConsumed = t.stream.inPos ∧ t.stream.bitOff = 0) := by
  by_cases hp : s.phase = .checkFinal
  · rw [step, hp] at h
    dsimp only at h
    unfold stepCheckFinal at h
    split at h <;> cases h
    · refine ⟨fun hne => absurd rfl hne, fun _ _ => ⟨rfl, ?_⟩⟩
      rw [BitStream.align_eq_seek]
      exact BitStream.seek_bitOff_of_mod (by omega) _
    · exact ⟨fun _ => rfl, nofun⟩
  · refine ⟨fun _ => ?_, fun _ hp' => absurd hp' hp⟩
    rw [(step_effect h).frame]
    cases hq : s.phase
    case checkFinal => exact absurd hq hp
    all_goals rfl

/-- `DONE` is entered by the final check only (R203). -/
theorem Lands.checkFinal_of_done {p : Phase} {s t : State} (h : Lands p s t) (ht : t.phase = .done)
    (hp : p ≠ .done) : p = .checkFinal := by
  have hnext := h.phase
  rw [ht] at hnext
  cases p with
  | checkFinal => rfl
  | done => exact absurd rfl hp
  | _ => exact absurd hnext (by decide)

/-- Every step keeps the invariant: the clauses of the phase it lands in hold, and the shared clauses follow from the
effect of the step. -/
theorem step_inv {s t : State} (hs : Inv s) (h : step s = .next t) : Inv t := by
  cases hb : busy s
  case false =>
    rw [step_of_quiescent hb] at h
    cases h
    exact hs
  case true =>
    have heffect := step_effect h
    have hlands := step_lands hs.clauses h
    have hndone := (phase_ne_of_busy hb).2
    obtain ⟨hin, hout⟩ := heffect.memories hs
    obtain ⟨hzero, hdone⟩ := step_inConsumed h
    exact .of_phaseClauses hin hout (fun hne => (heffect.errCode hne).trans (hs.errCode_eq_zero hb))
      (fun hne => (hzero hne).trans (hs.consumedZero hndone))
      (fun ht => hdone ht (hlands.checkFinal_of_done ht hndone))
      (fun _ => heffect.cursor.inside (hs.cursorInside hb))
      (fun _ c hcap => hlands.outputCapped heffect (hs.outputCapped hb c (heffect.config.1 ▸ hcap)) hcap)
      hlands.clauses

/-! ## The invariant along a host action -/

/-- Whatever the state before, reset leaves a state that meets the invariant; only the input's memory is the host's. -/
theorem resetCore_inv {s : State} (hwf : s.stream.bytes.wf = true) (hbelow : s.stream.bytes.below s.stream.len = true) :
    Inv (resetCore s) :=
  .of_phaseClauses ⟨hwf, hbelow⟩ ⟨rfl, rfl⟩ (fun _ => rfl) (fun _ => rfl) nofun nofun nofun trivial

/-- A session starts in a state that meets the invariant (R234). -/
theorem startSession_inv {s : State} (hwf : s.stream.bytes.wf = true)
    (hbelow : s.stream.bytes.below s.stream.len = true) : Inv (startSession s) :=
  .of_phaseClauses ⟨hwf, hbelow⟩ ⟨rfl, rfl⟩ (fun _ => rfl) (fun _ => rfl) nofun (fun _ => Nat.zero_le _)
    (fun _ _ _ => Nat.zero_le _) (show (0 : BitVec 2) ≠ 3 by decide)

/-- Presenting while no session runs changes no clause but those of the input (R225). -/
theorem presentInput_inv {s : State} (hs : Inv s) (hb : busy s = false) (bytes : List Byte) (e : SrcEnd)
    (cap : Option Nat) : Inv (presentInput bytes e cap s) :=
  { hs with
    inputWf := Memory.ofBytes_wf bytes
    inputBelow := Memory.ofBytes_below bytes
    cursorInside := fun hb' => absurd (hb.symm.trans hb') Bool.false_ne_true
    outputCapped := fun hb' => absurd (hb.symm.trans hb') Bool.false_ne_true }

/-- The block of a session that runs is not of the reserved type (R28). -/
theorem Inv.btype_ne {s : State} (hs : Inv s) (hb : busy s = true) : s.btype ≠ 3 := by
  have hblock := hs.blockType
  unfold blockTypeAgrees at hblock
  unfold busy at hb
  cases hp : s.phase <;> rw [hp] at hblock hb
  case idle | done | error => cases hb
  case hdr | checkFinal => exact hblock
  case sym | dist | copy => rcases hblock with h | h <;> rw [h] <;> decide
  all_goals rw [hblock]; decide

/-- A session whose input the host changes ends in a state that meets the invariant (log entry 3). -/
theorem loseSession_inv {s : State} (hs : Inv s) (hb : busy s = true) (bytes : List Byte) (e : SrcEnd)
    (cap : Option Nat) : Inv (loseSession (presentInput bytes e cap s)) := by
  have hin : (Memory.ofBytes bytes).wf = true ∧ (Memory.ofBytes bytes).below bytes.length = true :=
    ⟨Memory.ofBytes_wf bytes, Memory.ofBytes_below bytes⟩
  have hout (tick : Nat) : (Memory.ofBytes (Config.lostOut tick)).wf = true ∧
      (Memory.ofBytes (Config.lostOut tick)).below (Config.lostOut tick).length = true :=
    ⟨Memory.ofBytes_wf _, Memory.ofBytes_below _⟩
  have hlegal (k : Fin 9) : BitVec.ofNat 4 (k.val + 1) ≠ 0 ∧ (BitVec.ofNat 4 (k.val + 1)).toNat ≤ 9 := by
    revert k; decide
  unfold loseSession
  split
  · exact .of_phaseClauses hin (hout _) (fun _ => hs.errCode_eq_zero hb) (fun hne => absurd rfl hne)
      (fun _ => ⟨rfl, rfl⟩) nofun nofun (hs.btype_ne hb)
  · exact .of_phaseClauses hin (hout _) (fun hne => absurd rfl hne) (fun _ => hs.consumedZero (phase_ne_of_busy hb).2)
      nofun nofun nofun (hlegal _)

/-- Every host action keeps the invariant. -/
theorem hostAct_inv {act : HostAction} {s t : State} (hs : Inv s) (h : hostAct act s = .next t) : Inv t := by
  cases act <;> cases h
  case reset => exact resetCore_inv hs.inputWf hs.inputBelow
  case writeReg n v =>
    rcases hostWriteReg_cases n v s with ⟨-, h⟩ | h <;> rw [h]
    · exact startSession_inv hs.inputWf hs.inputBelow
    · exact hs
  case readReg => exact hs
  case present bytes e cap =>
    rcases hostPresent_cases bytes e cap s with ⟨hb, h⟩ | ⟨-, -, h⟩ | ⟨hb, -, h⟩ <;> rw [h]
    · exact presentInput_inv hs hb bytes e cap
    · exact hs
    · exact loseSession_inv hs hb bytes e cap
  case readOut a =>
    obtain ⟨tick, h⟩ := hostReadOut_state a s
    rw [h]
    exact { hs with }

/-- Every state reached from reset meets the invariant. -/
theorem Reachable.inv {s : State} (h : Reachable s) : Inv s := by
  induction h with
  | reset => exact resetCore_inv (s := State.reset) rfl rfl
  | step _ hstep ih => exact step_inv ih hstep
  | host act _ hact ih => exact hostAct_inv ih hact

end Sys2Proof.Machine
end

section
/-! SUPPORT. A step takes no notice of the model's own tick of free values (log entry 4), said once per operation. -/

namespace Sys2Proof.Machine

/-- `s` with the model's tick of free values at `k`. -/
def withTick (k : Nat) (s : State) : State := { s with freeTick := k }

/-- A step's answer with the tick of its next state at `k`. -/
def tickResult (k : Nat) : Result → Result
  | .next s => .next (withTick k s)
  | .fault f => .fault f
  | .refused r => .refused r

section
variable (k : Nat) (s : State)

theorem outWrite_withTick (b : Byte) : outWrite b (withTick k s) = (outWrite b s).map (withTick k) := by
  rw [outWrite, outWrite, apply_ite (Except.map (withTick k))]
  rfl

/-! ## Instructions -/

theorem finishHeader_withTick : finishHeader (withTick k s) = withTick k (finishHeader s) := by
  have hlit : litTable (splitLens (withTick k s)) = litTable (splitLens s) := rfl
  have hdist : distTable (splitLens (withTick k s)) = distTable (splitLens s) := rfl
  rw [finishHeader, finishHeader, hlit, hdist]
  cases litTable (splitLens s) with
  | none => rfl
  | some _ => cases distTable (splitLens s) <;> rfl

theorem endLensStep_withTick : endLensStep (withTick k s) = withTick k (endLensStep s) := by
  rw [endLensStep, endLensStep, finishHeader_withTick, apply_ite (withTick k)]
  rfl

theorem lensRun_withTick (n : Nat) (v : CodeLen) : lensRun n v (withTick k s) = withTick k (lensRun n v s) := by
  have hend : endLensStep (appendLens n v (withTick k s)) = withTick k (endLensStep (appendLens n v s)) :=
    endLensStep_withTick k (appendLens n v s)
  rw [lensRun, lensRun, hend, apply_ite (withTick k)]
  rfl

theorem distanceSymbol_withTick (d x : Nat) :
    distanceSymbol d x (withTick k s) = withTick k (distanceSymbol d x s) := by
  rw [distanceSymbol, distanceSymbol, apply_ite (withTick k)]
  rfl

theorem exec_codeLength_withTick {i : Instr} (h : opSpace i = .clSym) :
    exec i (withTick k s) = tickResult k (exec i s) := by
  cases i <;> simp only [opSpace, reduceCtorEq] at h
  case clLen n =>
    have hend : endLensStep (appendLens 1 n (withTick k s)) = withTick k (endLensStep (appendLens 1 n s)) :=
      endLensStep_withTick k (appendLens 1 n s)
    rw [exec, exec, execClLen, execClLen, hend, apply_ite (tickResult k)]
    rfl
  case clRep16 x =>
    have hrun : lensRun (repeatCount x) (prevLen (withTick k s)) (withTick k s) =
        withTick k (lensRun (repeatCount x) (prevLen s) s) := lensRun_withTick k s _ _
    rw [exec, exec, execClRep16, execClRep16, hrun, apply_ite (tickResult k)]
    rfl
  case clZero17 x => exact congrArg Host.Outcome.next (lensRun_withTick k s _ _)
  case clZero18 x => exact congrArg Host.Outcome.next (lensRun_withTick k s _ _)

theorem execLit_withTick (b : Byte) : execLit b (withTick k s) = tickResult k (execLit b s) := by
  rw [execLit, execLit, outWrite_withTick]
  cases outWrite b s <;> rfl

/-- An instruction takes no notice of the tick. -/
theorem exec_withTick (i : Instr) : exec i (withTick k s) = tickResult k (exec i s) := by
  cases hsp : opSpace i with
  | hdr => cases i <;> simp only [opSpace, reduceCtorEq] at hsp <;> rfl
  | clSym => exact exec_codeLength_withTick k s hsp
  | llSym =>
    rcases literalLength_kinds hsp with ⟨b, rfl⟩ | rfl | hinv | ⟨hlo, hhi⟩
    · exact execLit_withTick k s b
    · rfl
    · rcases hinv with rfl | rfl <;> rfl
    · rw [exec_eq_lengthSymbol hsp hlo hhi, exec_eq_lengthSymbol hsp hlo hhi]
      rfl
  | dSym =>
    rcases distance_kinds hsp with hinv | hv
    · rcases hinv with rfl | rfl <;> rfl
    · rw [exec_eq_distanceSymbol hsp hv, exec_eq_distanceSymbol hsp hv, distanceSymbol_withTick]
      rfl

theorem stepInstr_withTick (sp : Space) : stepInstr sp (withTick k s) = tickResult k (stepInstr sp s) := by
  have htable : spaceTable sp (withTick k s) = spaceTable sp s := by cases sp <;> rfl
  have hstream : (withTick k s).stream = s.stream := rfl
  have hwritten : headerReadSoFar sp (withTick k s) = withTick k (headerReadSoFar sp s) := by
    cases sp with
    | hdr => rw [headerReadSoFar, headerReadSoFar, hstream]; cases s.stream.readBits 1 <;> rfl
    | clSym | llSym | dSym => rfl
  rw [stepInstr, stepInstr, fetch, fetch, htable, hstream]
  cases spaceTable sp s with
  | none => rfl
  | some t =>
    dsimp only
    cases decode sp t s.stream with
    | raise kind bs => rw [hwritten]; rfl
    | ok value bs =>
      cases value with
      | error r => rfl
      | ok i => exact exec_withTick k { s with stream := bs } i

/-! ## Steps, phase by phase -/

theorem stepStoredLen_withTick : stepStoredLen (withTick k s) = tickResult k (stepStoredLen s) := by
  have hstream : (withTick k s).stream = s.stream := rfl
  rw [stepStoredLen, stepStoredLen, hstream]
  cases s.stream.align.readBits 16 with
  | raise kind bs => rfl
  | ok len bs =>
    dsimp only
    cases bs.readBits 16 with
    | raise kind bs => rfl
    | ok nlen bs =>
      dsimp only
      rw [apply_ite (tickResult k)]
      rfl

theorem stepStoredCopy_withTick : stepStoredCopy (withTick k s) = tickResult k (stepStoredCopy s) := by
  unfold stepStoredCopy outWrite
  dsimp only [withTick]
  rw [apply_ite (tickResult k)]
  congr 1
  cases s.stream.readBits 8 with
  | raise kind bs => rfl
  | ok v bs =>
    by_cases hfull : s.outCap = some s.outLen
    · simp only [hfull, reduceIte]
      rfl
    · simp only [hfull, reduceIte]
      rfl

theorem stepDynCounts_withTick : stepDynCounts (withTick k s) = tickResult k (stepDynCounts s) := by
  have hstream : (withTick k s).stream = s.stream := rfl
  rw [stepDynCounts, stepDynCounts, hstream]
  cases s.stream.readBits 5 with
  | raise kind bs => rfl
  | ok hlit bs =>
    dsimp only
    cases bs.readBits 5 with
    | raise kind bs => rfl
    | ok hdist bs =>
      dsimp only
      cases bs.readBits 4 <;> rfl

theorem endClLenStep_withTick : endClLenStep (withTick k s) = withTick k (endClLenStep s) := by
  have htable : clTable (withTick k s) = clTable s := rfl
  rw [endClLenStep, endClLenStep, apply_ite (withTick k), htable]
  cases clTable s <;> rfl

theorem stepDynClLen_withTick : stepDynClLen (withTick k s) = tickResult k (stepDynClLen s) := by
  have hstream : (withTick k s).stream = s.stream := rfl
  have hidx : (withTick k s).clIdx = s.clIdx := rfl
  rw [stepDynClLen, stepDynClLen, hstream, hidx, apply_ite (tickResult k)]
  congr 1
  cases s.stream.readBits 3 with
  | raise kind bs => rfl
  | ok v bs => exact congrArg Host.Outcome.next (endClLenStep_withTick k (writeClLen v { s with stream := bs }))

theorem stepCopy_withTick : stepCopy (withTick k s) = tickResult k (stepCopy s) := by
  have hread : (copySource (withTick k s)).bind (fun a => outRead a (withTick k s)) =
      (copySource s).bind fun a => outRead a s := rfl
  have hrem : (withTick k s).copyRem = s.copyRem := rfl
  rw [stepCopy, stepCopy, hread, hrem, apply_ite (tickResult k)]
  congr 1
  cases (copySource s).bind fun a => outRead a s with
  | none => rfl
  | some b =>
    dsimp only
    rw [outWrite_withTick]
    cases outWrite b s <;> rfl

/-- A step takes no notice of the tick. -/
theorem step_withTick : step (withTick k s) = tickResult k (step s) := by
  have hphase : (withTick k s).phase = s.phase := rfl
  rw [step, step, hphase]
  cases s.phase
  case idle | done | error => rfl
  case hdr | dynLens | sym | dist => exact stepInstr_withTick k s _
  case storedLen => exact stepStoredLen_withTick k s
  case storedCopy => exact stepStoredCopy_withTick k s
  case dynCounts => exact stepDynCounts_withTick k s
  case dynClLen => exact stepDynClLen_withTick k s
  case copy => exact stepCopy_withTick k s
  case checkFinal => rw [stepCheckFinal, stepCheckFinal, apply_ite (tickResult k)]; rfl

end

/-- A run takes no notice of the tick. -/
theorem runSteps_withTick (k n : Nat) (s : State) : runSteps n (withTick k s) = tickResult k (runSteps n s) := by
  induction n generalizing s with
  | zero => rfl
  | succ n ih =>
    rw [runSteps, runSteps, step_withTick]
    cases step s with
    | next t => exact ih t
    | fault f => rfl
    | refused r => rfl

/-- A session's start keeps of the state before it the host's input and parameters, and the tick (R207, R234). -/
theorem startSession_eq_withTick {s s' : State} (hbytes : s'.stream.bytes = s.stream.bytes)
    (hlen : s'.stream.len = s.stream.len) (hend : s'.stream.srcEnd = s.stream.srcEnd) (hcap : s'.outCap = s.outCap) :
    startSession s' = withTick s'.freeTick (startSession s) := by
  simp only [startSession, resetCore, withTick, hbytes, hlen, hend, hcap]

end Sys2Proof.Machine
end

section
/-! PROOFS. The statements about the block dispatcher (45_block_dispatcher.md): block headers, Stored blocks, the final
check, and sessions as a whole. -/

namespace Sys2Proof.Machine

/-! ## Block headers -/

/-- What a header whose reads fail has written is at most `bfinal`; a symbol has written nothing (R218). -/
theorem headerReadSoFar_eq (sp : Space) (s : State) :
    ∃ f : Bool, (sp ≠ .hdr → f = s.bfinal) ∧ headerReadSoFar sp s = { s with bfinal := f } := by
  cases sp with
  | hdr =>
    rw [headerReadSoFar]
    split
    · exact ⟨_, nofun, rfl⟩
    · exact ⟨s.bfinal, nofun, rfl⟩
  | clSym | llSym | dSym => exact ⟨s.bfinal, fun _ => rfl, rfl⟩

/-- Settles O41: a step of a space's phase fetches one element with the space's table. -/
theorem stepRunsTheDecodedInstruction : Obligations.StepRunsTheDecodedInstruction := by
  intro s sp t hp ht
  have hstep : step s = stepInstr sp s := by
    rw [step, hp]
    cases sp <;> rfl
  rw [hstep]
  refine ⟨fun i bs hd => stepInstr_of_decode ht hd, fun k bs hd => ?_⟩
  obtain ⟨f, hf, hwritten⟩ := headerReadSoFar_eq sp s
  refine ⟨f, hf, ?_⟩
  rw [stepInstr, fetch, ht]
  dsimp only
  rw [hd, hwritten]
  rfl

/-- Settles O20: the fixed arrays are runs of equal lengths. -/
theorem blockHeadersStartTheirBodies : Obligations.BlockHeadersStartTheirBodies := by
  refine fun f s => ⟨rfl, rfl, padLens 288 fixedLit, padLens 32 fixedDist, rfl, fun i hi => ?_, fun d hd => ?_⟩
  · rw [padLens_getD _ hi]
    simp only [fixedLit, List.getD_eq_getElem?_getD, List.getElem?_append, List.getElem?_replicate,
      List.length_append, List.length_replicate]
    split_ifs <;> simp <;> omega
  · rw [padLens_getD _ hd]
    simp only [fixedDist, List.getD_eq_getElem?_getD, List.getElem?_append, List.getElem?_replicate,
      List.length_replicate]
    split_ifs <;> simp

/-- Settles O21: the writes before the raise are the header's two. -/
theorem reservedBlockTypeAlwaysRaises : Obligations.ReservedBlockTypeAlwaysRaises := fun _ _ => ⟨3, rfl⟩

/-- Settles O22: the header's two reads are one read of three bits, whose value selects the header. -/
theorem headerStepReadsThreeBits : Obligations.HeaderStepReadsThreeBits := by
  intro s hp
  have hstep : step s = stepInstr .hdr s := by rw [step, hp]
  refine ⟨fun f lo hi rest h => ?_, fun h => ?_⟩
  · have hread : readValue .hdr [] s.stream = .ok (bitsValue [f, lo, hi]) (s.stream.seek (s.stream.pos + 3)) :=
      (readHeader_eq_readBits s.stream).trans (BitStream.readBits_of_remaining (bits := [f, lo, hi]) h)
    rw [hstep]
    exact stepInstr_of_no_extra rfl hread rfl (by cases f <;> cases lo <;> cases hi <;> rfl)
  · cases hread : s.stream.readBits 3 with
    | ok v bs =>
      have hlen := BitStream.remaining_length_of_readBits hread
      omega
    | raise k bs =>
      have hdecode : decode .hdr [] s.stream = .raise k bs := by
        rw [decode, readValue, readHeader_eq_readBits, hread]
      obtain ⟨f, -, h⟩ := (stepRunsTheDecodedInstruction s .hdr [] hp rfl).2 k bs hdecode
      exact ⟨_, h, rfl, congrArg errorCode (BitStream.readBits_raise hread).1⟩

/-! ## The Stored length -/

/-- The Stored length step on a stream that holds both fields (R200). -/
theorem stepStoredLen_of_reads {s : State} {len nlen : Nat} {bs bs' : BitStream}
    (hlen : s.stream.align.readBits 16 = .ok len bs) (hnlen : bs.readBits 16 = .ok nlen bs') :
    (nlen = len ^^^ 0xFFFF → stepStoredLen s = .next { s with
      stream := bs'
      storedRem := BitVec.ofNat 16 len
      phase := if len = 0 then .checkFinal else .storedCopy }) ∧
    (nlen ≠ len ^^^ 0xFFFF → stepStoredLen s = .next (raiseError .storedLengthMismatch { s with stream := bs' })) := by
  simp only [stepStoredLen, hlen, hnlen, storedLengthsAgree]
  exact ⟨fun h => if_pos (beq_iff_eq.mpr h), fun h => if_neg fun heq => h (beq_iff_eq.mp heq)⟩

/-- The Stored length step on a stream that ends within its 32 bits: one of the two reads fails. -/
theorem stepStoredLen_of_short {s : State} (h : s.stream.align.remaining.length < 32) :
    EntersError (stepStoredLen s) (endError s.stream.srcEnd) := by
  have hend : s.stream.align.srcEnd = s.stream.srcEnd := s.stream.align_moved.source.2.2.1
  unfold stepStoredLen
  cases h1 : s.stream.align.readBits 16 with
  | raise k bs1 => exact hend ▸ readFailed_entersError h1 s
  | ok len bs1 =>
    have hlen1 := BitStream.remaining_length_of_readBits h1
    have hend1 : bs1.srcEnd = s.stream.align.srcEnd := (BitStream.readBits_moved h1).source.2.2.1
    dsimp only
    cases h2 : bs1.readBits 16 with
    | raise k bs2 => exact hend ▸ hend1 ▸ readFailed_entersError h2 _
    | ok nlen bs2 =>
      have hlen2 := BitStream.remaining_length_of_readBits h2
      omega

/-- Settles O23: the two reads take the fields after alignment, and the check has two outcomes. -/
theorem storedLengthStep : Obligations.StoredLengthStep := by
  intro s hp
  have hstep : step s = stepStoredLen s := by rw [step, hp]
  rw [hstep]
  refine ⟨fun a b rest ha hb h => ?_, stepStoredLen_of_short⟩
  rw [List.append_assoc] at h
  have hread1 := BitStream.readBits_of_remaining h
  have hread2 := BitStream.readBits_of_remaining (BitStream.remaining_seek_append h)
  rw [ha] at hread1 hread2
  rw [hb, BitStream.seek_seek, BitStream.seek_pos, Nat.add_assoc] at hread2
  exact stepStoredLen_of_reads hread1 hread2

/-! ## The Stored copy -/

/-- A field's bits are the low bits of its value in order (R56). -/
theorem fieldBits_eq_map_testBit (n v : Nat) : fieldBits n v = (List.range n).map v.testBit := by
  induction n generalizing v with
  | zero => rfl
  | succ n ih =>
    rw [fieldBits, ih, List.range_succ_eq_map, List.map_cons, List.map_map]
    exact congrArg _ (List.map_congr_left fun i _ => (Nat.testBit_succ v i).symm)

/-- At a byte boundary the next eight bits are those of the byte there (R18). -/
theorem BitStream.remaining_of_aligned {bs : BitStream} (hoff : bs.bitOff = 0) (h : bs.inPos < bs.len) :
    bs.remaining = fieldBits 8 (bs.bytes.read bs.inPos).toNat ++ (bs.seek (bs.pos + 8)).remaining := by
  have hpos : bs.pos = 8 * bs.inPos := by rw [pos, hoff]; rfl
  rw [remaining_eq_append (n := 8) (by omega), fieldBits_eq_map_testBit]
  refine congrArg (· ++ _) (List.map_congr_left fun i hi => ?_)
  have hi : i < 8 := List.mem_range.mp hi
  rw [bitAt, BitVec.testBit_toNat, hpos, show (8 * bs.inPos + i) / 8 = bs.inPos by omega,
    show (8 * bs.inPos + i) % 8 = i by omega]

/-- Eight bits on from a byte boundary is the next byte boundary. -/
theorem BitStream.seek_next_byte {bs : BitStream} (hoff : bs.bitOff = 0) :
    bs.seek (bs.pos + 8) = { bs with inPos := bs.inPos + 1 } := by
  have hpos : bs.pos = 8 * bs.inPos := by rw [pos, hoff]; rfl
  rw [seek, hpos, show (8 * bs.inPos + 8) / 8 = bs.inPos + 1 by omega, show (8 * bs.inPos + 8) % 8 = 0 by omega]
  exact congrArg (BitStream.mk _ _ _ _) hoff.symm

/-- Eight bits read from a byte boundary are the byte there, unchanged (R201). -/
theorem BitStream.readBits_byte {bs : BitStream} (hoff : bs.bitOff = 0) (h : bs.inPos < bs.len) :
    bs.readBits 8 = .ok (bs.bytes.read bs.inPos).toNat { bs with inPos := bs.inPos + 1 } := by
  have hread := readBits_of_remaining (remaining_of_aligned hoff h)
  rwa [fieldBits_length, bitsValue_fieldBits (BitVec.isLt _), seek_next_byte hoff] at hread

/-- `s` after a Stored copy step that has room (R201). -/
def storedByte (s : State) : State :=
  { s with
    stream := { s.stream with inPos := s.stream.inPos + 1 }
    out := s.out.write s.outLen (s.stream.bytes.read s.stream.inPos)
    outLen := s.outLen + 1
    storedRem := s.storedRem - 1
    phase := if s.storedRem = 1 then .checkFinal else .storedCopy }

/-- A Stored copy step with a byte to copy and an input byte appends it, or raises at `OUT_CAP` past it (R201, R50). -/
theorem step_storedCopy_cases {s : State} (hp : s.phase = .storedCopy) (hrem : s.storedRem ≠ 0)
    (hoff : s.stream.bitOff = 0) (hin : s.stream.inPos < s.stream.len) :
    (s.outCap = some s.outLen ∧ step s = .next (raiseError .outputOverflow
      { s with stream := { s.stream with inPos := s.stream.inPos + 1 } })) ∨
    (s.outCap ≠ some s.outLen ∧ step s = .next (storedByte s)) := by
  have hstep : step s = stepStoredCopy s := by rw [step, hp]
  rw [hstep, stepStoredCopy, if_neg hrem, BitStream.readBits_byte hoff hin]
  dsimp only
  rw [BitVec.ofNat_toNat, BitVec.setWidth_eq]
  cases h : outWrite (s.stream.bytes.read s.stream.inPos)
    { s with stream := { s.stream with inPos := s.stream.inPos + 1 } } with
  | error k =>
    obtain ⟨hfull, rfl⟩ := outWrite_error h
    exact .inl ⟨hfull, rfl⟩
  | ok s' =>
    obtain ⟨hroom, rfl⟩ := outWrite_ok h
    exact .inr ⟨hroom, rfl⟩

/-- Settles O24: at a byte boundary the step reads the byte at `in_pos`, and past the input its read fails. -/
theorem storedCopyStepCopiesOneByte : Obligations.StoredCopyStepCopiesOneByte := by
  intro s hp hrem hoff
  refine ⟨fun hin hroom => ?_, fun hin hfull => ?_, fun hend => ?_⟩
  · exact ((step_storedCopy_cases hp hrem hoff hin).resolve_left fun h => hroom h.1).2
  · exact ((step_storedCopy_cases hp hrem hoff hin).resolve_right fun h => h.1 hfull).2
  · have hstep : step s = stepStoredCopy s := by rw [step, hp]
    rw [hstep, stepStoredCopy, if_neg hrem]
    cases hread : s.stream.readBits 8 with
    | ok v bs =>
      obtain ⟨-, -, hfits⟩ := BitStream.readBits_ok hread
      unfold BitStream.pos at hfits
      omega
    | raise k bs => exact readFailed_entersError hread s

/-! ## A whole Stored block -/

/-- An append adds its byte after the output (R50). -/
theorem Memory.toBytes_write {m : Memory} (hwf : m.wf = true) (n : Nat) (b : Byte) :
    (m.write n b).toBytes (n + 1) = m.toBytes n ++ [b] := by
  rw [toBytes, toBytes, List.range_succ, List.map_append]
  refine congr_arg₂ _ (List.map_congr_left fun a ha => ?_) ?_
  · rw [read_write hwf, if_neg (List.mem_range.mp ha).ne]
  · rw [List.map_singleton, read_write hwf, if_pos rfl]

/-- The rest of a final Stored block: `n` bytes are copied and the session ends (R201, R203). -/
theorem runSteps_storedBody (n : Nat) {s : State} (hp : s.phase = if n = 0 then .checkFinal else .storedCopy)
    (hfinal : s.bfinal = true) (hrem : s.storedRem.toNat = n) (hoff : s.stream.bitOff = 0)
    (hin : s.stream.inPos + n ≤ s.stream.len) (hwf : s.out.wf = true)
    (hcap : ∀ c, s.outCap = some c → s.outLen + n ≤ c) :
    ∃ t, runSteps (n + 1) s = .next t ∧ t.phase = .done ∧ t.inConsumed = s.stream.inPos + n ∧
      outBytes t = outBytes s ++ (List.range n).map fun i => s.stream.bytes.read (s.stream.inPos + i) := by
  induction n generalizing s with
  | zero =>
    have halign : s.stream.align = s.stream := if_pos hoff
    have hstep : step s = .next { s with inConsumed := s.stream.inPos, phase := .done } := by
      rw [step, hp, if_pos rfl]
      dsimp only
      rw [stepCheckFinal, if_pos hfinal, halign]
    exact ⟨_, runSteps_succ_of_step hstep 0, rfl, rfl, (List.append_nil _).symm⟩
  | succ n ih =>
    rw [if_neg n.succ_ne_zero] at hp
    have hroom : s.outCap ≠ some s.outLen := fun h => absurd (hcap _ h) (by omega)
    have hstep := ((step_storedCopy_cases hp (by bv_omega) hoff (by omega)).resolve_left fun h => hroom h.1).2
    have hlast : s.storedRem = 1 ↔ n = 0 := by bv_omega
    obtain ⟨t, hrun, hdone, hconsumed, hout⟩ := ih (s := storedByte s) (if_congr hlast rfl rfl) hfinal
      (show (s.storedRem - 1).toNat = n by bv_omega) hoff
      (show s.stream.inPos + 1 + n ≤ s.stream.len by omega) (Memory.write_wf hwf _ _)
      (fun c h => show s.outLen + 1 + n ≤ c by have := hcap c h; omega)
    refine ⟨t, (runSteps_succ_of_step hstep _).trans hrun, hdone, ?_, ?_⟩
    · rw [hconsumed, Nat.add_comm n 1, ← Nat.add_assoc]
      rfl
    · have hbyte : outBytes (storedByte s) = outBytes s ++ [s.stream.bytes.read s.stream.inPos] :=
        Memory.toBytes_write hwf _ _
      rw [hout, hbyte, List.append_assoc, List.range_succ_eq_map, List.map_cons, List.map_map]
      refine congrArg (outBytes s ++ s.stream.bytes.read s.stream.inPos :: ·) (List.map_congr_left fun i _ => ?_)
      exact congrArg _ (Nat.add_right_comm _ _ _)

/-- A field of 16 bits read from a byte boundary is two bytes, the low one first (R56, R86). -/
theorem BitStream.readBits_two_bytes {bs : BitStream} (hoff : bs.bitOff = 0) (h : bs.inPos + 1 < bs.len) :
    bs.readBits 16 = .ok ((bs.bytes.read bs.inPos).toNat + (bs.bytes.read (bs.inPos + 1)).toNat <<< 8)
      { bs with inPos := bs.inPos + 2 } := by
  rw [show 16 = 8 + 8 from rfl, readBits_add, readBits_byte hoff (by omega)]
  dsimp only
  rw [readBits_byte (bs := { bs with inPos := bs.inPos + 1 }) hoff h]

/-- The complement of a 16-bit length (R200). -/
theorem xor_ones_eq_sub {n : Nat} (h : n ≤ 65535) : n ^^^ 0xFFFF = 65535 - n := by
  have hnot : (BitVec.ofNat 16 n ^^^ BitVec.allOnes 16).toNat = (~~~ BitVec.ofNat 16 n).toNat := by
    rw [BitVec.xor_allOnes]
  rw [BitVec.toNat_xor, BitVec.toNat_not, BitVec.toNat_ofNat, Nat.mod_eq_of_lt (by omega)] at hnot
  exact hnot

/-- A number below 2^16 from its low and its high byte. -/
theorem bytes_toNat {n : Nat} (h : n ≤ 65535) :
    (BitVec.ofNat 8 n).toNat + (BitVec.ofNat 8 (n / 256)).toNat <<< 8 = n := by
  rw [BitVec.toNat_ofNat, BitVec.toNat_ofNat, Nat.shiftLeft_eq]
  omega

/-- The complemented bytes of a number below 2^16 give its complement. -/
theorem not_bytes_toNat {n : Nat} (h : n ≤ 65535) :
    (~~~ BitVec.ofNat 8 n).toNat + (~~~ BitVec.ofNat 8 (n / 256)).toNat <<< 8 = n ^^^ 0xFFFF := by
  rw [xor_ones_eq_sub h, BitVec.toNat_not, BitVec.toNat_not, BitVec.toNat_ofNat, BitVec.toNat_ofNat, Nat.shiftLeft_eq]
  omega

/-- The bytes of a Stored block alone in a stream (R196, R200): header byte, `LEN`, `NLEN` and the data. -/
def storedBlock (first : Byte) (data : List Byte) : List Byte :=
  [first, BitVec.ofNat 8 data.length, BitVec.ofNat 8 (data.length / 256),
    ~~~BitVec.ofNat 8 data.length, ~~~BitVec.ofNat 8 (data.length / 256)] ++ data

theorem storedBlock_length (first : Byte) (data : List Byte) :
    (storedBlock first data).length = 5 + data.length := by
  rw [storedBlock, List.length_append]
  rfl

/-- Past its five bytes of header a Stored block holds the data. -/
theorem storedBlock_data (first : Byte) (data : List Byte) :
    ((List.range data.length).map fun i => (Memory.ofBytes (storedBlock first data)).read (5 + i)) = data := by
  refine List.ext_getElem (by rw [List.length_map, List.length_range]) fun i _ hi => ?_
  rw [List.getElem_map, List.getElem_range, Memory.read_ofBytes, Nat.add_comm 5 i]
  exact List.getD_eq_getElem data _ hi

/-- The header step on a first byte with bits 1, 0, 0: a final Stored block (R195, R196). -/
theorem step_finalStoredHeader {s : State} (hp : s.phase = .hdr) (hoff : s.stream.bitOff = 0)
    (hin : s.stream.inPos < s.stream.len) (hfirst : (s.stream.bytes.read s.stream.inPos).toNat % 8 = 1) :
    step s = .next { s with
      stream := s.stream.seek (s.stream.pos + 3), bfinal := true, btype := 0, phase := .storedLen } := by
  generalize hv : (s.stream.bytes.read s.stream.inPos).toNat = v at hfirst
  have hbits : fieldBits 8 v = [true, false, false] ++ fieldBits 5 (v / 2 / 2 / 2) := by
    simp only [fieldBits, Nat.testBit_zero, List.cons_append, List.nil_append, List.cons.injEq, decide_eq_true_eq,
      decide_eq_false_iff_not, and_true]
    omega
  have hremaining := BitStream.remaining_of_aligned hoff hin
  rw [hv, hbits] at hremaining
  exact (headerStepReadsThreeBits s hp).1 true false false _ hremaining

/-- The Stored length step whose aligned cursor stands before the length `n` and its complement (R200). -/
theorem step_storedLength {s : State} {bs : BitStream} {n : Nat} (hp : s.phase = .storedLen)
    (halign : s.stream.align = bs) (hoff : bs.bitOff = 0) (hn : n ≤ 65535) (hin : bs.inPos + 4 ≤ bs.len)
    (hlo : bs.bytes.read bs.inPos = BitVec.ofNat 8 n)
    (hhi : bs.bytes.read (bs.inPos + 1) = BitVec.ofNat 8 (n / 256))
    (hnlo : bs.bytes.read (bs.inPos + 2) = ~~~BitVec.ofNat 8 n)
    (hnhi : bs.bytes.read (bs.inPos + 3) = ~~~BitVec.ofNat 8 (n / 256)) :
    step s = .next { s with
      stream := { bs with inPos := bs.inPos + 4 }
      storedRem := BitVec.ofNat 16 n
      phase := if n = 0 then .checkFinal else .storedCopy } := by
  have hstep : step s = stepStoredLen s := by rw [step, hp]
  have hlen : s.stream.align.readBits 16 = .ok n { bs with inPos := bs.inPos + 2 } := by
    rw [halign, BitStream.readBits_two_bytes hoff (by omega), hlo, hhi, bytes_toNat hn]
  have hnlen : BitStream.readBits 16 { bs with inPos := bs.inPos + 2 } =
      .ok (n ^^^ 0xFFFF) { bs with inPos := bs.inPos + 4 } := by
    rw [← not_bytes_toNat hn, ← hnlo, ← hnhi]
    exact BitStream.readBits_two_bytes hoff (Nat.lt_of_succ_le hin)
  exact hstep.trans ((stepStoredLen_of_reads hlen hnlen).1 rfl)

/-- A started session on a Stored block alone: header and length step, then the body (R196, R200 to R203). -/
theorem runSteps_storedBlock {first : Byte} {data : List Byte} {s : State} {e : SrcEnd}
    (hp : s.phase = .hdr) (hlen : data.length ≤ 65535) (hfirst : first.toNat % 8 = 1)
    (hstream : s.stream = ⟨.ofBytes (storedBlock first data), (storedBlock first data).length, e, 0, 0⟩)
    (hout : s.out = []) (hnone : s.outLen = 0) (hcap : ∀ c, s.outCap = some c → data.length ≤ c) :
    ∃ t, runSteps (data.length + 3) s = .next t ∧ observation t = some (.ok (data, 5 + data.length)) := by
  have hread (a : Nat) : s.stream.bytes.read a = (storedBlock first data).getD a Memory.unlisted := by
    rw [hstream, Memory.read_ofBytes]
  have hsize : s.stream.len = 5 + data.length := by rw [hstream, ← storedBlock_length first data]
  have hpos : s.stream.inPos = 0 := by rw [hstream]
  have hoff : s.stream.bitOff = 0 := by rw [hstream]
  have hheader := step_finalStoredHeader hp hoff (by omega) (by rw [hread, hpos]; exact hfirst)
  have halign : (s.stream.seek (s.stream.pos + 3)).align = { s.stream with inPos := 1, bitOff := 0 } := by
    rw [BitStream.align_eq_seek, BitStream.seek_seek, BitStream.seek_pos, BitStream.pos, hpos, hoff]
    rfl
  have hlength := step_storedLength (s := { s with
    stream := s.stream.seek (s.stream.pos + 3), bfinal := true, btype := 0, phase := .storedLen }) rfl halign rfl hlen
    (show 1 + 4 ≤ s.stream.len by omega) (hread 1) (hread 2) (hread 3) (hread 4)
  obtain ⟨t, hrun, hdone, hconsumed, hbytes⟩ := runSteps_storedBody data.length (s := { s with
    stream := { s.stream with inPos := 5, bitOff := 0 }, bfinal := true, btype := 0,
    storedRem := BitVec.ofNat 16 data.length, phase := if data.length = 0 then .checkFinal else .storedCopy }) rfl rfl
    ((BitVec.toNat_ofNat _ _).trans (Nat.mod_eq_of_lt (by omega))) rfl hsize.ge (by rw [hout]; rfl)
    (by rw [hnone]; simpa using hcap)
  refine ⟨t, (runSteps_succ_of_step hheader _).trans ((runSteps_succ_of_step hlength _).trans hrun), ?_⟩
  have hdata : outBytes t = data := by
    have hempty : s.out.toBytes s.outLen = [] := by rw [hnone]; rfl
    have hinput : s.stream.bytes = .ofBytes (storedBlock first data) := by rw [hstream]
    rw [hbytes, outBytes, hempty, List.nil_append, hinput]
    exact storedBlock_data first data
  rw [observation, hdone, hdata, hconsumed]

/-- Settles O25: presenting and starting set up the session that `runSteps_storedBlock` runs. -/
theorem storedBlockRoundTrip : Obligations.StoredBlockRoundTrip := by
  intro data first e cap s hlen hfirst hcap hb
  have hpresent : hostPresent (storedBlock first data) e cap s = presentInput (storedBlock first data) e cap s := by
    rw [hostPresent, hb]; rfl
  have hstart : hostWriteReg 0 1 (presentInput (storedBlock first data) e cap s) =
      startSession (presentInput (storedBlock first data) e cap s) := if_pos ⟨rfl, by decide, hb⟩
  obtain ⟨t, hrun, hobs⟩ := runSteps_storedBlock
    (s := startSession (presentInput (storedBlock first data) e cap s)) rfl hlen hfirst rfl rfl rfl hcap
  rw [← hstart, ← hpresent] at hrun
  exact ⟨t, hrun, hobs⟩

/-! ## The final check and the quiescent phases -/

/-- Settles O39: `AlignToByte` rounds the cursor up to a byte. -/
theorem finalCheckEndsOrContinues : Obligations.FinalCheckEndsOrContinues := by
  intro s hp
  have hstep : step s = stepCheckFinal s := by rw [step, hp]
  have halign : s.stream.align = { s.stream with inPos := (s.stream.pos + 7) / 8, bitOff := 0 } := by
    rw [BitStream.align_eq_seek, BitStream.seek, Nat.mul_mod_right, Nat.mul_div_cancel_left _ (by decide)]
    rfl
  rw [hstep, stepCheckFinal, halign]
  exact ⟨fun h => if_pos h, fun h => if_neg (Bool.eq_false_iff.mp h)⟩

/-- Settles O40, by induction on the number of steps. -/
theorem quiescentPhasesNeverChange : Obligations.QuiescentPhasesNeverChange := by
  intro s n h
  have hquiet : busy s = false := by rcases h with h | h | h <;> rw [busy, h]
  induction n with
  | zero => rfl
  | succ n ih => exact (runSteps_succ_of_step (step_of_quiescent hquiet) n).trans ih

/-! ## What a session can reach -/

/-- Settles O48: the invariant holds at reset and every step and host action keeps it. -/
theorem reachableStatesMeetTheInvariant : Obligations.ReachableStatesMeetTheInvariant := fun s h =>
  ⟨h.inv, invariantStatesAlwaysStep s h.inv⟩

/-! ## Every session ends -/

/-- A step of an instruction phase reads at least one bit, or raises. -/
theorem stepInstr_progress {sp : Space} {s t : State} (h : stepInstr sp s = .next t) :
    s.stream.pos < t.stream.pos ∨ t.phase = .error := by
  rcases stepInstr_cases sp s with ⟨-, he⟩ | ⟨i, bs, he, -, -, hlt⟩ | ⟨k, bs, f, he, -⟩ <;> rw [he] at h
  · cases h
  · rcases exec_cases i { s with stream := bs } with ⟨t', hx, hstream, -⟩ | ⟨n, -, -, hx⟩ <;> rw [hx] at h <;> cases h
    rw [hstream]
    exact .inl hlt
  · cases h
    exact .inr rfl

theorem stepStoredLen_progress {s t : State} (h : stepStoredLen s = .next t) :
    s.stream.pos < t.stream.pos ∨ t.phase = .error := by
  rcases stepStoredLen_cases s with ⟨k, bs, he, -⟩ | ⟨len, -, he, -⟩ <;> rw [he] at h <;> cases h
  · exact .inr rfl
  · have halign := s.stream.pos_le_align
    exact .inl (by rw [BitStream.seek_pos]; omega)

theorem stepStoredCopy_progress {s t : State} (h : stepStoredCopy s = .next t) :
    s.stream.pos < t.stream.pos ∨ t.phase = .error := by
  rcases stepStoredCopy_cases s with ⟨-, he⟩ | ⟨k, bs, -, he, -⟩ | ⟨b, -, -, he, -⟩ <;> rw [he] at h <;> cases h
  · exact .inr rfl
  · exact .inl (by rw [BitStream.seek_pos]; omega)

theorem stepDynCounts_progress {s t : State} (h : stepDynCounts s = .next t) :
    s.stream.pos < t.stream.pos ∨ t.phase = .error := by
  rcases stepDynCounts_cases s with ⟨hl, hd, bs, he, -⟩ | ⟨hl, hd, hc, he, -⟩ <;> rw [he] at h <;> cases h
  · exact .inr rfl
  · exact .inl (by rw [BitStream.seek_pos]; omega)

theorem endClLenStep_stream (s : State) : (endClLenStep s).stream = s.stream := by
  rcases endClLenStep_cases s with ⟨-, he⟩ | ⟨-, -, he⟩ | ⟨-, -, he⟩ <;> rw [he]
  rfl

theorem stepDynClLen_progress {s t : State} (h : stepDynClLen s = .next t) :
    s.stream.pos < t.stream.pos ∨ t.phase = .error := by
  rcases stepDynClLen_cases s with ⟨-, he⟩ | ⟨bs, -, he, -⟩ | ⟨v, -, -, he, -⟩ <;> rw [he] at h <;> cases h
  · exact .inr rfl
  · rw [endClLenStep_stream]
    have hlt : s.stream.pos < (s.stream.seek (s.stream.pos + 3)).pos := by rw [BitStream.seek_pos]; omega
    exact .inl hlt

/-- Every step of a running session but a copy and the final check moves the cursor or raises (R206). -/
theorem step_progress {s t : State} (hb : busy s = true) (hcopy : s.phase ≠ .copy) (hcheck : s.phase ≠ .checkFinal)
    (h : step s = .next t) : s.stream.pos < t.stream.pos ∨ t.phase = .error := by
  unfold step at h
  unfold busy at hb
  cases hp : s.phase <;> rw [hp] at h hb
  case idle | done | error => cases hb
  case hdr | dynLens | sym | dist => exact stepInstr_progress h
  case storedLen => exact stepStoredLen_progress h
  case storedCopy => exact stepStoredCopy_progress h
  case dynCounts => exact stepDynCounts_progress h
  case dynClLen => exact stepDynClLen_progress h
  case copy => exact absurd hp hcopy
  case checkFinal => exact absurd hp hcheck

/-- A copy has at most a whole match to go (R35). -/
theorem Inv.copyRem_le {s : State} (hs : Inv s) (hp : s.phase = .copy) : s.copyRem.toNat ≤ 258 := by
  obtain ⟨-, -, -, -, hle⟩ := hs.copying hp
  exact hle.trans (hs.matchLength (.inr hp)).2

/-- The first half of R206: which steps move the cursor, and how the steps that do not are bounded. -/
theorem step_clauses {s t : State} (hs : Inv s) (hb : busy s = true) (h : step s = .next t) :
    (s.phase ≠ .copy → s.phase ≠ .checkFinal → s.stream.pos < t.stream.pos ∨ t.phase = .error) ∧
    (s.phase = .copy → s.copyRem.toNat ≤ 258) ∧
    (t.phase = .copy → s.phase = .copy ∨ s.phase = .dist ∧ s.stream.pos < t.stream.pos) ∧
    (t.phase = .checkFinal → s.stream.pos < t.stream.pos) := by
  have hnext := (step_lands hs.clauses h).phase
  have hmoves (hp : s.phase ≠ .copy ∧ s.phase ≠ .checkFinal) (ht : t.phase ≠ .error) :
      s.stream.pos < t.stream.pos := (step_progress hb hp.1 hp.2 h).resolve_right ht
  refine ⟨fun hcopy hcheck => step_progress hb hcopy hcheck h, hs.copyRem_le, fun ht => ?_, fun ht => ?_⟩
  · rw [ht] at hnext hmoves
    cases hp : s.phase with
    | copy => exact .inl rfl
    | dist => exact .inr ⟨rfl, hmoves (by rw [hp]; decide) (by decide)⟩
    | _ => rw [hp] at hnext; exact absurd hnext (by decide)
  · rw [ht] at hnext hmoves
    refine hmoves ⟨fun hp => ?_, fun hp => ?_⟩ (by decide) <;> rw [hp] at hnext <;> exact absurd hnext (by decide)

/-- The steps that a phase takes without moving the cursor: the bytes still to copy, or the final check. -/
def stallSteps (s : State) : Nat :=
  match s.phase with
  | .copy => s.copyRem.toNat
  | .checkFinal => 1
  | _ => 0

/-- A bound on the steps to the last of a session: every bit still to read pays for the step that reads it and for a
whole copy after it (R206). -/
def stepsBound (s : State) : Nat := 260 * (8 * s.stream.len - s.stream.pos) + stallSteps s

theorem stallSteps_le {s : State} (hs : Inv s) : stallSteps s ≤ 258 := by
  unfold stallSteps
  split
  case h_1 hp => exact hs.copyRem_le hp
  case h_2 => decide
  case h_3 => decide

/-- A copy step leaves one byte less to copy, and none when it was the last (R190). -/
theorem stallSteps_copyByte_lt {s : State} (hp : s.phase = .copy) (hrem : 1 ≤ s.copyRem.toNat) :
    stallSteps (copyByte s) < stallSteps s := by
  have hstall : stallSteps s = s.copyRem.toNat := by rw [stallSteps, hp]
  by_cases hlast : s.copyRem = 1
  · have hnone : stallSteps (copyByte s) = 0 := by rw [stallSteps, show (copyByte s).phase = .sym from if_pos hlast]
    omega
  · have hless : stallSteps (copyByte s) = (s.copyRem - 1).toNat := by
      rw [stallSteps, show (copyByte s).phase = .copy from if_neg hlast]; rfl
    rw [hstall, hless]
    bv_omega

/-- A step after which the session still runs leaves a smaller bound. -/
theorem stepsBound_lt {s t : State} (hs : Inv s) (hb : busy s = true) (h : step s = .next t) (ht : busy t = true) :
    stepsBound t < stepsBound s := by
  unfold stepsBound
  by_cases hcopy : s.phase = .copy
  · obtain ⟨hpos, -, hout, hrem, -⟩ := hs.copying hcopy
    rcases step_copy_cases hcopy (by bv_omega) hpos hout with ⟨-, he⟩ | ⟨-, he⟩ <;> rw [he] at h <;> cases h
    · cases ht
    · exact Nat.add_lt_add_left (stallSteps_copyByte_lt hcopy hrem) _
  by_cases hcheck : s.phase = .checkFinal
  · obtain ⟨hends, hgoes⟩ := finalCheckEndsOrContinues s hcheck
    cases hf : s.bfinal with
    | true => rw [hends hf] at h; cases h; cases ht
    | false =>
      rw [hgoes hf] at h
      cases h
      have hstall : stallSteps s = 1 := by rw [stallSteps, hcheck]
      rw [hstall]
      exact Nat.lt_succ_self _
  have hmove := (step_progress hb hcopy hcheck h).resolve_right (phase_ne_of_busy ht).1
  have hinside := (step_inv hs h).cursorInside ht
  have hstall := stallSteps_le (step_inv hs h)
  have hlen : t.stream.len = s.stream.len := (step_effect h).cursor.source.2.1
  rw [hlen] at hinside ⊢
  omega

/-- A running session that stops running has ended (R193, R204, R219): no step leads back to `IDLE`. -/
theorem ended_of_not_busy {s t : State} (hs : Inv s) (hb : busy s = true) (h : step s = .next t)
    (ht : busy t = false) : t.phase = .done ∨ t.phase = .error := by
  have hnext := (step_lands hs.clauses h).phase
  unfold busy at hb ht
  cases hp : t.phase <;> rw [hp] at ht hnext
  case done => exact .inl rfl
  case error => exact .inr rfl
  case idle =>
    cases hq : s.phase with
    | idle => rw [hq] at hb; cases hb
    | _ => rw [hq] at hnext; exact absurd hnext (by decide)
  all_goals cases ht

/-- A running session ends at latest one step after its bound. -/
theorem runSteps_ends {s : State} (hs : Inv s) (hb : busy s = true) :
    ∃ k t, k ≤ stepsBound s + 1 ∧ runSteps k s = .next t ∧ (t.phase = .done ∨ t.phase = .error) := by
  induction hn : stepsBound s using Nat.strong_induction_on generalizing s with
  | _ n ih =>
    obtain ⟨t, hstep⟩ := invariantStatesAlwaysStep s hs
    cases ht : busy t with
    | false => exact ⟨1, t, Nat.le_add_left 1 n, runSteps_succ_of_step hstep 0, ended_of_not_busy hs hb hstep ht⟩
    | true =>
      have hlt : stepsBound t < n := hn ▸ stepsBound_lt hs hb hstep ht
      obtain ⟨k, u, hk, hrun, hend⟩ := ih (stepsBound t) hlt (step_inv hs hstep) ht rfl
      exact ⟨k + 1, u, by omega, (runSteps_succ_of_step hstep k).trans hrun, hend⟩

/-- Settles O49: each step of a running session lowers `stepsBound`, which at the start is 260 for each bit. -/
theorem everySessionEnds : Obligations.EverySessionEnds := by
  refine ⟨fun s t hs hb h => step_clauses hs hb h, fun s hs _ => ?_⟩
  obtain ⟨k, t, hk, hrun, hend⟩ := runSteps_ends (startSession_inv hs.inputWf hs.inputBelow) rfl
  have hbound : stepsBound (startSession s) = 260 * (8 * s.stream.len) := rfl
  exact ⟨k, t, by omega, hrun, hend⟩

/-! ## Sessions on the same arguments -/

/-- Settles O50: the two sessions start in the same state but for the tick, and no step takes notice of it. -/
theorem sessionsDependOnlyOnTheirArguments : Obligations.SessionsDependOnlyOnTheirArguments := by
  intro s s' n hb hb' hbytes hlen hend hcap t hrun
  have hstart {u : State} (hu : busy u = false) : hostWriteReg 0 1 u = startSession u := if_pos ⟨rfl, by decide, hu⟩
  rw [hstart hb] at hrun
  refine ⟨withTick s'.freeTick t, ?_, rfl, rfl⟩
  rw [hstart hb', startSession_eq_withTick hbytes hlen hend hcap, runSteps_withTick, hrun]
  rfl

end Sys2Proof.Machine
end

section
/-! PROOFS. The statement about the errors (60_exceptions.md): every rule that raises a code does so for that code's
cause. `ErrorCause` names the causes, and one lemma per phase says that its step raises nothing else. -/

namespace Sys2Proof.Machine

/-! ## Reads that fail -/

/-- A failing `ReadBits` stops where the input ends (R47, R85). -/
theorem BitStream.readBits_raise_end {n : Nat} {bs bs' : BitStream} {k : ErrKind} (h : bs.readBits n = .raise k bs') :
    k = endError bs.srcEnd ∧ 8 * bs.len ≤ bs'.pos := by
  rcases bs.readBits_cases n with ⟨v, -, -, hr⟩ | ⟨p, -, hend, -, -, hr⟩ <;> rw [hr] at h <;> cases h
  exact ⟨rfl, by rwa [seek_pos]⟩

/-- The loop of `DecodeSymbol` fails where the input ends, or on bits that begin no code (R97). -/
theorem decodeLoop_raise_end {t : CodeTable} {fuel len code : Nat} {bs bs' : BitStream} {k : ErrKind}
    (h : decodeLoop t fuel len code bs = .raise k bs') :
    k = .invalidHuffmanCode ∨ k = endError bs.srcEnd ∧ 8 * bs.len ≤ bs'.pos := by
  induction fuel generalizing len code bs with
  | zero => cases h; exact .inl rfl
  | succ fuel ih =>
    rw [decodeLoop] at h
    by_cases hin : bs.pos < 8 * bs.len
    · rw [BitStream.readBit_of_lt hin] at h
      dsimp only at h
      split at h
      · cases h
      · split at h
        · exact ih (bs := bs.seek (bs.pos + 1)) h
        · cases h; exact .inl rfl
    · rw [BitStream.readBit_of_le (Nat.le_of_not_lt hin)] at h
      cases h
      exact .inr ⟨rfl, Nat.le_of_not_lt hin⟩

theorem decodeSymbol_raise_end {t : CodeTable} {maxbits : Nat} {bs bs' : BitStream} {k : ErrKind}
    (h : decodeSymbol t maxbits bs = .raise k bs') :
    k = .invalidHuffmanCode ∨ k = endError bs.srcEnd ∧ 8 * bs.len ≤ bs'.pos :=
  decodeLoop_raise_end ((treeWalkIsTheMapLoop t maxbits bs).symm.trans h)

theorem readValue_moved {sp : Space} {t : CodeTable} {bs bs' : BitStream} {v : Nat}
    (h : readValue sp t bs = .ok v bs') : bs.Moved bs' := by
  cases sp with
  | hdr => exact (readHeader_ok h).2.1
  | clSym | llSym | dSym => exact (decodeSymbol_ok h).2.1

/-- A failing decode found the end of the input, in the value or in the extra bits, or a symbol's code is not in the
table (R74, R97). -/
theorem decode_raise_end {sp : Space} {t : CodeTable} {bs bs' : BitStream} {k : ErrKind}
    (h : decode sp t bs = .raise k bs') :
    (k = endError bs.srcEnd ∧ 8 * bs.len ≤ bs'.pos) ∨
    (k = .invalidHuffmanCode ∧ sp ≠ .hdr ∧ decodeSymbol t (spaceMaxBits sp) bs = .raise k bs') := by
  unfold decode at h
  cases hv : readValue sp t bs with
  | raise k1 bs1 =>
    rw [hv] at h
    cases h
    by_cases hsp : sp = .hdr
    · subst hsp
      exact .inl (BitStream.readBits_raise_end ((readHeader_eq_readBits bs).symm.trans hv))
    · rw [readValue_of_symbol hsp] at hv
      exact (decodeSymbol_raise_end hv).symm.imp id fun hk => ⟨hk, hsp, hv⟩
  | ok v bs1 =>
    rw [hv] at h
    dsimp only at h
    cases hx : bs1.readBits (extraWidth sp v) with
    | raise k2 bs2 =>
      rw [hx] at h
      cases h
      obtain ⟨hk, hend⟩ := BitStream.readBits_raise_end hx
      obtain ⟨-, hlen, hsrc, -⟩ := (readValue_moved hv).source
      rw [hlen] at hend
      rw [hsrc] at hk
      exact .inl ⟨hk, hend⟩
    | ok x bs2 => rw [hx] at h; cases h

/-! ## Decodes that succeed -/

/-- An instruction is decoded from its own value (R77). -/
theorem opValue_of_decodeElement {sp : Space} {v x : Nat} {i : Instr} (h : decodeElement sp v x = .ok i) :
    opValue i = v := by
  cases sp with
  | hdr =>
    have hbit : v % 2 = (v.testBit 0).toNat := by rw [Nat.toNat_testBit, Nat.pow_zero, Nat.div_one]
    simp only [decodeElement, decodeHeader] at h
    split at h <;> cases h <;> simp only [opValue] <;> omega
  | clSym =>
    simp only [decodeElement, decodeCodeLength] at h
    split at h
    · cases h; simp only [opValue, BitVec.toNat_ofNat]; omega
    · split at h <;> cases h <;> simp only [opValue] <;> omega
  | llSym =>
    simp only [decodeElement, decodeLiteralLength] at h
    split at h
    · cases h; simp only [opValue, BitVec.toNat_ofNat]; omega
    · split at h <;> cases h <;> simp only [opValue] <;> omega
  | dSym =>
    simp only [decodeElement, decodeDistance] at h
    split at h <;> cases h <;> rfl

/-- An instruction without an extra-bit field is decoded from its value alone (R74). -/
theorem readValue_of_decode {sp : Space} {t : CodeTable} {bs bs' : BitStream} {i : Instr}
    (h : decode sp t bs = .ok (.ok i) bs') (hw : extraWidth sp (opValue i) = 0) :
    readValue sp t bs = .ok (opValue i) bs' := by
  unfold decode at h
  cases hv : readValue sp t bs with
  | raise k bs1 => rw [hv] at h; cases h
  | ok v bs1 =>
    rw [hv] at h
    dsimp only at h
    cases hx : bs1.readBits (extraWidth sp v) with
    | raise k bs2 => rw [hx] at h; cases h
    | ok x bs2 =>
      rw [hx] at h
      dsimp only at h
      injection h with hi hbs
      subst hbs
      obtain rfl := opValue_of_decodeElement hi
      rw [hw] at hx
      cases hx
      rfl

/-! ## The causes -/

/-- What has happened on a step from `s` to `t` that raises error `k` (R209 to R217). -/
def ErrorCause (s t : State) : ErrKind → Prop
  | .truncatedStream => s.stream.srcEnd = .eof ∧ 8 * s.stream.len ≤ t.stream.pos
  | .sourceError => s.stream.srcEnd = .ioError ∧ 8 * s.stream.len ≤ t.stream.pos
  | .reservedBlockType => s.phase = .hdr ∧ s.stream.pos + 3 ≤ 8 * s.stream.len ∧
      s.stream.bitAt (s.stream.pos + 1) = true ∧ s.stream.bitAt (s.stream.pos + 2) = true
  | .storedLengthMismatch => s.phase = .storedLen ∧ ∃ len nlen bs, s.stream.align.readBits 16 = .ok len bs ∧
      bs.readBits 16 = .ok nlen t.stream ∧ nlen ≠ len ^^^ 0xFFFF
  | .malformedCodeLengths =>
      (s.phase = .dynClLen ∧ t.clIdx.toNat = clCount s ∧ overSubscribed (natLens t.clLen) 7) ∨
      (s.phase = .dynLens ∧ t.lenIdx.toNat = total s ∧
        (overSubscribed (natLens t.litLens) 15 ∨ overSubscribed (natLens t.distLens) 15))
  | .malformedDynamicHeader => s.phase = .dynLens ∧ ∃ tab i, clTable s = some tab ∧
      decode .clSym tab s.stream = .ok (.ok i) t.stream ∧
      ((∃ x : BitVec 2, i = .clRep16 x ∧ (s.lenIdx = 0 ∨ total s < s.lenIdx.toNat + repeatCount x)) ∨
       (∃ x : BitVec 3, i = .clZero17 x ∧ total s < s.lenIdx.toNat + shortZeroRun x) ∨
       (∃ x : BitVec 7, i = .clZero18 x ∧ total s < s.lenIdx.toNat + longZeroRun x))
  | .invalidHuffmanCode => ∃ sp tab, sp ≠ .hdr ∧ s.phase = spacePhase sp ∧ spaceTable sp s = some tab ∧
      (decodeSymbol tab (spaceMaxBits sp) s.stream = .raise .invalidHuffmanCode t.stream ∨
       ∃ v, decodeSymbol tab (spaceMaxBits sp) s.stream = .ok v t.stream ∧
        (sp = .llSym ∧ 286 ≤ v ∨ sp = .dSym ∧ 30 ≤ v))
  | .invalidBackReference => s.phase = .dist ∧ s.outLen < t.matchDist.toNat ∧ ∃ tab i, distTable s = some tab ∧
      decode .dSym tab s.stream = .ok (.ok i) t.stream ∧ t.matchDist.toNat = matchDistance (opValue i) (opExtra i)
  | .outputOverflow => s.outCap = some s.outLen ∧ (s.phase = .storedCopy ∨ s.phase = .copy ∨
      s.phase = .sym ∧ ∃ tab b, litTable s = some tab ∧ decode .llSym tab s.stream = .ok (.ok (.lit b)) t.stream)

/-- The step from `s` to `t` raises nothing, or an error for its cause. -/
def RaisesForCause (s t : State) : Prop := t.errCode = s.errCode ∨ ∃ k, t.errCode = errorCode k ∧ ErrorCause s t k

theorem RaisesForCause.raise {s t : State} (k : ErrKind) (h : ErrorCause s t k) (ht : t.errCode = errorCode k) :
    RaisesForCause s t := .inr ⟨k, ht, h⟩

/-- Past the end of the input, the error raised is the one `SRC_END` names (R47). -/
theorem RaisesForCause.at_end {s t : State} {k : ErrKind} (hk : k = endError s.stream.srcEnd)
    (hend : 8 * s.stream.len ≤ t.stream.pos) (ht : t.errCode = errorCode k) : RaisesForCause s t := by
  subst hk
  refine .raise _ ?_ ht
  cases hsrc : s.stream.srcEnd with
  | eof => exact ⟨hsrc, hend⟩
  | ioError => exact ⟨hsrc, hend⟩

/-- A step that ends with a failing `ReadBits` raises the error of the end of its input (R47). -/
theorem RaisesForCause.of_readBits {s t : State} {n : Nat} {bs : BitStream} {k : ErrKind} (hm : s.stream.Moved bs)
    (h : bs.readBits n = .raise k t.stream) (ht : t.errCode = errorCode k) : RaisesForCause s t := by
  obtain ⟨hk, hend⟩ := BitStream.readBits_raise_end h
  obtain ⟨-, hlen, hsrc, -⟩ := hm.source
  rw [hlen] at hend
  rw [hsrc] at hk
  exact .at_end hk hend ht

/-- A step that ends with a failing decode raises the error of the end of its input, or found no code (R47, R97). -/
theorem RaisesForCause.of_decode {sp : Space} {s t : State} {tab : CodeTable} {k : ErrKind}
    (hp : s.phase = spacePhase sp) (htab : spaceTable sp s = some tab)
    (h : decode sp tab s.stream = .raise k t.stream) (ht : t.errCode = errorCode k) : RaisesForCause s t := by
  rcases decode_raise_end h with ⟨hk, hend⟩ | ⟨rfl, hsp, hd⟩
  · exact .at_end hk hend ht
  · exact .raise .invalidHuffmanCode ⟨sp, tab, hsp, hp, htab, .inl hd⟩ ht

theorem errorCode_injective : Function.Injective errorCode := by
  intro a b h
  cases a <;> cases b <;> revert h <;> decide

/-- Where no error was raised before, the code a step leaves tells the cause. -/
theorem RaisesForCause.cause {s t : State} (h : RaisesForCause s t) (h0 : s.errCode = 0) (k : ErrKind)
    (ht : t.errCode = errorCode k) : ErrorCause s t k := by
  rcases h with hsame | ⟨k', hk', hcause⟩
  · exact absurd (ht.symm.trans (hsame.trans h0)) (errorCode_legal k).1
  · obtain rfl := errorCode_injective (hk'.symm.trans ht)
    exact hcause

/-! ## The phases that decode an instruction -/

/-- A step of an instruction phase raises for its cause when its instruction does. -/
theorem stepInstr_causes {sp : Space} {s u : State} (hp : s.phase = spacePhase sp)
    (hexec : ∀ {t : CodeTable} {i : Instr} {bs : BitStream}, spaceTable sp s = some t →
      decode sp t s.stream = .ok (.ok i) bs → opSpace i = sp → exec i { s with stream := bs } = .next u →
      RaisesForCause s u)
    (h : stepInstr sp s = .next u) : RaisesForCause s u := by
  unfold stepInstr fetch at h
  cases ht : spaceTable sp s with
  | none => rw [ht] at h; cases h
  | some t =>
    rw [ht] at h
    dsimp only at h
    rcases decode_cases (spaceTable_symbols ht) s.stream with ⟨i, bs, hd, hsp, -⟩ | ⟨k, bs, hd, -⟩ <;> rw [hd] at h
    · exact hexec ht hd hsp h
    · cases h
      exact .of_decode hp ht hd rfl

/-- A header of the reserved type was read from three bits, the last two of them 1 (R195, R210). -/
theorem bitAt_of_decode_blkReserved {tab : CodeTable} {bs bs' : BitStream} {f : Bool}
    (h : decode .hdr tab bs = .ok (.ok (.blkReserved f)) bs') :
    bs.pos + 3 ≤ 8 * bs.len ∧ bs.bitAt (bs.pos + 1) = true ∧ bs.bitAt (bs.pos + 2) = true := by
  have hread : bs.readBits 3 = .ok (6 + f.toNat) bs' :=
    (readHeader_eq_readBits bs).symm.trans (readValue_of_decode h rfl)
  have hfits : bs.pos + 3 ≤ 8 * bs.len := (BitStream.readBits_ok hread).2.2.resolve_left (by decide)
  refine ⟨hfits, ?_⟩
  rw [BitStream.readBits_of_le hfits] at hread
  injection hread with hvalue
  simp only [List.range_succ, List.range_zero, List.nil_append, List.cons_append, List.map_cons, List.map_nil,
    List.sum_cons, List.sum_nil] at hvalue
  revert hvalue
  cases bs.bitAt bs.pos <;> cases bs.bitAt (bs.pos + 1) <;> cases bs.bitAt (bs.pos + 2) <;> cases f <;> decide

theorem exec_header_causes {s t : State} {tab : CodeTable} {i : Instr} {bs : BitStream} (hp : s.phase = .hdr)
    (hd : decode .hdr tab s.stream = .ok (.ok i) bs) (hsp : opSpace i = .hdr)
    (he : exec i { s with stream := bs } = .next t) : RaisesForCause s t := by
  cases i <;> simp only [opSpace, reduceCtorEq] at hsp
  case blkReserved f => cases he; exact .raise .reservedBlockType ⟨hp, bitAt_of_decode_blkReserved hd⟩ rfl
  all_goals cases he; exact .inl rfl

/-- A code-length array without a table over-subscribes: its entries are no wider than the table allows
(R31, R33, R91). -/
theorem overSubscribed_of_buildTable {n w maxbits : Nat} {v : Vector (BitVec w) n} (hw : 2 ^ w ≤ maxbits + 1)
    (h : buildTable (natLens v) maxbits = none) : overSubscribed (natLens v) maxbits :=
  (buildRejectsExactlyOverSubscription _ _ fun l hl => Nat.le_of_lt_succ ((natLens_lt v l hl).trans_le hw)).mp h

/-- The end of a code-length symbol raises only when the last code length is written and an array over-subscribes
(R118). -/
theorem endLensStep_appendLens_causes {s : State} (hp : s.phase = .dynLens) (n : Nat) (v : CodeLen) (bs : BitStream) :
    RaisesForCause s (endLensStep (appendLens n v { s with stream := bs })) := by
  unfold endLensStep
  split
  case isTrue hlast =>
    rcases finishHeader_cases (appendLens n v { s with stream := bs }) with ⟨-, -, he⟩ | ⟨hnone, he⟩ <;> rw [he]
    · exact .inl rfl
    · have hover := hnone.imp (overSubscribed_of_buildTable (by decide)) (overSubscribed_of_buildTable (by decide))
      exact .raise .malformedCodeLengths (.inr ⟨hp, hlast, hover⟩) rfl
  case isFalse => exact .inl rfl

theorem lensRun_causes {s : State} (hp : s.phase = .dynLens) (n : Nat) (v : CodeLen) (bs : BitStream)
    (hrun : total s < s.lenIdx.toNat + n →
      ErrorCause s (raiseError .malformedDynamicHeader { s with stream := bs }) .malformedDynamicHeader) :
    RaisesForCause s (lensRun n v { s with stream := bs }) := by
  rcases lensRun_cases n v { s with stream := bs } with ⟨hlt, he⟩ | ⟨-, he⟩ <;> rw [he]
  · exact .raise _ (hrun hlt) rfl
  · exact endLensStep_appendLens_causes hp n v bs

/-- Symbol 16 needs a previous entry, and no run may pass `total` (R113, R116). -/
theorem exec_codeLength_causes {s t : State} {tab : CodeTable} {i : Instr} {bs : BitStream} (hp : s.phase = .dynLens)
    (htab : spaceTable .clSym s = some tab) (hd : decode .clSym tab s.stream = .ok (.ok i) bs)
    (hsp : opSpace i = .clSym) (he : exec i { s with stream := bs } = .next t) : RaisesForCause s t := by
  cases i <;> simp only [opSpace, reduceCtorEq] at hsp
  case clLen n =>
    simp only [exec, execClLen] at he
    split at he <;> cases he
    exact endLensStep_appendLens_causes hp 1 n bs
  case clRep16 x =>
    simp only [exec, execClRep16] at he
    split at he <;> cases he
    case isTrue hfirst =>
      exact .raise .malformedDynamicHeader ⟨hp, tab, _, htab, hd, .inl ⟨x, rfl, .inl hfirst⟩⟩ rfl
    case isFalse =>
      exact lensRun_causes hp _ _ bs fun hlt => ⟨hp, tab, _, htab, hd, .inl ⟨x, rfl, .inr hlt⟩⟩
  case clZero17 x =>
    cases he
    exact lensRun_causes hp _ _ bs fun hlt => ⟨hp, tab, _, htab, hd, .inr (.inl ⟨x, rfl, hlt⟩)⟩
  case clZero18 x =>
    cases he
    exact lensRun_causes hp _ _ bs fun hlt => ⟨hp, tab, _, htab, hd, .inr (.inr ⟨x, rfl, hlt⟩)⟩

/-- A literal overflows the output only when it is full; symbols 286 and 287 are invalid (R122, R155). -/
theorem exec_literalLength_causes {s t : State} {tab : CodeTable} {i : Instr} {bs : BitStream} (hp : s.phase = .sym)
    (htab : spaceTable .llSym s = some tab) (hd : decode .llSym tab s.stream = .ok (.ok i) bs)
    (hsp : opSpace i = .llSym) (he : exec i { s with stream := bs } = .next t) : RaisesForCause s t := by
  rcases literalLength_kinds hsp with ⟨b, rfl⟩ | rfl | hinv | ⟨hlo, hhi⟩
  · rcases execLit_cases b { s with stream := bs } with ⟨hfull, hx⟩ | ⟨-, hx⟩ <;> rw [exec, hx] at he <;> cases he
    · exact .raise .outputOverflow ⟨hfull, .inr (.inr ⟨hp, tab, b, htab, hd⟩)⟩ rfl
    · exact .inl rfl
  · cases he
    exact .inl rfl
  · rcases hinv with rfl | rfl <;> cases he <;>
      exact .raise .invalidHuffmanCode
        ⟨.llSym, tab, nofun, hp, htab, .inr ⟨_, readValue_of_decode hd rfl, .inl ⟨rfl, by decide⟩⟩⟩ rfl
  · rw [exec_eq_lengthSymbol hsp hlo hhi] at he
    cases he
    exact .inl rfl

/-- Symbols 30 and 31 are invalid, and a distance reaches past the output only when it exceeds `out_len`
(R158, R159). -/
theorem exec_distance_causes {s t : State} {tab : CodeTable} {i : Instr} {bs : BitStream} (hp : s.phase = .dist)
    (htab : spaceTable .dSym s = some tab) (hd : decode .dSym tab s.stream = .ok (.ok i) bs)
    (hsp : opSpace i = .dSym) (he : exec i { s with stream := bs } = .next t) : RaisesForCause s t := by
  rcases distance_kinds hsp with hinv | hv
  · rcases hinv with rfl | rfl <;> cases he <;>
      exact .raise .invalidHuffmanCode
        ⟨.dSym, tab, nofun, hp, htab, .inr ⟨_, readValue_of_decode hd rfl, .inr ⟨rfl, by decide⟩⟩⟩ rfl
  · obtain ⟨d, hdist, hnear, hfar⟩ := exec_entersCopy hsp hv rfl { s with stream := bs }
    rcases Nat.lt_or_ge s.outLen (matchDistance (opValue i) (opExtra i)) with hlt | hle
    · rw [hfar hlt] at he
      cases he
      exact .raise .invalidBackReference ⟨hp, hdist ▸ hlt, tab, i, htab, hd, hdist⟩ rfl
    · rw [hnear hle] at he
      cases he
      exact .inl rfl

/-! ## The other phases -/

theorem stepStoredLen_causes {s t : State} (hp : s.phase = .storedLen) (h : stepStoredLen s = .next t) :
    RaisesForCause s t := by
  have hma := s.stream.align_moved
  cases h1 : s.stream.align.readBits 16 with
  | raise k bs =>
    rw [stepStoredLen, h1] at h
    cases h
    exact .of_readBits hma h1 rfl
  | ok len bs =>
    cases h2 : bs.readBits 16 with
    | raise k bs' =>
      rw [stepStoredLen, h1] at h
      dsimp only at h
      rw [h2] at h
      cases h
      exact .of_readBits (hma.trans (BitStream.readBits_moved h1)) h2 rfl
    | ok nlen bs' =>
      obtain ⟨hagree, hdiffer⟩ := stepStoredLen_of_reads h1 h2
      by_cases hn : nlen = len ^^^ 0xFFFF
      · rw [hagree hn] at h
        cases h
        exact .inl rfl
      · rw [hdiffer hn] at h
        cases h
        exact .raise .storedLengthMismatch ⟨hp, len, nlen, bs, h1, h2, hn⟩ rfl

theorem stepStoredCopy_causes {s t : State} (hp : s.phase = .storedCopy) (h : stepStoredCopy s = .next t) :
    RaisesForCause s t := by
  unfold stepStoredCopy at h
  split at h
  · cases h
  · split at h
    case h_1 k bs hread =>
      cases h
      exact .of_readBits (.refl _) hread rfl
    case h_2 b bs hread =>
      split at h <;> cases h
      case h_1 k hwrite =>
        obtain ⟨hfull, rfl⟩ := outWrite_error hwrite
        exact .raise .outputOverflow ⟨hfull, .inl hp⟩ rfl
      case h_2 s' hwrite =>
        obtain ⟨-, rfl⟩ := outWrite_ok hwrite
        exact .inl rfl

theorem stepDynCounts_causes {s t : State} (h : stepDynCounts s = .next t) : RaisesForCause s t := by
  unfold stepDynCounts at h
  split at h
  case h_1 k bs h1 =>
    cases h
    exact .of_readBits (.refl _) h1 rfl
  case h_2 hlit bs h1 =>
    have hm1 := BitStream.readBits_moved h1
    split at h
    case h_1 k bs' h2 =>
      cases h
      exact .of_readBits hm1 h2 rfl
    case h_2 hdist bs' h2 =>
      split at h <;> cases h
      case h_1 k bs'' h3 => exact .of_readBits (hm1.trans (BitStream.readBits_moved h2)) h3 rfl
      case h_2 => exact .inl rfl

theorem stepDynClLen_causes {s t : State} (hp : s.phase = .dynClLen) (h : stepDynClLen s = .next t) :
    RaisesForCause s t := by
  unfold stepDynClLen at h
  split at h
  · split at h <;> cases h
    case h_1 k bs hread => exact .of_readBits (.refl _) hread rfl
    case h_2 v bs hread =>
      rcases endClLenStep_cases (writeClLen v { s with stream := bs }) with
        ⟨-, he⟩ | ⟨-, -, he⟩ | ⟨hlast, hnone, he⟩ <;> rw [he]
      · exact .inl rfl
      · exact .inl rfl
      · exact .raise .malformedCodeLengths (.inl ⟨hp, hlast, overSubscribed_of_buildTable (by decide) hnone⟩) rfl
  · cases h

theorem stepCopy_causes {s t : State} (hp : s.phase = .copy) (h : stepCopy s = .next t) : RaisesForCause s t := by
  rcases stepCopy_cases s with ⟨-, he⟩ | ⟨-, -, he⟩ | ⟨-, -, -, ⟨hfull, he⟩ | ⟨-, he⟩⟩ <;> rw [he] at h <;> cases h
  · exact .raise .outputOverflow ⟨hfull, .inr (.inl hp)⟩ rfl
  · exact .inl rfl

theorem stepCheckFinal_causes {s t : State} (h : stepCheckFinal s = .next t) : RaisesForCause s t := by
  unfold stepCheckFinal at h
  split at h <;> cases h <;> exact .inl rfl

/-! ## Every step -/

/-- Whatever the phase, a step raises nothing or an error for its cause. -/
theorem step_causes {s t : State} (h : step s = .next t) : RaisesForCause s t := by
  unfold step at h
  cases hp : s.phase <;> rw [hp] at h
  case idle | done | error => cases h; exact .inl rfl
  case hdr => exact stepInstr_causes (sp := .hdr) hp (fun _ => exec_header_causes hp) h
  case storedLen => exact stepStoredLen_causes hp h
  case storedCopy => exact stepStoredCopy_causes hp h
  case dynCounts => exact stepDynCounts_causes h
  case dynClLen => exact stepDynClLen_causes hp h
  case dynLens => exact stepInstr_causes (sp := .clSym) hp (exec_codeLength_causes hp) h
  case sym => exact stepInstr_causes (sp := .llSym) hp (exec_literalLength_causes hp) h
  case dist => exact stepInstr_causes (sp := .dSym) hp (exec_distance_causes hp) h
  case copy => exact stepCopy_causes hp h
  case checkFinal => exact stepCheckFinal_causes h

/-- Settles O54: outside `ERROR` no code is set, so the code a step leaves is one that step raised, for its cause. -/
theorem errorsComeFromTheirCauses : Obligations.ErrorsComeFromTheirCauses := by
  intro s s' hs hne h
  have hzero : s.errCode = 0 := by_contra fun hcode => hne (hs.errorIff.mpr hcode)
  have hcause := (step_causes h).cause hzero
  exact ⟨hcause .truncatedStream, hcause .sourceError, hcause .reservedBlockType, hcause .storedLengthMismatch,
    hcause .malformedCodeLengths, hcause .malformedDynamicHeader, hcause .invalidHuffmanCode,
    hcause .invalidBackReference, hcause .outputOverflow⟩

end Sys2Proof.Machine
end

section
/-! PROOFS. The invariant as the statements ask for it: at reset, along a step, along a host action (10_state.md,
45_block_dispatcher.md section 1); and the two statements left about reset, start and the host's registers
(70_reset_and_hazards.md, 60_exceptions.md section 3). -/

namespace Sys2Proof.Machine

/-! ## The invariant -/

/-- Settles O45: `step_inv` goes by the phase a step lands in, and the effect of the step keeps the shared clauses. -/
theorem stepKeepsTheInvariant : Obligations.StepKeepsTheInvariant := fun _ _ hs h => step_inv hs h

/-- Settles O46: `hostAct_inv` goes by the action. -/
theorem hostActionsKeepTheInvariant : Obligations.HostActionsKeepTheInvariant := fun _ _ _ hs h => hostAct_inv hs h

/-- Settles O44: the reset state is reset again by `resetCore`, and its input memory is empty. -/
theorem invariantHoldsAtReset : Obligations.InvariantHoldsAtReset := resetCore_inv (s := State.reset) rfl rfl

/-! ## Reset, start and the host's registers -/

/-- Settles O2: reset and start move only the cursor of the stream. -/
theorem resetKeepsTheHostsInput : Obligations.ResetKeepsTheHostsInput := by
  intro s t ht
  rw [List.mem_pair] at ht
  rcases ht with rfl | rfl
  · exact ⟨rfl, rfl, rfl, resetCore_outCap s⟩
  · exact ⟨rfl, rfl, rfl, startSession_outCap s⟩

/-- `OUT_COUNT` is `out_len` modulo 2^32 (R40). -/
theorem outCount_toNat (s : State) : (outCount s).toNat = s.outLen % 2 ^ 32 := BitVec.toNat_ofNat s.outLen 32

/-- Settles O5: registers 2 and 3 show their counters; a number from 4 on has no register, so no write to it starts. -/
theorem counterRegistersAndUnusedNumbers : Obligations.CounterRegistersAndUnusedNumbers := by
  intro s n v
  refine ⟨outCount_toNat s, rfl, rfl, hostWriteReg_of_not_start ?_, rfl⟩
  rintro ⟨hn, -⟩
  exact Nat.succ_ne_zero (n + 3) hn

end Sys2Proof.Machine
end
